-- ==== Sys2Proof/Word.lean ====
section
/-!
DEFINITION. The word types of B2T-CORE: what the spec treats as bits. Positions, lengths, indices and costs are natural
numbers (00_scope.md R11; decision D29 lets a model take them so).
-/

namespace Sys2Proof

/-- An element of `HEX`, `PAY` and `OUT`: 8 bits (00_scope.md R13). -/
abbrev Byte := BitVec 8

/-- An element of `DUR`: 16 bits (00_scope.md R13). -/
abbrev Half := BitVec 16

/-- A host-visible register: 32 bits (10_state.md R22). -/
abbrev Word := BitVec 32

end Sys2Proof
end

