-- ==== Sys2Proof/Config.lean ====
section
/-!
DEFINITION. What is fixed for one machine: the constants of 00_scope.md R9, the parameters of 00_scope.md R10 (those left
OPEN are constants with no body, so a claim holds for every allowed value), and the free values for what the spec leaves
unspecified (93_implementation_defined.md section 1).
-/

namespace Sys2Proof.Config

/-! ## Constants (00_scope.md R9) -/

/-- `W`: the sliding window; the most entries the SuffixIndex holds. -/
def window : Nat := 8192
/-- `LEN_MIN`: the shortest match. -/
def lenMin : Nat := 3
/-- `LEN_MAX`: the longest match. -/
def lenMax : Nat := 264
/-- `DIST_MIN`: the least match distance. -/
def distMin : Nat := 1
/-- `DIST_MAX`: the greatest match distance. -/
def distMax : Nat := 8192
/-- `LIT_MAX`: the longest literal piece. -/
def litMax : Nat := 32
/-- `UNIT_NUM`: numerator of the tick unit 269/8192. -/
def unitNum : Nat := 269
/-- `UNIT_DEN`: denominator of the tick unit 269/8192. -/
def unitDen : Nat := 8192
/-- `SENTINEL`: the duration that denotes "no signal / repeat gap". -/
def sentinel : Half := 65535

/-! ## Parameters (00_scope.md R10) -/

/-- `HEXCAP`: the characters `HEX` holds. -/
def hexCap : Nat := 131078
/-- `DURCAP`: the durations `DUR` holds. -/
def durCap : Nat := 65535

/-- The open choice behind `NMAX` (decision D4, OPEN): no body, so no proof can see it. -/
opaque nmaxChoice : Nat

/-- `NMAX`, the payload capacity: any value from 131070 (00_scope.md R10) to 4164816770, the greatest whose `OUTCAP` a
32-bit `OUTLEN` holds (DEDUCED from 10_state.md R22 and R29; log entry 1). -/
def nmax : Nat := nmaxChoice % 4164685701 + 131070

/-- `OUTCAP`, the capacity of `OUT`: the level-0 length of a payload of `NMAX` bytes. -/
def outCap : Nat := nmax + (nmax + 31) / 32

/-- `PW`, the width of a position register: the least with `2^PW > NMAX`. -/
def positionBits : Nat := Nat.log2 nmax + 1

/-- `CW`, the width of a cost: the least with `2^CW > OUTCAP`. -/
def costBits : Nat := Nat.log2 outCap + 1

/-- What the TimingDecoder does with a Duration above 65535 (40_timing_decoder.md R124). -/
inductive DurOvf where
  /-- `FAULT`: `DEC_UNIT` raises `DecodeError(DUR_RANGE)`. -/
  | fault
  /-- `SATURATE`: the value becomes the sentinel 65535. -/
  | saturate
deriving DecidableEq, Repr, Inhabited

/-- `DUR_OVF` (decision D15, OPEN): no body, so a claim of the machine holds for both values (log entry 2). -/
opaque durOvf : DurOvf

/-! ## Free values

The first argument tells the values of one draw apart, the last is the draw's number. -/

/-- A value the spec leaves unspecified: working register number `r` after a command (10_state.md R40; log entry 6). -/
opaque freeReg (r draw : Nat) : Nat

/-- The cells of `SUF` after a command (10_state.md R40; log entry 6). -/
opaque freeSuf (draw : Nat) : List Nat

/-- The records `(cost, len, dist)` of `DP` after a command, `none` an empty one (10_state.md R40; log entry 6). -/
opaque freeDp (draw : Nat) : List (Option (Nat × Nat × Nat))

/-- The records `(pos, len, dist)` of `PATH` after a command (10_state.md R40; log entry 6). -/
opaque freePath (draw : Nat) : List (Nat × Nat × Nat)

/-- What `OUT[i]` holds while it lies at or above `OUTLEN` (10_state.md R33; log entry 8); the draw is `State.outDraw`. -/
opaque freeOut (i draw : Nat) : Byte

end Sys2Proof.Config
end

