-- ==== Sys2Proof/Syntax.lean ====
section
/-!
DEFINITION. The instructions of B2T-CORE: one constructor for each row of spec/opcode_table.json (00_scope.md R2: commands,
input records, output records), and the spaces an encoding stands in.
-/

namespace Sys2Proof

/-- Where an encoding stands, which decides how its bytes are read (opcode_table.json, column `space`). -/
inductive Space where
  /-- The value written to register `CMD` (30_encoding.md R91). -/
  | cmd
  /-- Frame bytes 0 to 3 of a capture (30_encoding.md R94). -/
  | header
  /-- A unit of the pulse-data region (30_encoding.md R97). -/
  | unit
  /-- An element of the payload (30_encoding.md R99). -/
  | payload
  /-- A block of the compressed stream (30_encoding.md R103). -/
  | stream
deriving DecidableEq, Repr

/-- One constructor for each row of spec/opcode_table.json, in the table's order. -/
inductive Instr where
  /-- `CLEAR`, word `0x00` (30_encoding.md R92). -/
  | clear
  /-- `DECODE`, word `0x10`. -/
  | decode
  /-- `FILTER`, word `0x20`. -/
  | filter
  /-- `PACK`, word `0x30`. -/
  | pack
  /-- `COMPRESS.L0`, word `0x40`. -/
  | compressL0
  /-- `COMPRESS.L1`, word `0x41`. -/
  | compressL1
  /-- `COMPRESS.L2`, word `0x42`. -/
  | compressL2
  /-- `COMPRESS.L3`, word `0x43`. -/
  | compressL3
  /-- `CONVERT.L0`, word `0x50`. -/
  | convertL0
  /-- `CONVERT.L1`, word `0x51`. -/
  | convertL1
  /-- `CONVERT.L2`, word `0x52`. -/
  | convertL2
  /-- `CONVERT.L3`, word `0x53`. -/
  | convertL3
  /-- `CMD.reserved`: any other value `w` written to `CMD` (30_encoding.md R93). -/
  | cmdReserved (w : Word)
  /-- `FRAMEHDR`: the low and high byte of the region length; frame bytes 0 and 1 are not examined (30_encoding.md R94). -/
  | frameHdr (l h : Byte)
  /-- `TICK1`: a one-byte tick count (30_encoding.md R95). -/
  | tick1 (t : Byte)
  /-- `TICK3`: the high and low byte of an escaped tick count (30_encoding.md R96). -/
  | tick3 (h l : Byte)
  /-- `PAYDUR`: the low and high byte of a Duration (30_encoding.md R99). -/
  | paydur (l h : Byte)
  /-- `LIT`: a literal block with its data bytes (30_encoding.md R100). -/
  | lit (data : List Byte)
  /-- `MATCHS`: fields `lll`, `hhhhh`, `eeeeeeee` of a short match (30_encoding.md R101). -/
  | matchs (l : BitVec 3) (h : BitVec 5) (e : Byte)
  /-- `MATCHL`: fields `hhhhh`, `cccccccc`, `eeeeeeee` of a long match (30_encoding.md R102). -/
  | matchl (h : BitVec 5) (c e : Byte)
deriving DecidableEq, Repr

end Sys2Proof
end

