-- ==== Sys2Proof/Machine/State.lean ====
section
/-!
DEFINITION. The state of B2T-CORE (10_state.md R20 to R43) as plain data, the reasons a step can stop, and the state after
reset. STATUS and the other host-visible registers are 32-bit words, since the host reads them whole; the working registers
are natural numbers (00_scope.md R10, decision D29; log entry 18).
-/

namespace Sys2Proof.Machine

/-! ## Buffers -/

/-- The four host-visible buffers (10_state.md R30 to R33). -/
inductive Buffer where
  | hex
  | dur
  | pay
  | out
deriving DecidableEq, Repr

/-- The cells of a buffer that have been written: (index, element) pairs, indices strictly rising. An index that is not
listed has never been written and has no value (20_memory.md R71; log entry 4). -/
abbrev Cells (w : Nat) := List (Nat × BitVec w)

/-- The memory the host sees: four element-indexed spaces (20_memory.md R60). -/
structure Memory where
  /-- `HEX`, character codes (10_state.md R30). -/
  hex : List Host.Cell
  /-- `DUR`, 16-bit durations (10_state.md R31). -/
  dur : Cells 16
  /-- `PAY`, the payload (10_state.md R32). -/
  pay : List Host.Cell
  /-- `OUT`, the compressed stream (10_state.md R33). -/
  out : List Host.Cell
deriving DecidableEq, Repr

/-- The canonical form of a buffer: indices strictly rising. -/
abbrev cellsWf {w : Nat} (b : Cells w) : Prop := b.Pairwise fun x y => x.1 < y.1

/-- The canonical form of the memory: each buffer's indices strictly rise. An unlisted index has no value, so no entry
equals what an unlisted index reads as, and equal memories are equal data. -/
abbrev Memory.wf (m : Memory) : Prop :=
  cellsWf m.hex ∧ cellsWf m.dur ∧ cellsWf m.pay ∧ cellsWf m.out

/-! ## Per-call state -/

/-- A record of `DP` that is not empty (10_state.md R38, 30_encoding.md R107). -/
structure DpRec where
  /-- Least cost found so far of reaching the position. -/
  cost : Nat
  /-- Length of the last edge of that path. -/
  len : Nat
  /-- Distance of that edge, 0 for a literal edge. -/
  dist : Nat
deriving DecidableEq, Repr

/-- A record of `PATH` (10_state.md R39, 30_encoding.md R107). -/
structure PathRec where
  /-- Start position of the edge. -/
  pos : Nat
  /-- Length of the edge. -/
  len : Nat
  /-- Distance of the edge, 0 for a literal edge. -/
  dist : Nat
deriving DecidableEq, Repr

/-- The per-call state (10_state.md R34, R37 to R40): the working registers and the internal buffers. -/
structure Work where
  /-- `LEVEL`: the level of the running `COMPRESS` or `CONVERT`. -/
  level : BitVec 2
  /-- `POS`: the scan cursor. -/
  pos : Nat
  /-- `BSTART`: start of the pending literal run. -/
  bstart : Nat
  /-- `NEXT`: the lowest position not yet inserted in the SuffixIndex. -/
  next : Nat
  /-- `SUFCNT`: number of entries of `SUF`. -/
  sufcnt : Nat
  /-- `CLEN`: length of the chosen candidate. -/
  clen : Nat
  /-- `CDIST`: distance of the chosen candidate, 0 for no candidate. -/
  cdist : Nat
  /-- `PATHCNT`: number of records in `PATH`. -/
  pathcnt : Nat
  /-- `CUR`: the TimingDecoder's cursor in the pulse-data region. -/
  cur : Nat
  /-- `DECLEN`: the declared length of the region. -/
  declen : Nat
  /-- `SUF`: the cells of the SuffixIndex; the entries are the first `SUFCNT`. -/
  suf : List Nat
  /-- `DP`: the OptimalParser's table, `none` an empty record. -/
  dp : List (Option DpRec)
  /-- `PATH`: the edge path; the records are the first `PATHCNT`. -/
  path : List PathRec
  /-- The local `n` of `DECODE`: durations produced so far (the model's own field; log entry 11). -/
  durIdx : Nat
  /-- The local `k` of `PACK`: durations packed so far (the model's own field; log entry 11). -/
  packIdx : Nat
deriving DecidableEq, Repr

/-! ## Faults of the block -/

/-- The kinds of fault (60_exceptions.md R260). -/
inductive ErrKind where
  /-- Malformed or truncated capture. -/
  | decodeError
  /-- A block's parameters out of range; unreachable (42_block_emitter.md R155). -/
  | invariantViolation
  /-- A sentinel reached the packer. -/
  | validationError
  /-- Misuse of the command interface. -/
  | cmdError
deriving DecidableEq, Repr

/-- The causes of a fault (60_exceptions.md R261 to R264). -/
inductive Cause where
  | shortFrame
  | lenOverrun
  | badHex
  | truncEscape
  | durRange
  | litRange
  | mlenRange
  | distRange
  | packSentinel
  | illegalCmd
  | lenRange
deriving DecidableEq, Repr

/-- What a `raise` carries (00_scope.md R14): the cause, which fixes the kind, and the offset. -/
structure Raise where
  cause : Cause
  off : Nat
deriving DecidableEq, Repr

/-- The running command, as fault entry tells them apart (60_exceptions.md R270). -/
inductive Running where
  | decode
  | filter
  | pack
  | compress
  | convert
deriving DecidableEq, Repr

/-! ## The host's accesses -/

/-- One access of the host or the platform (47_commands.md R254, 70_reset_and_hazards.md R290), and the model's own record
port (log entry 10). -/
inductive Access where
  /-- `x[n] <- v`. -/
  | writeReg (n : Nat) (v : Word)
  /-- Read `x[n]`. -/
  | readReg (n : Nat)
  /-- `HEX[i] <- c`. -/
  | writeHex (i : Nat) (c : Byte)
  /-- `DUR[i] <- v`. -/
  | writeDur (i : Nat) (v : Half)
  /-- `PAY[i] <- b`. -/
  | writePay (i : Nat) (b : Byte)
  /-- `OUT[i] <- b`, which has no effect. -/
  | writeOut (i : Nat) (b : Byte)
  /-- Read one element of a buffer. -/
  | readCell (buf : Buffer) (i : Nat)
  /-- The reset event. -/
  | reset
  /-- The model's own: the bytes of one record, handed alone to the component that decodes or produces it. -/
  | record (sp : Space) (bytes : List Byte)
deriving DecidableEq, Repr

/-! ## The state -/

/-- The state of the machine. -/
structure State where
  /-- Register 1, `STATUS` (10_state.md R24). -/
  status : Word
  /-- Register 2, `ERROFF` (10_state.md R25). -/
  erroff : Word
  /-- Register 3, `HEXLEN` (10_state.md R26). -/
  hexlen : Word
  /-- Register 4, `DURLEN` (10_state.md R27). -/
  durlen : Word
  /-- Register 5, `PAYLEN` (10_state.md R28). -/
  paylen : Word
  /-- Register 6, `OUTLEN` (10_state.md R29). -/
  outlen : Word
  /-- The four host-visible buffers. -/
  mem : Memory
  /-- The per-call state. -/
  work : Work
  /-- The host's pending accesses, oldest first (the model's own field; log entry 9). -/
  inbox : List Access
  /-- What the host's latest read returned (the model's own field; log entry 20). -/
  hostRead : Word
  /-- How many free values have been drawn (the model's own field; log entry 6). -/
  freeCtr : Nat
  /-- The draw that fixes what the cells of `OUT` at or above `OUTLEN` hold: a new one when a command that may write `OUT` ends,
  and at reset (the model's own field; log entry 8). -/
  outDraw : Nat
deriving DecidableEq, Repr

/-- Why the model stops with a fault. The block's own faults are no stop: they are next states (60_exceptions.md R270). -/
inductive Fault where
  /-- An index at or past a buffer's capacity: no such cell exists (93_implementation_defined.md U14). Raised by a host read
  or write of a buffer, and by a record handed alone whose cell would lie past the capacity. Safe (log entry 17). -/
  | noSuchCell (buf : Buffer) (i : Nat)
deriving DecidableEq, Repr

/-- Why the model has no next state for an access. -/
inductive Refusal where
  /-- An instruction that has no meaning yet; raised by `exec`'s refused arms only. Safe. -/
  | notModelled (mnemonic : String)
  /-- A cell that nothing has written since reset would be read: by a command at its launch, for the cells below its input
  length (20_memory.md R71, 70_reset_and_hazards.md R292, U3), or by the host. Safe (log entries 4 and 5). -/
  | unwrittenCell (buf : Buffer) (i : Nat)
  /-- The bytes on the model's record port are no encoding of that space. Raised by the port only. Safe (log entry 10). -/
  | notARecord (sp : Space)
deriving DecidableEq, Repr

/-- The per-call state right after reset: the spec leaves all of it unspecified (10_state.md R43), DESIGN CHOICE zero and
empty (log entry 3). -/
def Work.reset : Work :=
  { level := 0, pos := 0, bstart := 0, next := 0, sufcnt := 0, clen := 0, cdist := 0, pathcnt := 0, cur := 0, declen := 0,
    suf := [], dp := [], path := [], durIdx := 0, packIdx := 0 }

/-- The machine right after reset (10_state.md R43, 70_reset_and_hazards.md R290, R291): the registers are 0, no buffer cell
has been written, the host has nothing pending. -/
def State.reset : State :=
  { status := 0, erroff := 0, hexlen := 0, durlen := 0, paylen := 0, outlen := 0,
    mem := { hex := [], dur := [], pay := [], out := [] }, work := Work.reset, inbox := [], hostRead := 0, freeCtr := 0,
    outDraw := 0 }

end Sys2Proof.Machine
end

