-- ==== Sys2Proof/Machine/Operands.lean ====
section
/-!
DEFINITION. Operand assembly (30_encoding.md R104): every quantity a record or a hex string carries, put together from its
bits. All fields are unsigned.
-/

namespace Sys2Proof.Machine

/-- `nib(c)`: the value of a hexadecimal character, ASCII, either case (30_encoding.md R98; PRESUMED by the spec, log
entry 16). -/
def nib (c : Byte) : Option (BitVec 4) :=
  if 0x30 ≤ c.toNat ∧ c.toNat ≤ 0x39 then some (BitVec.ofNat 4 (c.toNat - 0x30))
  else if 0x41 ≤ c.toNat ∧ c.toNat ≤ 0x46 then some (BitVec.ofNat 4 (c.toNat - 0x41 + 10))
  else if 0x61 ≤ c.toNat ∧ c.toNat ≤ 0x66 then some (BitVec.ofNat 4 (c.toNat - 0x61 + 10))
  else none

/-- A 16-bit quantity from its high and low byte. -/
def half (h l : Byte) : Half := h ++ l

/-- `DECLEN` of a frame header, low byte first (20_memory.md R63, 30_encoding.md R94). -/
def headerLen (l h : Byte) : Nat := (half h l).toNat

/-- The raw tick count of a `TICK1` (30_encoding.md R95). -/
def tick1Count (t : Byte) : Nat := t.toNat

/-- The raw tick count of a `TICK3`, high byte first (20_memory.md R64, 30_encoding.md R96). -/
def tick3Count (h l : Byte) : Nat := (half h l).toNat

/-- The Duration of a `PAYDUR`, low byte first (20_memory.md R62, 30_encoding.md R99). -/
def paydurValue (l h : Byte) : Half := half h l

/-- `v[7:0]`. -/
def lowByte (v : Half) : Byte := v.extractLsb' 0 8

/-- `v[15:8]`. -/
def highByte (v : Half) : Byte := v.extractLsb' 8 8

/-- The length of a `MATCHS`: `lll + 2` (30_encoding.md R101). -/
def matchsLen (l : BitVec 3) : Nat := l.toNat + 2

/-- The length of a `MATCHL`: `c + 9` (30_encoding.md R102). -/
def matchlLen (c : Byte) : Nat := c.toNat + 9

/-- The distance of either match: `hhhhh * 256 + e + 1` (20_memory.md R65). -/
def matchDist (h : BitVec 5) (e : Byte) : Nat := h.toNat * 256 + e.toNat + 1

end Sys2Proof.Machine
end

