-- ==== Sys2Proof/Machine/Flags.lean ====
section
/-!
DEFINITION. The status bits: the fields of `STATUS` (10_state.md R24, R36), the numbers of the fault kinds and causes
(60_exceptions.md R260 to R264), and the `STATUS` value of a recorded fault (R271). The block has no condition codes.
-/

namespace Sys2Proof.Machine

/-- `STATE` = `READY` (10_state.md R24). -/
def stReady : BitVec 2 := 0
/-- `STATE` = `BUSY`. -/
def stBusy : BitVec 2 := 1
/-- `STATE` = `FAULT`. -/
def stFault : BitVec 2 := 3

/-- Field `STATE`, bits [1:0]. -/
def statusState (w : Word) : BitVec 2 := w.extractLsb' 0 2

/-- Field `ERR`, bits [4:2]. -/
def statusErr (w : Word) : BitVec 3 := w.extractLsb' 2 3

/-- Field `CAUSE`, bits [12:8]. -/
def statusCause (w : Word) : BitVec 5 := w.extractLsb' 8 5

/-- `STATUS.STATE <- v`: the other bits stay. -/
def withStatusState (w : Word) (v : BitVec 2) : Word := w.extractLsb' 2 30 ++ v

/-- The kind a cause belongs to (60_exceptions.md R261 to R264). -/
def causeKind : Cause → ErrKind
  | .shortFrame | .lenOverrun | .badHex | .truncEscape | .durRange => .decodeError
  | .litRange | .mlenRange | .distRange => .invariantViolation
  | .packSentinel => .validationError
  | .illegalCmd | .lenRange => .cmdError

/-- The number of a kind in `ERR` (60_exceptions.md R260). -/
def kindNumber : ErrKind → BitVec 3
  | .decodeError => 1
  | .invariantViolation => 2
  | .validationError => 3
  | .cmdError => 4

/-- The number of a cause in `CAUSE` (60_exceptions.md R261 to R264). -/
def causeNumber : Cause → BitVec 5
  | .shortFrame => 1
  | .lenOverrun => 2
  | .badHex => 3
  | .truncEscape => 4
  | .durRange => 5
  | .litRange => 1
  | .mlenRange => 2
  | .distRange => 3
  | .packSentinel => 1
  | .illegalCmd => 1
  | .lenRange => 2

/-- `STATUS` after a fault of a cause: `(cause << 8) | (err << 2) | 3` (60_exceptions.md R271). -/
def faultStatus (c : Cause) : Word :=
  (0 : BitVec 19) ++ causeNumber c ++ (0 : BitVec 3) ++ kindNumber (causeKind c) ++ stFault

/-- A fault is recorded and not yet acknowledged: `STATE` = `FAULT`. -/
def State.inFault (s : State) : Bool := statusState s.status == stFault

/-- `STATUS.STATE <- v`. -/
def State.setState (s : State) (v : BitVec 2) : State := { s with status := withStatusState s.status v }

end Sys2Proof.Machine
end

