-- ==== Sys2Proof/Machine/Ops.lean ====
section
/-!
DEFINITION. The named operations over memory and registers: cells, element reads and writes, host register access, taking a
fault and leaving it, and the frame every command runs in.
-/

namespace Sys2Proof.Machine

/-! ## Cells of one buffer -/

/-- `S[i]`: the element at an index, `none` where nothing has been written (20_memory.md R71). -/
def cellRead {w : Nat} : Cells w → Nat → Option (BitVec w)
  | [], _ => none
  | (j, v) :: rest, i => if j = i then some v else cellRead rest i

/-- `S[i] <- v`, keeping the indices strictly rising. -/
def cellWrite {w : Nat} : Cells w → Nat → BitVec w → Cells w
  | [], i, v => [(i, v)]
  | (j, u) :: rest, i, v =>
    if i < j then (i, v) :: (j, u) :: rest
    else if i = j then (i, v) :: rest
    else (j, u) :: cellWrite rest i v

/-- `MemWrite(S, i, n, vs)`: the elements of a list to consecutive indices from `i` (00_scope.md R13). -/
def cellsWrite {w : Nat} (b : Cells w) (i : Nat) : List (BitVec w) → Cells w
  | [] => b
  | v :: vs => cellsWrite (cellWrite b i v) (i + 1) vs

/-- `MemRead(S, i, n)`: `n` consecutive elements from `i`, lowest index first, or the first index that nothing has
written. -/
def cellsRead {w : Nat} (b : Cells w) (i : Nat) : Nat → Except Nat (List (BitVec w))
  | 0 => .ok []
  | n + 1 =>
    match cellRead b i with
    | none => .error i
    | some v =>
      match cellsRead b (i + 1) n with
      | .error j => .error j
      | .ok vs => .ok (v :: vs)

/-! ## Elements of the machine -/

/-- The number of elements of a buffer (00_scope.md R10). -/
def capacity : Buffer → Nat
  | .hex => Config.hexCap
  | .dur => Config.durCap
  | .pay => Config.nmax
  | .out => Config.outCap

/-- `n` payload bytes fit `PAY`: `n ≤ NMAX`. Every legal `NMAX` is at least 131070 (00_scope.md R10), so up to there the
open choice is not looked at. -/
def payFits (n : Nat) : Bool := decide (n ≤ 131070) || decide (n ≤ Config.nmax)

/-- `n` stream bytes fit `OUT`: `n ≤ OUTCAP`, which is at least 135166, the level-0 length of 131070 bytes. -/
def outFits (n : Nat) : Bool := decide (n ≤ 135166) || decide (n ≤ Config.outCap)

/-- The index of a cell that exists: it is below the buffer's capacity. -/
def inCapacity (buf : Buffer) (i : Nat) : Bool :=
  match buf with
  | .hex => decide (i < Config.hexCap)
  | .dur => decide (i < Config.durCap)
  | .pay => payFits (i + 1)
  | .out => outFits (i + 1)

/-- One element of a buffer as a 32-bit value, zeros in the added bits. -/
def Memory.readCell (m : Memory) (buf : Buffer) (i : Nat) : Option Word :=
  match buf with
  | .hex => (cellRead m.hex i).map (·.setWidth 32)
  | .dur => (cellRead m.dur i).map (·.setWidth 32)
  | .pay => (cellRead m.pay i).map (·.setWidth 32)
  | .out => (cellRead m.out i).map (·.setWidth 32)

/-- `DUR[i..) <- vs`. -/
def State.writeDur (s : State) (i : Nat) (vs : List Half) : State :=
  { s with mem := { s.mem with dur := cellsWrite s.mem.dur i vs } }

/-- `PAY[i..) <- bs`. -/
def State.writePay (s : State) (i : Nat) (bs : List Byte) : State :=
  { s with mem := { s.mem with pay := cellsWrite s.mem.pay i bs } }

/-- `append(OUT, b)` for each byte in turn: `OUT[OUTLEN] <- b; OUTLEN <- OUTLEN + 1` (00_scope.md R13). -/
def State.appendOut (s : State) (bs : List Byte) : State :=
  { s with
    mem := { s.mem with out := cellsWrite s.mem.out s.outlen.toNat bs }
    outlen := s.outlen + BitVec.ofNat 32 bs.length }

/-- A length register's value from a count. -/
def lenWord (n : Nat) : Word := BitVec.ofNat 32 n

/-! ## Host registers -/

/-- What a host read of register `n` returns: `CMD` and numbers 7 and above read 0 (10_state.md R22). -/
def State.readReg (s : State) (n : Nat) : Word :=
  match n with
  | 1 => s.status
  | 2 => s.erroff
  | 3 => s.hexlen
  | 4 => s.durlen
  | 5 => s.paylen
  | 6 => s.outlen
  | _ => 0

/-- A host write of a register other than `CMD`: 3, 4 and 5 take the value, the others ignore it (10_state.md R22). -/
def State.writeReg (s : State) (n : Nat) (v : Word) : State :=
  match n with
  | 3 => { s with hexlen := v }
  | 4 => { s with durlen := v }
  | 5 => { s with paylen := v }
  | _ => s

/-! ## Per-call state after a command -/

/-- The per-call state a command leaves behind, which the spec does not specify (10_state.md R40, U6): free values, each
register within its width (log entry 6). -/
def leftover (d : Nat) : Work :=
  let position := fun r => Config.freeReg r d % 2 ^ Config.positionBits
  { level := BitVec.ofNat 2 (Config.freeReg 0 d)
    pos := position 1
    bstart := position 2
    next := position 3
    sufcnt := Config.freeReg 4 d % 2 ^ 14
    clen := Config.freeReg 5 d % 2 ^ 9
    cdist := Config.freeReg 6 d % 2 ^ 14
    pathcnt := position 7
    cur := Config.freeReg 8 d % 2 ^ 16
    declen := Config.freeReg 9 d % 2 ^ 16
    suf := ((Config.freeSuf d).take Config.window).map (· % 2 ^ Config.positionBits)
    dp := ((Config.freeDp d).take (Config.nmax + 1)).map fun r =>
      r.map fun x => { cost := x.1 % 2 ^ Config.costBits, len := x.2.1 % 2 ^ 9, dist := x.2.2 % 2 ^ 14 }
    path := ((Config.freePath d).take Config.nmax).map fun x =>
      { pos := x.1 % 2 ^ Config.positionBits, len := x.2.1 % 2 ^ 9, dist := x.2.2 % 2 ^ 14 }
    durIdx := Config.freeReg 10 d % 2 ^ 16
    packIdx := Config.freeReg 11 d % 2 ^ 16 }

/-- A command that may write `OUT` (47_commands.md R248). -/
def writesOut : Running → Bool
  | .compress | .convert => true
  | .decode | .filter | .pack => false

/-- The end of a command: the per-call state is unspecified from here on (10_state.md R40), and, after a command that may
write `OUT`, so are the cells of `OUT` at or above `OUTLEN` (R33). -/
def State.endCall (c : Running) (s : State) : State :=
  { s with
    work := leftover s.freeCtr
    freeCtr := s.freeCtr + 1
    outDraw := if writesOut c then s.freeCtr + 1 else s.outDraw }

/-! ## Taking a fault and leaving it -/

/-- The output lengths of the running command become 0 (60_exceptions.md R270). -/
def zeroOutputs : Running → State → State
  | .decode, s => { s with durlen := 0 }
  | .filter, s => { s with durlen := 0 }
  | .pack, s => { s with paylen := 0 }
  | .compress, s => { s with outlen := 0 }
  | .convert, s => { s with durlen := 0, paylen := 0, outlen := 0 }

/-- The record of a fault: `ERROFF`, `CAUSE`, `ERR` and `STATE` (60_exceptions.md R270). -/
def State.recordFault (s : State) (r : Raise) : State :=
  { s with status := faultStatus r.cause, erroff := BitVec.ofNat 32 r.off }

/-- `FAULT_ENTRY`: taking a fault. With no running command (a reserved word) no length is written (60_exceptions.md R270).
-/
def faultEntry (running : Option Running) (r : Raise) (s : State) : State :=
  match running with
  | none => s.recordFault r
  | some c => (zeroOutputs c s).recordFault r

/-- Leaving the fault state: `STATUS` and `ERROFF` become 0, nothing else changes (47_commands.md R246). -/
def State.clearFault (s : State) : State := { s with status := 0, erroff := 0 }

/-! ## The frame of a command -/

/-- What the body of a command comes to: done, with a result handed to the next stage; or a `raise`; or a cell that nothing
has written. -/
inductive Body (α : Type) where
  | done (a : α) (s : State)
  | raised (r : Raise) (s : State)
  | unwritten (buf : Buffer) (i : Nat)

/-- `CHECK_LEN` (47_commands.md R249): the input length register of the command exceeds its buffer's capacity. -/
def checkLen (c : Running) (s : State) : Option Raise :=
  match c with
  | .decode | .convert =>
    if Config.hexCap < s.hexlen.toNat then some { cause := .lenRange, off := s.hexlen.toNat } else none
  | .filter | .pack =>
    if Config.durCap < s.durlen.toNat then some { cause := .lenRange, off := s.durlen.toNat } else none
  | .compress =>
    if payFits s.paylen.toNat then none else some { cause := .lenRange, off := s.paylen.toNat }

/-- What `DISPATCH` does with a command that is neither `CLEAR` nor reserved (47_commands.md R245): ignored in `FAULT`; else
`BUSY`, the length check, the body, `READY`; a `raise` performs fault entry. The whole is one step (70_reset_and_hazards.md
R294), and the per-call state is unspecified after it. -/
def runCommand {α : Type} (c : Running) (body : State → Body α) (s : State) : Host.Outcome State Fault Refusal :=
  if s.inFault then .next s
  else
    let b := s.setState stBusy
    match checkLen c b with
    | some r => .next ((faultEntry (some c) r b).endCall c)
    | none =>
      match body b with
      | .done _ t => .next ((t.setState stReady).endCall c)
      | .raised r t => .next ((faultEntry (some c) r t).endCall c)
      | .unwritten buf i => .refused (.unwrittenCell buf i)

/-- What one record handed alone comes to: done, a `raise`, or a cell past a buffer's capacity. -/
inductive RecordStep where
  | done (s : State)
  | raised (r : Raise)
  | noCell (buf : Buffer) (i : Nat)

/-- What a record handed alone does (log entries 10 and 12): nothing in `FAULT`, where the engine runs nothing; a `raise`
performs fault entry of the command the record belongs to, which ends the call. -/
def runRecord (c : Running) (op : State → RecordStep) (s : State) : Host.Outcome State Fault Refusal :=
  if s.inFault then .next s
  else
    match op s with
    | .done t => .next t
    | .raised r => .next ((faultEntry (some c) r s).endCall c)
    | .noCell buf i => .fault (.noSuchCell buf i)

end Sys2Proof.Machine
end

