-- ==== Sys2Proof/Machine/FilterPack.lean ====
section
/-!
DEFINITION. The PulseFilter and the PayloadPacker (41_filter_pack.md): `FILTER`, `PACK`, and the record `PAYDUR` handed
alone. `durs` is the list `DUR[0..DURLEN)`.
-/

namespace Sys2Proof.Machine

/-- The durations `FILTER` keeps, in their order (41_filter_pack.md R140). -/
def keepDurations (durs : List Half) : List Half := durs.filter (· != Config.sentinel)

/-- The body of `FILTER`: the kept durations at the start of `DUR`, the cells above as they were (41_filter_pack.md R140).
-/
def filterBody (durs : List Half) (s : State) : Body (List Half) :=
  let kept := keepDurations durs
  .done kept { s.writeDur 0 kept with durlen := lenWord kept.length }

/-- One step of `PACK`'s loop: the two bytes of duration number `k`, low byte first, or the `raise` on a sentinel
(41_filter_pack.md R141). -/
def packDuration (k : Nat) (v : Half) : Except Raise (List Byte) :=
  if v = Config.sentinel then .error { cause := .packSentinel, off := k } else .ok [lowByte v, highByte v]

/-- The loop of `PACK` from duration number `k` on: the bytes produced, and the `raise` that ended it if one did. -/
def packLoop : Nat → List Half → List Byte × Option Raise
  | _, [] => ([], none)
  | k, v :: rest =>
    match packDuration k v with
    | .error r => ([], some r)
    | .ok bs =>
      let more := packLoop (k + 1) rest
      (bs ++ more.1, more.2)

/-- The body of `PACK` over the durations, its result the payload (41_filter_pack.md R141). -/
def packBody (durs : List Half) (s : State) : Body (List Byte) :=
  let packed := packLoop 0 durs
  let s1 := ({ s with paylen := 0 } : State).writePay 0 packed.1
  match packed.2 with
  | some r => .raised r s1
  | none => .done packed.1 { s1 with paylen := lenWord (2 * durs.length) }

/-- `FILTER` with the launch premise: every duration below `DURLEN` has been written (20_memory.md R71). -/
def filterCommand (s : State) : Body (List Half) :=
  match cellsRead s.mem.dur 0 s.durlen.toNat with
  | .error i => .unwritten .dur i
  | .ok durs => filterBody durs s

/-- `PACK` with the launch premise (20_memory.md R71). -/
def packCommand (s : State) : Body (List Byte) :=
  match cellsRead s.mem.dur 0 s.durlen.toNat with
  | .error i => .unwritten .dur i
  | .ok durs => packBody durs s

/-! ## Meanings -/

/-- `FILTER` (41_filter_pack.md R140). -/
def execFilter (s : State) : Host.Outcome State Fault Refusal := runCommand .filter filterCommand s

/-- `PACK` (41_filter_pack.md R141). -/
def execPack (s : State) : Host.Outcome State Fault Refusal := runCommand .pack packCommand s

/-- `PAYDUR`: one step of `PACK`'s loop, at duration number `k` (41_filter_pack.md R141; log entry 12). -/
def execPaydur (l h : Byte) (s : State) : Host.Outcome State Fault Refusal :=
  runRecord .pack (fun s =>
    match packDuration s.work.packIdx (paydurValue l h) with
    | .error r => .raised r
    | .ok bs =>
      if inCapacity .pay (2 * s.work.packIdx + 1) then
        .done { s.writePay (2 * s.work.packIdx) bs with work := { s.work with packIdx := s.work.packIdx + 1 } }
      else .noCell .pay (2 * s.work.packIdx + 1)) s

end Sys2Proof.Machine
end

