-- ==== Sys2Proof/WellFormed.lean ====
section
/-!
DEFINITION. When an instruction is well formed: its operands are in the ranges 30_encoding.md gives its format.
-/

namespace Sys2Proof

/-- A value written to `CMD` is reserved (30_encoding.md R93): a bit above bit 7, bits [3:2] not 0, an operation code
6 to 15, or level bits on an operation code 0 to 3. -/
def isReserved (w : Word) : Bool :=
  w.extractLsb' 8 24 != 0 || w.extractLsb' 2 2 != 0 || decide (6 ≤ (w.extractLsb' 4 4).toNat)
    || (decide ((w.extractLsb' 4 4).toNat ≤ 3) && w.extractLsb' 0 2 != 0)

/-- The operand ranges of each format (30_encoding.md R93, R95, R99 to R102). -/
def Instr.wf : Instr → Bool
  | .clear | .decode | .filter | .pack => true
  | .compressL0 | .compressL1 | .compressL2 | .compressL3 => true
  | .convertL0 | .convertL1 | .convertL2 | .convertL3 => true
  | .cmdReserved w => isReserved w
  | .frameHdr _ _ => true
  | .tick1 t => t != 0
  | .tick3 _ _ => true
  | .paydur l h => !(l == 0xFF && h == 0xFF)
  | .lit data => decide (1 ≤ data.length) && decide (data.length ≤ 32)
  | .matchs l _ _ => l != 0 && l != 7
  | .matchl _ _ _ => true

end Sys2Proof
end

