-- ==== Sys2Proof/Decode.lean ====
section
/-!
DEFINITION. The decoder, total on any bytes, and the encoder, both from the encoding tables of 30_encoding.md. A command is
the 32-bit value written to `CMD`; as bytes it is taken low byte first (log entry 14).
-/

namespace Sys2Proof

/-! ## Decoding -/

/-- The command a 32-bit value written to `CMD` gives (30_encoding.md R91 to R93); every value gives one. -/
def decodeCmd (w : Word) : Instr :=
  if isReserved w then .cmdReserved w
  else match (w.extractLsb' 4 4).toNat, (w.extractLsb' 0 2).toNat with
    | 0, _ => .clear
    | 1, _ => .decode
    | 2, _ => .filter
    | 3, _ => .pack
    | 4, 0 => .compressL0
    | 4, 1 => .compressL1
    | 4, 2 => .compressL2
    | 4, _ => .compressL3
    | 5, 0 => .convertL0
    | 5, 1 => .convertL1
    | 5, 2 => .convertL2
    | 5, _ => .convertL3
    | _, _ => .cmdReserved w

/-- One tick unit: the first byte alone tells `TICK1` from `TICK3` (30_encoding.md R97). -/
def decodeUnit : List Byte → Option (Instr × List Byte)
  | [] => none
  | b :: rest =>
    if b = 0 then
      match rest with
      | h :: l :: rest' => some (.tick3 h l, rest')
      | _ => none
    else some (.tick1 b, rest)

/-- One payload element; the sentinel 65535 is no `PAYDUR` (30_encoding.md R99). -/
def decodePaydur : List Byte → Option (Instr × List Byte)
  | l :: h :: rest => if l = 0xFF ∧ h = 0xFF then none else some (.paydur l h, rest)
  | _ => none

/-- One stream block: the three top bits of the header tell its format (30_encoding.md R103). -/
def decodeBlock : List Byte → Option (Instr × List Byte)
  | [] => none
  | b :: rest =>
    let top := b.extractLsb' 5 3
    let low := b.extractLsb' 0 5
    if top = 0 then
      if b.toNat + 1 ≤ rest.length then some (.lit (rest.take (b.toNat + 1)), rest.drop (b.toNat + 1)) else none
    else if top = 7 then
      match rest with
      | c :: e :: rest' => some (.matchl low c e, rest')
      | _ => none
    else
      match rest with
      | e :: rest' => some (.matchs top low e, rest')
      | _ => none

/-- The decoder: the instruction at the front of the bytes of a space, and the bytes after it; `none` where no encoding of
that space stands there. -/
def decode : Space → List Byte → Option (Instr × List Byte)
  | .cmd, b0 :: b1 :: b2 :: b3 :: rest => some (decodeCmd (b3 ++ b2 ++ b1 ++ b0), rest)
  | .cmd, _ => none
  | .header, _ :: _ :: l :: h :: rest => some (.frameHdr l h, rest)
  | .header, _ => none
  | .unit, bs => decodeUnit bs
  | .payload, bs => decodePaydur bs
  | .stream, bs => decodeBlock bs

/-! ## Encoding -/

/-- The four bytes of a value written to `CMD`, low byte first. -/
def wordBytes (w : Word) : List Byte :=
  [w.extractLsb' 0 8, w.extractLsb' 8 8, w.extractLsb' 16 8, w.extractLsb' 24 8]

/-- The encoder: the bytes of an instruction, first byte first (30_encoding.md R92 to R102). The two unexamined bytes of a
`FRAMEHDR` are written 0 (log entry 15). -/
def encode : Instr → List Byte
  | .clear => wordBytes 0x00
  | .decode => wordBytes 0x10
  | .filter => wordBytes 0x20
  | .pack => wordBytes 0x30
  | .compressL0 => wordBytes 0x40
  | .compressL1 => wordBytes 0x41
  | .compressL2 => wordBytes 0x42
  | .compressL3 => wordBytes 0x43
  | .convertL0 => wordBytes 0x50
  | .convertL1 => wordBytes 0x51
  | .convertL2 => wordBytes 0x52
  | .convertL3 => wordBytes 0x53
  | .cmdReserved w => wordBytes w
  | .frameHdr l h => [0, 0, l, h]
  | .tick1 t => [t]
  | .tick3 h l => [0, h, l]
  | .paydur l h => [l, h]
  | .lit data => BitVec.ofNat 8 (data.length - 1) :: data
  | .matchs l h e => [(l ++ h : Byte), e]
  | .matchl h c e => [((7 : BitVec 3) ++ h : Byte), c, e]

/-- The space an instruction's encoding stands in. -/
def spaceOf : Instr → Space
  | .clear | .decode | .filter | .pack => .cmd
  | .compressL0 | .compressL1 | .compressL2 | .compressL3 => .cmd
  | .convertL0 | .convertL1 | .convertL2 | .convertL3 => .cmd
  | .cmdReserved _ => .cmd
  | .frameHdr _ _ => .header
  | .tick1 _ | .tick3 _ _ => .unit
  | .paydur _ _ => .payload
  | .lit _ | .matchs _ _ _ | .matchl _ _ _ => .stream

/-! ## Words of the opcode table -/

/-- The bits spec/opcode_table.json gives an instruction's row. -/
def rowBits : Instr → Nat
  | .clear | .decode | .filter | .pack => 32
  | .compressL0 | .compressL1 | .compressL2 | .compressL3 => 32
  | .convertL0 | .convertL1 | .convertL2 | .convertL3 => 32
  | .cmdReserved _ => 32
  | .frameHdr _ _ => 32
  | .tick1 _ => 8
  | .tick3 _ _ => 24
  | .paydur _ _ => 16
  | .lit _ => 8
  | .matchs _ _ _ => 16
  | .matchl _ _ _ => 24

/-- The bytes of a table word: byte `k` is bits `8k+7..8k`; every bit at or above `nbits` is 0, up to the 33 bytes of the
longest instruction. -/
def tableBytes (nbits w : Nat) : List Byte :=
  (List.range 33).map fun k => BitVec.ofNat 8 (w % 2 ^ nbits / 256 ^ k)

/-- The spaces whose rows have `nbits` bits, in the order they are tried: a table word does not say its space
(log entry 13). -/
def tableSpaces (nbits : Nat) : List Space :=
  if nbits = 8 then [.stream, .unit]
  else if nbits = 16 then [.stream, .payload]
  else if nbits = 24 then [.stream, .unit]
  else if nbits = 32 then [.cmd]
  else []

/-- The first space of the list that reads a row of `nbits` bits from the bytes, with the instruction it reads. -/
def firstReading (nbits : Nat) (bytes : List Byte) : List Space → Option (Space × Instr)
  | [] => none
  | sp :: sps =>
    match decode sp bytes with
    | some (i, _) => if rowBits i = nbits then some (sp, i) else firstReading nbits bytes sps
    | none => firstReading nbits bytes sps

/-- The instruction a word of the opcode table stands for, as the decoder reads it. -/
def decodeTableWord (nbits w : Nat) : Option Instr :=
  (firstReading nbits (tableBytes nbits w) (tableSpaces nbits)).map Prod.snd

end Sys2Proof
end

