-- ==== Sys2Proof/Machine/Emit.lean ====
section
/-!
DEFINITION. Block serialisation (42_block_emitter.md): the emitters, and the records `LIT`, `MATCHS` and `MATCHL` handed
alone. `pay` is the list `PAY[0..N)`. An emitter's result is the bytes it appends to `OUT`; the parse never reads `OUT`
(20_memory.md R76), so the bytes of a command are appended in order once they are known (log entry 23).
-/

namespace Sys2Proof.Machine

/-- The block of a literal piece, when its length is in range (42_block_emitter.md R150). -/
def literalBytes (data : List Byte) (p : Nat) : Except Raise (List Byte) :=
  if data.length < 1 ∨ Config.litMax < data.length then .error { cause := .litRange, off := p } else .ok (encode (.lit data))

/-- `EMIT_LIT_PIECE(a, k)` (42_block_emitter.md R150). -/
def emitLitPiece (pay : List Byte) (a k : Nat) : Except Raise (List Byte) := literalBytes ((pay.drop a).take k) a

/-- The match record of a length and a distance in range: short up to length 8, long from 9 (42_block_emitter.md R152). -/
def matchRecord (len dist : Nat) : Instr :=
  let h := BitVec.ofNat 5 ((dist - 1) / 256)
  let e := BitVec.ofNat 8 (dist - 1)
  if 7 ≤ len - 2 then .matchl h (BitVec.ofNat 8 (len - 2 - 7)) e else .matchs (BitVec.ofNat 3 (len - 2)) h e

/-- `EMIT_MATCH(len, dist, p)`: the distance is checked first, both checks before any byte (42_block_emitter.md R152). -/
def emitMatch (len dist p : Nat) : Except Raise (List Byte) :=
  if dist < Config.distMin ∨ Config.distMax < dist then .error { cause := .distRange, off := p }
  else if len < Config.lenMin ∨ Config.lenMax < len then .error { cause := .mlenRange, off := p }
  else .ok (encode (matchRecord len dist))

/-- `EMIT_LIT_RUN(a, b)`: pieces of 32 bytes from the start, the last one the rest (42_block_emitter.md R151). The bytes
emitted, and the `raise` that ended it if one did; the first argument bounds the pieces. -/
def emitLitRun (pay : List Byte) : Nat → Nat → Nat → List Byte × Option Raise
  | 0, _, _ => ([], none)
  | n + 1, a, b =>
    if a < b then
      match emitLitPiece pay a (min Config.litMax (b - a)) with
      | .error r => ([], some r)
      | .ok bs =>
        let rest := emitLitRun pay n (a + min Config.litMax (b - a)) b
        (bs ++ rest.1, rest.2)
    else ([], none)

/-- A call the parse makes to the emitters: `EMIT_LIT_RUN(a, b)` or `EMIT_MATCH(len, dist, p)`. -/
inductive EmitCall where
  | litRun (a b : Nat)
  | matchAt (len dist p : Nat)
deriving DecidableEq, Repr

/-- What one call emits. -/
def emitCall (pay : List Byte) : EmitCall → List Byte × Option Raise
  | .litRun a b => emitLitRun pay (b - a) a b
  | .matchAt len dist p =>
    match emitMatch len dist p with
    | .error r => ([], some r)
    | .ok bs => (bs, none)

/-- What the calls of a parse emit, in order (42_block_emitter.md R153); the first `raise` ends it. -/
def emitCalls (pay : List Byte) : List EmitCall → List Byte × Option Raise
  | [] => ([], none)
  | c :: cs =>
    let one := emitCall pay c
    match one.2 with
    | some r => (one.1, some r)
    | none =>
      let rest := emitCalls pay cs
      (one.1 ++ rest.1, rest.2)

/-- The bytes of a block handed alone, appended to `OUT` where they fit its capacity. -/
def appendBlock (bytes : Except Raise (List Byte)) (s : State) : RecordStep :=
  match bytes with
  | .error r => .raised r
  | .ok bs =>
    if outFits (s.outlen.toNat + bs.length) then .done (s.appendOut bs) else .noCell .out Config.outCap

/-! ## Meanings -/

/-- `LIT`: the block of a piece at the start of the pending run (42_block_emitter.md R150; log entry 12). -/
def execLit (data : List Byte) (s : State) : Host.Outcome State Fault Refusal :=
  runRecord .compress (fun s => appendBlock (literalBytes data s.work.bstart) s) s

/-- `MATCHS`: the match of length `lll + 2` at the cursor (42_block_emitter.md R152; log entry 12). -/
def execMatchs (l : BitVec 3) (h : BitVec 5) (e : Byte) (s : State) : Host.Outcome State Fault Refusal :=
  runRecord .compress (fun s => appendBlock (emitMatch (matchsLen l) (matchDist h e) s.work.pos) s) s

/-- `MATCHL`: the match of length `c + 9` at the cursor (42_block_emitter.md R152; log entry 12). -/
def execMatchl (h : BitVec 5) (c e : Byte) (s : State) : Host.Outcome State Fault Refusal :=
  runRecord .compress (fun s => appendBlock (emitMatch (matchlLen c) (matchDist h e) s.work.pos) s) s

end Sys2Proof.Machine
end

