-- ==== Sys2Proof/Machine/Finder.lean ====
section
/-!
DEFINITION. The MatchFinder (43_match_finder.md R170 to R172). `pay` is the list `PAY[0..N)`; the payload bytes from a
position on are `pay.drop` of it.
-/

namespace Sys2Proof.Machine

/-- How many leading bytes two byte lists share, at most a limit. -/
def commonPrefix : Nat → List Byte → List Byte → Nat
  | n + 1, x :: xs, y :: ys => if x = y then commonPrefix n xs ys + 1 else 0
  | _, _, _ => 0

/-- `MATCH_LEN(s)` at cursor `pos` (43_match_finder.md R170). -/
def matchLen (pay : List Byte) (pos s : Nat) : Nat :=
  commonPrefix (min Config.lenMax (pay.length - pos)) (pay.drop pos) (pay.drop s)

/-- The scan of `FIRST_MATCH` over distances in the order given: the first that gives a match of at least 3
(43_match_finder.md R171). -/
def scanDistances (pay : List Byte) (pos : Nat) : List Nat → Nat × Nat
  | [] => (0, 0)
  | dist :: rest =>
    if Config.lenMin ≤ matchLen pay pos (pos - dist) then (matchLen pay pos (pos - dist), dist)
    else scanDistances pay pos rest

/-- `FIRST_MATCH`: the search of level 1 (43_match_finder.md R171). -/
def firstMatch (pay : List Byte) (w : Work) : Work :=
  let found := scanDistances pay w.pos (List.range' 1 (min w.pos Config.window))
  { w with clen := found.1, cdist := found.2 }

/-- One candidate of `BEST_OF`: taken when there is none yet, when it is longer, or as long and nearer
(43_match_finder.md R172). -/
def betterOf (pay : List Byte) (w : Work) (dist : Nat) : Work :=
  let m := matchLen pay w.pos (w.pos - dist)
  if w.cdist = 0 ∨ w.clen < m ∨ (m = w.clen ∧ dist < w.cdist) then { w with clen := m, cdist := dist } else w

/-- `BEST_OF(cands)` (43_match_finder.md R172). -/
def bestOf (pay : List Byte) (w : Work) (cands : List Nat) : Work :=
  cands.foldl (betterOf pay) { w with clen := 0, cdist := 0 }

end Sys2Proof.Machine
end

