-- ==== Sys2Proof/Machine/Suffix.lean ====
section
/-!
DEFINITION. The SuffixIndex (44_suffix_index.md R185 to R192) and the search of levels 2 and 3 (43_match_finder.md R173).
-/

namespace Sys2Proof.Machine

/-- The order of byte lists: unsigned bytes from the front, a proper prefix first (44_suffix_index.md R185). -/
def bytesLess : List Byte → List Byte → Bool
  | _, [] => false
  | [], _ :: _ => true
  | x :: xs, y :: ys => if x.toNat < y.toNat then true else if y.toNat < x.toNat then false else bytesLess xs ys

/-- `SUF_LESS(a, b)`: the suffix of `a` sorts before the suffix of `b` (44_suffix_index.md R185). -/
def sufLess (pay : List Byte) (a b : Nat) : Bool := bytesLess (pay.drop a) (pay.drop b)

/-- The entries of the index: `SUF[0..SUFCNT)`. -/
def Work.entries (w : Work) : List Nat := w.suf.take w.sufcnt

/-- `SUF_FIND(p)`: how many entries sort before `p` (44_suffix_index.md R187). -/
def sufFind (pay : List Byte) (w : Work) (p : Nat) : Nat := w.entries.countP fun q => sufLess pay q p

/-- `SUF_INSERT(p)` (44_suffix_index.md R188). -/
def sufInsert (pay : List Byte) (w : Work) (p : Nat) : Work :=
  { w with suf := w.entries.insertIdx (sufFind pay w p) p, sufcnt := w.sufcnt + 1 }

/-- `SUF_EVICT(p)` (44_suffix_index.md R189). -/
def sufEvict (pay : List Byte) (w : Work) (p : Nat) : Work :=
  { w with suf := w.entries.eraseIdx (sufFind pay w p), sufcnt := w.sufcnt - 1 }

/-- `SUF_INIT`: the cells need not be cleared (44_suffix_index.md R192). -/
def sufInit (w : Work) : Work := { w with sufcnt := 0, next := 0 }

/-- One iteration of `ADVANCE_TO`: eviction first when the index is full, then the insertion (44_suffix_index.md R190). -/
def advanceOne (pay : List Byte) (w : Work) : Work :=
  let v := if w.sufcnt = Config.window then sufEvict pay w (w.next - Config.window) else w
  { sufInsert pay v v.next with next := v.next + 1 }

/-- `n` iterations of `ADVANCE_TO`. -/
def advanceTimes (pay : List Byte) : Nat → Work → Work
  | 0, w => w
  | n + 1, w => advanceTimes pay n (advanceOne pay w)

/-- `ADVANCE_TO(pos)`: the loop runs while `NEXT ≤ pos`, `NEXT` rising by 1 each time (44_suffix_index.md R190). -/
def advanceTo (pay : List Byte) (pos : Nat) (w : Work) : Work := advanceTimes pay (pos + 1 - w.next) w

/-- A neighbour as a distance, when the distance is valid (44_suffix_index.md R191). -/
def neighborDistance (pos : Nat) (q : Option Nat) : List Nat :=
  match q with
  | none => []
  | some p => if 1 ≤ pos - p ∧ pos - p ≤ Config.window then [pos - p] else []

/-- `NEIGHBORS(pos)`: successor first, then predecessor (44_suffix_index.md R191). -/
def neighbors (pay : List Byte) (pos : Nat) (w : Work) : List Nat :=
  let r := sufFind pay w pos
  let pred := if 1 ≤ r then w.entries[r - 1]? else none
  neighborDistance pos w.entries[r + 1]? ++ neighborDistance pos pred

/-- `BEST_MATCH`: the search of levels 2 and 3 (43_match_finder.md R173). -/
def bestMatch (pay : List Byte) (w : Work) : Work :=
  let v := advanceTo pay w.pos w
  bestOf pay v (neighbors pay v.pos v)

end Sys2Proof.Machine
end

