-- ==== Sys2Proof/Machine/Compress.lean ====
section
/-!
DEFINITION. The Compressor at levels 0, 1 and 2 (45_greedy_compress.md) and what all levels share. A parse takes the payload
and the per-call state and gives the calls it makes to the emitters, in order.
-/

namespace Sys2Proof.Machine

/-- Level 0: the whole payload is one literal run (45_greedy_compress.md R206). -/
def parseL0 (pay : List Byte) (_ : Work) : List EmitCall := [.litRun 0 pay.length]

/-- The loop of `GREEDY` (45_greedy_compress.md R209); the first argument bounds the iterations, each of which advances
`POS`. -/
def greedyLoop (search : Work → Work) (n : Nat) : Nat → Work → List EmitCall
  | 0, w => [.litRun w.bstart w.pos]
  | fuel + 1, w =>
    if w.pos < n then
      let v := search w
      if v.cdist ≠ 0 ∧ Config.lenMin ≤ v.clen then
        .litRun v.bstart v.pos :: .matchAt v.clen v.cdist v.pos
          :: greedyLoop search n fuel { v with pos := v.pos + v.clen, bstart := v.pos + v.clen }
      else greedyLoop search n fuel { v with pos := v.pos + 1 }
    else [.litRun w.bstart w.pos]

/-- `GREEDY(search)` (45_greedy_compress.md R209). -/
def greedy (search : Work → Work) (pay : List Byte) (w : Work) : List EmitCall :=
  greedyLoop search pay.length pay.length { w with pos := 0, bstart := 0 }

/-- Level 1 (45_greedy_compress.md R207). -/
def parseL1 (pay : List Byte) (w : Work) : List EmitCall := greedy (firstMatch pay) pay w

/-- Level 2 (45_greedy_compress.md R208). -/
def parseL2 (pay : List Byte) (w : Work) : List EmitCall := greedy (bestMatch pay) pay (sufInit w)

/-- The body of `COMPRESS.L<v>` over the payload: `LEVEL` and `OUTLEN` set, the parse of the level, its blocks appended
(45_greedy_compress.md R205). -/
def compressBody (v : BitVec 2) (parse : List Byte → Work → List EmitCall) (pay : List Byte) (s : State) : Body Unit :=
  let w := { s.work with level := v }
  let emitted := emitCalls pay (parse pay w)
  let t := ({ s with work := w, outlen := 0 } : State).appendOut emitted.1
  match emitted.2 with
  | some r => .raised r t
  | none => .done () t

/-- `COMPRESS.L<v>` with the launch premise: every payload byte below `PAYLEN` has been written (20_memory.md R71). -/
def compressCommand (v : BitVec 2) (parse : List Byte → Work → List EmitCall) (s : State) : Body Unit :=
  match cellsRead s.mem.pay 0 s.paylen.toNat with
  | .error i => .unwritten .pay i
  | .ok pay => compressBody v parse pay s

/-! ## Meanings -/

/-- `COMPRESS.L0` (45_greedy_compress.md R206). -/
def execCompressL0 (s : State) : Host.Outcome State Fault Refusal := runCommand .compress (compressCommand 0 parseL0) s

/-- `COMPRESS.L1` (45_greedy_compress.md R207). -/
def execCompressL1 (s : State) : Host.Outcome State Fault Refusal := runCommand .compress (compressCommand 1 parseL1) s

/-- `COMPRESS.L2` (45_greedy_compress.md R208). -/
def execCompressL2 (s : State) : Host.Outcome State Fault Refusal := runCommand .compress (compressCommand 2 parseL2) s

end Sys2Proof.Machine
end

