-- ==== Sys2Proof/Machine/Optimal.lean ====
section
/-!
DEFINITION. The OptimalParser (46_optimal_parser.md): level 3.
-/

namespace Sys2Proof.Machine

/-- The cost of a literal edge (46_optimal_parser.md R226). -/
def literalCost (l : Nat) : Nat := 1 + l

/-- The cost of a match edge: 2 up to length 8, 3 from length 9 (46_optimal_parser.md R226). -/
def matchCost (l : Nat) : Nat := if l < 9 then 2 else 3

/-- `DP[p]`. -/
def Work.dpAt (w : Work) (p : Nat) : Option DpRec := w.dp.getD p none

/-- An edge offered by `RELAX`: its cost, length and distance. -/
structure Edge where
  cost : Nat
  len : Nat
  dist : Nat
deriving DecidableEq, Repr

/-- `RELAX(c, l, dist)`: the edge replaces the record only when it is strictly cheaper (46_optimal_parser.md R227). -/
def relax (w : Work) (e : Edge) : Work :=
  match w.dpAt w.pos with
  | none => w
  | some here =>
    let offer : DpRec := { cost := here.cost + e.cost, len := e.len, dist := e.dist }
    match w.dpAt (w.pos + e.len) with
    | none => { w with dp := w.dp.set (w.pos + e.len) (some offer) }
    | some there =>
      if offer.cost < there.cost then { w with dp := w.dp.set (w.pos + e.len) (some offer) } else w

/-- The edges offered at the cursor, in order: the match edges by length, then the literal edges by length
(46_optimal_parser.md R228). -/
def edgesAt (n : Nat) (w : Work) : List Edge :=
  (if w.cdist = 0 then []
    else (List.range' 3 (w.clen + 1 - 3)).map fun l => { cost := matchCost l, len := l, dist := w.cdist })
  ++ (List.range' 1 (min Config.litMax (n - w.pos))).map fun l => { cost := literalCost l, len := l, dist := 0 }

/-- One position of the forward pass (46_optimal_parser.md R228). -/
def forwardAt (pay : List Byte) (w : Work) (p : Nat) : Work :=
  let v := bestMatch pay { w with pos := p }
  (edgesAt pay.length v).foldl relax v

/-- `DP_FORWARD` (46_optimal_parser.md R228). -/
def dpForward (pay : List Byte) (w : Work) : Work :=
  (List.range pay.length).foldl (forwardAt pay)
    { w with dp := some { cost := 0, len := 0, dist := 0 } :: List.replicate pay.length none }

/-- The loop of `DP_BACK` (46_optimal_parser.md R229); the first argument bounds the edges, each of which lowers `POS`. -/
def backLoop : Nat → Work → Work
  | 0, w => w
  | fuel + 1, w =>
    if 0 < w.pos then
      match w.dpAt w.pos with
      | none => w
      | some r =>
        let p := w.pos - r.len
        backLoop fuel
          { w with
            pos := p
            path := w.path.take w.pathcnt ++ [{ pos := p, len := r.len, dist := r.dist }]
            pathcnt := w.pathcnt + 1 }
    else w

/-- `DP_BACK` (46_optimal_parser.md R229). -/
def dpBack (n : Nat) (w : Work) : Work := backLoop n { w with pathcnt := 0, pos := n }

/-- The call `DP_EMIT` makes for one edge (46_optimal_parser.md R230). -/
def edgeCall (r : PathRec) : EmitCall :=
  if r.dist = 0 then .litRun r.pos (r.pos + r.len) else .matchAt r.len r.dist r.pos

/-- `DP_EMIT`: the path in the reverse of the order `DP_BACK` pushed (46_optimal_parser.md R230). -/
def dpEmit (w : Work) : List EmitCall := (w.path.take w.pathcnt).reverse.map edgeCall

/-- Level 3 (46_optimal_parser.md R225). -/
def parseL3 (pay : List Byte) (w : Work) : List EmitCall :=
  dpEmit (dpBack pay.length (dpForward pay (sufInit w)))

/-! ## Meaning -/

/-- `COMPRESS.L3` (46_optimal_parser.md R225). -/
def execCompressL3 (s : State) : Host.Outcome State Fault Refusal := runCommand .compress (compressCommand 3 parseL3) s

end Sys2Proof.Machine
end

