-- ==== Sys2Proof/Machine/Timing.lean ====
section
/-!
DEFINITION. The TimingDecoder (40_timing_decoder.md): `DECODE`, and the records `FRAMEHDR`, `TICK1` and `TICK3` handed
alone. `hex` is the list `HEX[0..HEXLEN)`.
-/

namespace Sys2Proof.Machine

/-- `TICK_TO_DUR(t)`: `ceil(t * 8192 / 269)`, exact (40_timing_decoder.md R123). -/
def tickToDur (t : Nat) : Nat := (t * Config.unitDen + 268) / Config.unitNum

/-- `FBYTE(i)`: frame byte `i` from two characters, high nibble first (40_timing_decoder.md R125). -/
def fbyte (hex : List Byte) (i : Nat) : Except Raise Byte :=
  match nib (hex.getD (2 * i) 0) with
  | none => .error { cause := .badHex, off := 2 * i }
  | some a =>
    match nib (hex.getD (2 * i + 1) 0) with
    | none => .error { cause := .badHex, off := 2 * i + 1 }
    | some b => .ok (a ++ b)

/-- The last two statements of `DEC_HEADER`: `DECLEN` from the header's length bytes, checked against the string
(40_timing_decoder.md R121). -/
def headerDeclen (hexlen : Nat) (l h : Byte) : Except Raise Nat :=
  if hexlen < 8 + 2 * headerLen l h then .error { cause := .lenOverrun, off := hexlen } else .ok (headerLen l h)

/-- `DEC_HEADER` (40_timing_decoder.md R121). -/
def decHeader (hex : List Byte) (hexlen : Nat) : Except Raise Nat :=
  if hexlen < 8 then .error { cause := .shortFrame, off := hexlen }
  else
    match fbyte hex 2 with
    | .error r => .error r
    | .ok l =>
      match fbyte hex 3 with
      | .error r => .error r
      | .ok h => headerDeclen hexlen l h

/-- The Duration of a raw count `t` at the unit that starts at region offset `cur`, with what `DUR_OVF` says of a value
above 65535 (40_timing_decoder.md R122, R124). -/
def unitDur (ovf : Config.DurOvf) (cur t : Nat) : Except Raise Half :=
  if 65535 < tickToDur t then
    match ovf with
    | .fault => .error { cause := .durRange, off := 2 * (4 + cur) }
    | .saturate => .ok Config.sentinel
  else .ok (BitVec.ofNat 16 (tickToDur t))

/-- The check of `DEC_UNIT` on an escape marker at region offset `cur` (40_timing_decoder.md R122). -/
def escapeCheck (cur declen : Nat) : Except Raise Unit :=
  if declen < cur + 3 then .error { cause := .truncEscape, off := 2 * (4 + cur) } else .ok ()

/-- `DEC_UNIT`: the raw count of the unit at the cursor and the bytes it takes (40_timing_decoder.md R122, up to the
conversion). -/
def unitCount (hex : List Byte) (cur declen : Nat) : Except Raise (Nat × Nat) :=
  match fbyte hex (4 + cur) with
  | .error r => .error r
  | .ok b =>
    if b = 0 then
      match escapeCheck cur declen with
      | .error r => .error r
      | .ok _ =>
        match fbyte hex (4 + cur + 1) with
        | .error r => .error r
        | .ok h =>
          match fbyte hex (4 + cur + 2) with
          | .error r => .error r
          | .ok l => .ok (tick3Count h l, 3)
    else .ok (tick1Count b, 1)

/-- `DEC_UNIT`: one unit decoded and converted, the cursor advanced (40_timing_decoder.md R122). -/
def decUnit (ovf : Config.DurOvf) (hex : List Byte) (w : Work) : Except Raise (Half × Work) :=
  match unitCount hex w.cur w.declen with
  | .error r => .error r
  | .ok (t, used) =>
    match unitDur ovf w.cur t with
    | .error r => .error r
    | .ok v => .ok (v, { w with cur := w.cur + used, durIdx := w.durIdx + 1 })

/-- The loop of `DECODE` (40_timing_decoder.md R120, R129): the durations produced, and the `raise` that ended it if one
did. The first argument bounds the iterations; `DECLEN` is enough, since each takes at least one byte. -/
def decLoop (ovf : Config.DurOvf) (hex : List Byte) : Nat → Work → List Half × Option Raise
  | 0, _ => ([], none)
  | n + 1, w =>
    if w.cur < w.declen then
      match decUnit ovf hex w with
      | .error r => ([], some r)
      | .ok (v, w') =>
        let rest := decLoop ovf hex n w'
        (v :: rest.1, rest.2)
    else ([], none)

/-- The body of `DECODE` over the characters `HEX[0..HEXLEN)`, its result the durations (40_timing_decoder.md R120). -/
def decodeBody (ovf : Config.DurOvf) (hex : List Byte) (s : State) : Body (List Half) :=
  let s0 := { s with durlen := 0 }
  match decHeader hex s.hexlen.toNat with
  | .error r => .raised r s0
  | .ok declen =>
    let w := { s.work with declen := declen, cur := 0, durIdx := 0 }
    let durs := decLoop ovf hex declen w
    let s1 := s0.writeDur 0 durs.1
    match durs.2 with
    | some r => .raised r s1
    | none => .done durs.1 { s1 with durlen := lenWord durs.1.length }

/-- `DECODE` with the launch premise: every character below `HEXLEN` has been written (20_memory.md R71). -/
def decodeCommand (s : State) : Body (List Half) :=
  match cellsRead s.mem.hex 0 s.hexlen.toNat with
  | .error i => .unwritten .hex i
  | .ok hex => decodeBody Config.durOvf hex s

/-- One unit handed alone: its Duration goes to `DUR[n]`, `n` and `CUR` advance (40_timing_decoder.md R120, R122). -/
def placeUnit (ovf : Config.DurOvf) (t used : Nat) (s : State) : RecordStep :=
  match unitDur ovf s.work.cur t with
  | .error r => .raised r
  | .ok v =>
    if inCapacity .dur s.work.durIdx then
      .done { s.writeDur s.work.durIdx [v] with
        work := { s.work with cur := s.work.cur + used, durIdx := s.work.durIdx + 1 } }
    else .noCell .dur s.work.durIdx

/-! ## Meanings -/

/-- `DECODE` (40_timing_decoder.md R120). -/
def execDecode (s : State) : Host.Outcome State Fault Refusal := runCommand .decode decodeCommand s

/-- `FRAMEHDR`: `DEC_HEADER` with the header's bytes given (40_timing_decoder.md R121; log entry 12). -/
def execFrameHdr (l h : Byte) (s : State) : Host.Outcome State Fault Refusal :=
  runRecord .decode (fun s =>
    if s.hexlen.toNat < 8 then .raised { cause := .shortFrame, off := s.hexlen.toNat }
    else
      match headerDeclen s.hexlen.toNat l h with
      | .error r => .raised r
      | .ok declen => .done { s with work := { s.work with declen := declen } }) s

/-- `TICK1`: `DEC_UNIT` on a one-byte unit (40_timing_decoder.md R122; log entry 12). -/
def execTick1 (t : Byte) (s : State) : Host.Outcome State Fault Refusal :=
  runRecord .decode (placeUnit Config.durOvf (tick1Count t) 1) s

/-- `TICK3`: `DEC_UNIT` on an escaped unit (40_timing_decoder.md R122; log entry 12). -/
def execTick3 (h l : Byte) (s : State) : Host.Outcome State Fault Refusal :=
  runRecord .decode (fun s =>
    match escapeCheck s.work.cur s.work.declen with
    | .error r => .raised r
    | .ok _ => placeUnit Config.durOvf (tick3Count h l) 3 s) s

end Sys2Proof.Machine
end

