-- ==== Sys2Proof/Machine/Command.lean ====
section
/-!
DEFINITION. `CLEAR`, the reserved words and the composite command `CONVERT` (47_commands.md).
-/

namespace Sys2Proof.Machine

/-- The next stage of a composite command: on the result of the stage before, or not at all after a `raise`. -/
def thenStage {α β : Type} (b : Body α) (next : α → State → Body β) : Body β :=
  match b with
  | .done a s => next a s
  | .raised r s => .raised r s
  | .unwritten buf i => .unwritten buf i

/-- The body of `CONVERT.L<v>` over the characters: the four bodies in order, each on the list the one before produced
(47_commands.md R247). -/
def convertBody (ovf : Config.DurOvf) (v : BitVec 2) (parse : List Byte → Work → List EmitCall) (hex : List Byte)
    (s : State) : Body Unit :=
  let s0 := { s with durlen := 0, paylen := 0, outlen := 0, work := { s.work with level := v } }
  thenStage (decodeBody ovf hex s0) fun durs s1 =>
    thenStage (filterBody durs s1) fun kept s2 =>
      thenStage (packBody kept s2) fun pay s3 => compressBody v parse pay s3

/-- `CONVERT.L<v>` with the launch premise of `DECODE` (20_memory.md R71, 70_reset_and_hazards.md R292). -/
def convertCommand (v : BitVec 2) (parse : List Byte → Work → List EmitCall) (s : State) : Body Unit :=
  match cellsRead s.mem.hex 0 s.hexlen.toNat with
  | .error i => .unwritten .hex i
  | .ok hex => convertBody Config.durOvf v parse hex s

/-! ## Meanings -/

/-- `CLEAR`: the way out of `FAULT`; in `READY` it changes nothing the registers did not already hold (47_commands.md
R246). -/
def execClear (s : State) : Host.Outcome State Fault Refusal := .next s.clearFault

/-- `CMD.reserved`: ignored in `FAULT`, else `CmdError(ILLEGAL_CMD, w)` with no length written (47_commands.md R245). -/
def execCmdReserved (w : Word) (s : State) : Host.Outcome State Fault Refusal :=
  if s.inFault then .next s else .next (faultEntry none { cause := .illegalCmd, off := w.toNat } s)

/-- `CONVERT.L0` (47_commands.md R247). -/
def execConvertL0 (s : State) : Host.Outcome State Fault Refusal := runCommand .convert (convertCommand 0 parseL0) s

/-- `CONVERT.L1` (47_commands.md R247). -/
def execConvertL1 (s : State) : Host.Outcome State Fault Refusal := runCommand .convert (convertCommand 1 parseL1) s

/-- `CONVERT.L2` (47_commands.md R247). -/
def execConvertL2 (s : State) : Host.Outcome State Fault Refusal := runCommand .convert (convertCommand 2 parseL2) s

/-- `CONVERT.L3` (47_commands.md R247). -/
def execConvertL3 (s : State) : Host.Outcome State Fault Refusal := runCommand .convert (convertCommand 3 parseL3) s

end Sys2Proof.Machine
end

