-- ==== Sys2Proof/Machine/Dispatch.lean ====
section
/-!
DEFINITION. The dispatch of an instruction to its meaning: one arm per constructor.
-/

namespace Sys2Proof.Machine

/-- The meaning of an instruction: for a command, what the write of its word to `CMD` does (47_commands.md R245). -/
def exec (i : Instr) (s : State) : Host.Outcome State Fault Refusal :=
  match i with
  | .clear => Sys2Proof.Machine.execClear s
  | .decode => Sys2Proof.Machine.execDecode s
  | .filter => Sys2Proof.Machine.execFilter s
  | .pack => Sys2Proof.Machine.execPack s
  | .compressL0 => Sys2Proof.Machine.execCompressL0 s
  | .compressL1 => Sys2Proof.Machine.execCompressL1 s
  | .compressL2 => Sys2Proof.Machine.execCompressL2 s
  | .compressL3 => Sys2Proof.Machine.execCompressL3 s
  | .convertL0 => Sys2Proof.Machine.execConvertL0 s
  | .convertL1 => Sys2Proof.Machine.execConvertL1 s
  | .convertL2 => Sys2Proof.Machine.execConvertL2 s
  | .convertL3 => Sys2Proof.Machine.execConvertL3 s
  | .cmdReserved w => Sys2Proof.Machine.execCmdReserved w s
  | .frameHdr l h => Sys2Proof.Machine.execFrameHdr l h s
  | .tick1 t => Sys2Proof.Machine.execTick1 t s
  | .tick3 h l => Sys2Proof.Machine.execTick3 h l s
  | .paydur l h => Sys2Proof.Machine.execPaydur l h s
  | .lit data => Sys2Proof.Machine.execLit data s
  | .matchs l h e => Sys2Proof.Machine.execMatchs l h e s
  | .matchl h c e => Sys2Proof.Machine.execMatchl h c e s

end Sys2Proof.Machine
end

