-- ==== Sys2Proof/Machine/Port.lean ====
section
/-!
DEFINITION. What each access of the host does (47_commands.md R254, 20_memory.md R60), the reset event
(70_reset_and_hazards.md R290), and the model's own record port (log entry 10).
-/

namespace Sys2Proof.Machine

/-- A host read returns a value. -/
def State.returned (s : State) (v : Word) : State := { s with hostRead := v }

/-- A host write of one element of `HEX`, `DUR` or `PAY`; an index past the capacity names no cell (U14; log entry 17). -/
def hostWrite (buf : Buffer) (i : Nat) (m : Memory) (s : State) : Host.Outcome State Fault Refusal :=
  if inCapacity buf i then .next { s with mem := m } else .fault (.noSuchCell buf i)

/-- A host read of one element, which changes nothing but what the host has read (20_memory.md R69). An `OUT` cell at or
above `OUTLEN` holds an unspecified value, a free one that stays until `OUT` is rewritten (10_state.md R33; log entry 8);
any other cell that nothing has written is refused (70_reset_and_hazards.md R291). -/
def hostReadCell (buf : Buffer) (i : Nat) (s : State) : Host.Outcome State Fault Refusal :=
  if inCapacity buf i then
    if buf = .out ∧ s.outlen.toNat ≤ i then
      .next (s.returned ((Config.freeOut i s.outDraw).setWidth 32))
    else
      match s.mem.readCell buf i with
      | some v => .next (s.returned v)
      | none => .refused (.unwrittenCell buf i)
  else .fault (.noSuchCell buf i)

/-- The reset event: every piece of the block's state as after reset; what is still to come from the host stays, and the
cells of `OUT` are unspecified anew (70_reset_and_hazards.md R290; log entry 21). -/
def State.afterReset (s : State) : State :=
  { State.reset with
    inbox := s.inbox, hostRead := s.hostRead, freeCtr := s.freeCtr + 1, outDraw := s.freeCtr + 1 }

/-- A record handed alone: decoded in its space and run. A command is no record: it is given by a write to `CMD` only. -/
def runRecordBytes (sp : Space) (bytes : List Byte) (s : State) : Host.Outcome State Fault Refusal :=
  if sp = .cmd then .refused (.notARecord .cmd)
  else
    match decode sp bytes with
    | some (i, _) => exec i s
    | none => .refused (.notARecord sp)

/-- What one access does; a write to register 0 is a command (47_commands.md R245). -/
def access (a : Access) (s : State) : Host.Outcome State Fault Refusal :=
  match a with
  | .writeReg n v => if n = 0 then exec (decodeCmd v) s else .next (s.writeReg n v)
  | .readReg n => .next (s.returned (s.readReg n))
  | .writeHex i c => hostWrite .hex i { s.mem with hex := cellWrite s.mem.hex i c } s
  | .writeDur i v => hostWrite .dur i { s.mem with dur := cellWrite s.mem.dur i v } s
  | .writePay i b => hostWrite .pay i { s.mem with pay := cellWrite s.mem.pay i b } s
  | .writeOut _ _ => .next s
  | .readCell buf i => hostReadCell buf i s
  | .reset => .next s.afterReset
  | .record sp bytes => runRecordBytes sp bytes s

/-- The access by which a word of the opcode table reaches the engine: a command word is written to `CMD`, a record is
handed alone (log entry 9). -/
def tableAccess (nbits w : Nat) : Access :=
  match firstReading nbits (tableBytes nbits w) (tableSpaces nbits) with
  | some (.cmd, _) => .writeReg 0 (BitVec.ofNat 32 w)
  | some (sp, _) => .record sp (tableBytes nbits w)
  | none => .record .stream []

end Sys2Proof.Machine
end

