-- ==== Sys2Proof/Machine/Step.lean ====
section
/-!
DEFINITION. One step: the front of the inbox takes effect; with nothing pending the block idles (60_exceptions.md R276).
-/

namespace Sys2Proof.Machine

/-- One step of the machine: one access of the host, a command being one (70_reset_and_hazards.md R294). -/
def step (s : State) : Host.Outcome State Fault Refusal :=
  match s.inbox with
  | [] => .next s
  | a :: rest => access a { s with inbox := rest }

/-- The state whose next step fetches and runs the instruction of an opcode-table word: the access that brings it stands at
the front of the inbox (log entry 9). -/
def State.withFetchWord (s : State) (nbits w : Nat) : State := { s with inbox := tableAccess nbits w :: s.inbox }

end Sys2Proof.Machine
end

