-- ==== Sys2Proof/Safety.lean ====
section
/-!
DEFINITION. The terms claims are stated in: what the host sees, the invariant of the machine, what a stream stands for, and
how a string spells a capture. Nothing here is part of the machine.
-/

namespace Sys2Proof.Safety

open Sys2Proof.Machine

/-! ## What the host sees (10_state.md R21, R42) -/

/-- The host-visible state: the registers and the four buffers. -/
structure HostView where
  status : Word
  erroff : Word
  hexlen : Word
  durlen : Word
  paylen : Word
  outlen : Word
  mem : Memory
deriving DecidableEq, Repr

/-- The host-visible part of a state. -/
def view (s : State) : HostView :=
  { status := s.status, erroff := s.erroff, hexlen := s.hexlen, durlen := s.durlen, paylen := s.paylen,
    outlen := s.outlen, mem := s.mem }

/-- An outcome as the host sees it. -/
def viewOutcome : Host.Outcome State Fault Refusal → Host.Outcome HostView Fault Refusal
  | .next s => .next (view s)
  | .fault r => .fault r
  | .refused r => .refused r

/-! ## The invariant -/

/-- Every cause of a fault. -/
def allCauses : List Cause :=
  [.shortFrame, .lenOverrun, .badHex, .truncEscape, .durRange, .litRange, .mlenRange, .distRange, .packSentinel,
    .illegalCmd, .lenRange]

/-- `STATUS` holds 0 or the record of one of the causes (10_state.md R24, 60_exceptions.md R271). -/
def legalStatus (w : Word) : Prop := w = 0 ∨ ∃ c ∈ allCauses, w = faultStatus c

/-- The invariant of the machine: the memory is canonical, `STATUS` is legal, and `ERROFF` is 0 whenever no fault is
recorded (60_exceptions.md R265). -/
def Inv (s : State) : Prop := s.mem.wf ∧ legalStatus s.status ∧ (s.inFault = false → s.erroff = 0)

/-- Every cell that has been written lies below its buffer's capacity (20_memory.md R70). -/
def InBounds (s : State) : Prop :=
  (∀ c ∈ s.mem.hex, c.1 < Config.hexCap) ∧ (∀ c ∈ s.mem.dur, c.1 < Config.durCap)
    ∧ (∀ c ∈ s.mem.pay, c.1 < Config.nmax) ∧ (∀ c ∈ s.mem.out, c.1 < Config.outCap)

/-! ## What a stream stands for (42_block_emitter.md R154, 95_test_vectors.md section 6) -/

/-- A match's bytes appended one at a time, each `dist` places before the end of the content at that moment. -/
def copyBack : Nat → Nat → List Byte → Option (List Byte)
  | 0, _, content => some content
  | n + 1, dist, content =>
    if dist ≤ content.length then
      match content[content.length - dist]? with
      | some b => copyBack n dist (content ++ [b])
      | none => none
    else none

/-- The content after one block. -/
def expandBlock (content : List Byte) : Instr → Option (List Byte)
  | .lit data => some (content ++ data)
  | .matchs l h e => copyBack (matchsLen l) (matchDist h e) content
  | .matchl h c e => copyBack (matchlLen c) (matchDist h e) content
  | _ => none

/-- The content after a list of blocks. -/
def expandBlocks : List Byte → List Instr → Option (List Byte)
  | content, [] => some content
  | content, i :: is =>
    match expandBlock content i with
    | some more => expandBlocks more is
    | none => none

/-- The blocks a stream is made of; the first argument bounds their number. -/
def splitBlocks : Nat → List Byte → Option (List Instr)
  | _, [] => some []
  | 0, _ :: _ => none
  | n + 1, bs =>
    match decodeBlock bs with
    | some (i, rest) => (splitBlocks n rest).map (i :: ·)
    | none => none

/-- The blocks of a stream. -/
def blocksOf (bs : List Byte) : Option (List Instr) := splitBlocks bs.length bs

/-- `EXPAND`: the bytes a stream stands for. -/
def expand (bs : List Byte) : Option (List Byte) :=
  match blocksOf bs with
  | some is => expandBlocks [] is
  | none => none

/-- The distance of a match block. -/
def blockDistance : Instr → Option Nat
  | .matchs _ h e => some (matchDist h e)
  | .matchl h _ e => some (matchDist h e)
  | _ => none

/-- The payload bytes a block stands for. -/
def blockLength : Instr → Nat
  | .lit data => data.length
  | .matchs l _ _ => matchsLen l
  | .matchl _ c _ => matchlLen c
  | _ => 0

/-- Each block of a list with the payload position it starts at. -/
def placed : Nat → List Instr → List (Nat × Instr)
  | _, [] => []
  | p, i :: is => (p, i) :: placed (p + blockLength i) is

/-! ## What a greedy parse chooses (45_greedy_compress.md R207 to R209) -/

/-- What `FIRST_MATCH` leaves at a position: `(CLEN, CDIST)`. -/
def nearestCandidate (pay : List Byte) (p : Nat) : Nat × Nat :=
  let v := firstMatch pay { Work.reset with pos := p }
  (v.clen, v.cdist)

/-- What `BEST_MATCH` leaves at a position, the index advanced to it from empty. -/
def indexCandidate (pay : List Byte) (p : Nat) : Nat × Nat :=
  let v := bestMatch pay (sufInit { Work.reset with pos := p })
  (v.clen, v.cdist)

/-- A parse takes the candidates of a search: a match block is the candidate at the position it starts at, and at every byte
of a literal block the search gives none of length 3 or more. -/
def TakesCandidates (candidate : Nat → Nat × Nat) (blocks : List Instr) : Prop :=
  ∀ x ∈ placed 0 blocks,
    match blockDistance x.2 with
    | some d => candidate x.1 = (blockLength x.2, d)
    | none => ∀ k, k < blockLength x.2 → (candidate (x.1 + k)).1 < 3

/-- Literal runs are cut from their start: of two literal blocks in a row the first has 32 bytes (42_block_emitter.md
R151). -/
def PiecesFull (blocks : List Instr) : Prop :=
  ∀ i b c, blocks[i]? = some b → blocks[i + 1]? = some c → blockDistance b = none → blockDistance c = none →
    blockLength b = 32

/-! ## What a length of a match is (43_match_finder.md R170) -/

/-- `m` is the number of leading bytes on which the payload from `pos` on and from `s` on agree, cut off at 264 and at the end
of the payload. -/
def IsMatchLen (pay : List Byte) (pos s m : Nat) : Prop :=
  m ≤ 264 ∧ pos + m ≤ pay.length ∧ (∀ k, k < m → pay[pos + k]? = pay[s + k]?)
    ∧ (m = 264 ∨ pos + m = pay.length ∨ pay[pos + m]? ≠ pay[s + m]?)

/-! ## The graph of the optimal parser (46_optimal_parser.md R226, R228) -/

/-- An edge of the graph that leaves a position: a literal of 1 to 32 bytes inside the payload, or a match of any length from
3 up to that of the position's candidate, at its distance. -/
def IsEdge (pay : List Byte) (q : Nat) (e : Edge) : Prop :=
  q < pay.length
    ∧ ((e.dist = 0 ∧ 1 ≤ e.len ∧ e.len ≤ min 32 (pay.length - q) ∧ e.cost = 1 + e.len)
      ∨ (e.dist ≠ 0 ∧ e.dist = (indexCandidate pay q).2 ∧ 3 ≤ e.len ∧ e.len ≤ (indexCandidate pay q).1
        ∧ e.cost = if e.len < 9 then 2 else 3))

/-- A path of edges from position 0 to a position, with the sum of its costs. -/
inductive PathTo (pay : List Byte) : Nat → Nat → Prop where
  | start : PathTo pay 0 0
  | step {q c : Nat} (e : Edge) : PathTo pay q c → IsEdge pay q e → PathTo pay (q + e.len) (c + e.cost)

/-- A cost is that of a path to a position and of no dearer one. -/
def LeastCost (pay : List Byte) (p c : Nat) : Prop := PathTo pay p c ∧ ∀ c', PathTo pay p c' → c ≤ c'

/-! ## How a string spells a capture (30_encoding.md R94 to R98) -/

/-- A string spells a list of bytes: two characters a byte, high nibble first. -/
def spells : List Byte → List Byte → Bool
  | [], [] => true
  | a :: b :: chars, x :: xs =>
    nib a == some (x.extractLsb' 4 4) && nib b == some (x.extractLsb' 0 4) && spells chars xs
  | _, _ => false

/-- A string is a capture whose pulse-data region is a list of bytes: four characters that nothing reads, the length low
byte first, the region, and any characters after it. -/
def IsCapture (hex region : List Byte) : Prop :=
  ∃ pre lenChars regionChars rest : List Byte, ∃ l h : Byte,
    hex = pre ++ lenChars ++ regionChars ++ rest ∧ pre.length = 4 ∧ spells lenChars [l, h] = true
      ∧ l.toNat + 256 * h.toNat = region.length ∧ spells regionChars region = true

/-- A string is a frame with a declared region length that it holds, whose region begins with a list of bytes; nothing is said
of the characters after those. -/
def RegionStarts (hex start : List Byte) (declen : Nat) : Prop :=
  ∃ pre lenChars startChars rest : List Byte, ∃ l h : Byte,
    hex = pre ++ lenChars ++ startChars ++ rest ∧ pre.length = 4 ∧ spells lenChars [l, h] = true
      ∧ l.toNat + 256 * h.toNat = declen ∧ spells startChars start = true ∧ start.length ≤ declen
      ∧ 8 + 2 * declen ≤ hex.length

/-- The raw count of a tick unit; `none` for what is no well-formed unit. -/
def unitTicks : Instr → Option Nat
  | .tick1 t => if t = 0 then none else some t.toNat
  | .tick3 h l => some (h.toNat * 256 + l.toNat)
  | _ => none

/-- The Duration of a count that fits 16 bits: `ceil(t * 8192 / 269)`. -/
def durationOf (t : Nat) : Half := BitVec.ofNat 16 ((t * 8192 + 268) / 269)

/-- Units with their counts: every unit well formed, the counts in order. -/
def HaveTicks (units : List Instr) (ticks : List Nat) : Prop := units.map unitTicks = ticks.map some

/-- The bytes of a list of units. -/
def unitBytes (units : List Instr) : List Byte := units.flatMap encode

/-! ## Launch premises (70_reset_and_hazards.md R292) -/

/-- `HEX[0..HEXLEN)` is this list, every cell of it written. -/
def HexIs (s : State) (hex : List Byte) : Prop := cellsRead s.mem.hex 0 s.hexlen.toNat = .ok hex

/-- `DUR[0..DURLEN)` is this list. -/
def DurIs (s : State) (durs : List Half) : Prop := cellsRead s.mem.dur 0 s.durlen.toNat = .ok durs

/-- `PAY[0..PAYLEN)` is this list. -/
def PayIs (s : State) (pay : List Byte) : Prop := cellsRead s.mem.pay 0 s.paylen.toNat = .ok pay

/-- `OUT[0..OUTLEN)` is this list. -/
def OutIs (s : State) (out : List Byte) : Prop := cellsRead s.mem.out 0 s.outlen.toNat = .ok out

/-- The first cell below `n` that nothing has written. -/
def FirstUnwritten {w : Nat} (cells : Cells w) (n i : Nat) : Prop :=
  i < n ∧ cellRead cells i = none ∧ ∀ j, j < i → cellRead cells j ≠ none

/-- The premise under which the rules give a command a result: its input cells are written (a record has none). -/
def Launchable (s : State) : Instr → Prop
  | .decode | .convertL0 | .convertL1 | .convertL2 | .convertL3 => ∃ hex, HexIs s hex
  | .filter | .pack => ∃ durs, DurIs s durs
  | .compressL0 | .compressL1 | .compressL2 | .compressL3 => ∃ pay, PayIs s pay
  | _ => True

/-- `DECODE` records a fault with a `STATUS` value and an offset, no result, and only cells of `DUR` below `n` written. -/
def DecodeFaults (s : State) (n : Nat) (status : Word) (off : Nat) : Prop :=
  ∃ t, exec .decode s = .next t ∧ t.status = status ∧ t.erroff = BitVec.ofNat 32 off ∧ t.durlen = 0
    ∧ (∀ i, n ≤ i → cellRead t.mem.dur i = cellRead s.mem.dur i)
    ∧ t = { s with
        status := t.status, erroff := t.erroff, mem := { s.mem with dur := t.mem.dur }, durlen := t.durlen,
        work := t.work, freeCtr := t.freeCtr }

/-! ## The SuffixIndex (44_suffix_index.md R186) -/

/-- The invariants (a) to (d) of the SuffixIndex over a payload. -/
def IndexInv (pay : List Byte) (w : Work) : Prop :=
  w.sufcnt = min w.next 8192 ∧ w.entries.length = w.sufcnt
    ∧ w.entries.Pairwise (fun a b => sufLess pay a b = true)
    ∧ ∀ p, p ∈ w.entries ↔ w.next - 8192 ≤ p ∧ p < w.next

/-- A position in the window of a cursor: one of the 8191 before it (44_suffix_index.md R193). -/
def InWindow (pos q : Nat) : Prop := pos - 8191 ≤ q ∧ q < pos

/-- The successor of the cursor's suffix: the position of the window whose suffix sorts next after it. -/
def IsSuccessor (pay : List Byte) (pos q : Nat) : Prop :=
  InWindow pos q ∧ sufLess pay pos q = true
    ∧ ∀ r, InWindow pos r → sufLess pay pos r = true → r = q ∨ sufLess pay q r = true

/-- The predecessor of the cursor's suffix: the position of the window whose suffix sorts last before it. -/
def IsPredecessor (pay : List Byte) (pos q : Nat) : Prop :=
  InWindow pos q ∧ sufLess pay q pos = true
    ∧ ∀ r, InWindow pos r → sufLess pay r pos = true → r = q ∨ sufLess pay r q = true

/-- A lexicographic neighbour of the cursor's suffix (44_suffix_index.md R191). -/
def IsNeighbor (pay : List Byte) (pos q : Nat) : Prop := IsSuccessor pay pos q ∨ IsPredecessor pay pos q

end Sys2Proof.Safety
end

