-- ==== Sys2Proof/Certificates/Slice0/Obligations.lean ====
section
/-!
DEFINITION. The statements for the provers. A frame is said as `t = { s with … := t.… }`: every field that is not named
keeps its value. After a command the per-call state (`work`) and the counter of free values are unspecified (10_state.md
R40), so a command's frame names them; after one that may write `OUT`, so are the `OUT` cells at or above `OUTLEN` (R33),
which `outDraw` stands for.
-/

open Sys2Proof Sys2Proof.Machine Sys2Proof.Safety

/-! ## Encodings -/

/-- Decoding the bytes of a well-formed instruction gives it back, with whatever follows left over (30_encoding.md). -/
def Obligations.DecodeReadsBackEncode : Prop :=
  ∀ (i : Instr) (rest : List Byte), i.wf = true → decode (spaceOf i) (encode i ++ rest) = some (i, rest)

/-- The word of each command (30_encoding.md R92). -/
def Obligations.CommandWordsDecode : Prop :=
  decodeCmd 0x00 = .clear ∧ decodeCmd 0x10 = .decode ∧ decodeCmd 0x20 = .filter ∧ decodeCmd 0x30 = .pack
    ∧ decodeCmd 0x40 = .compressL0 ∧ decodeCmd 0x41 = .compressL1 ∧ decodeCmd 0x42 = .compressL2
    ∧ decodeCmd 0x43 = .compressL3 ∧ decodeCmd 0x50 = .convertL0 ∧ decodeCmd 0x51 = .convertL1
    ∧ decodeCmd 0x52 = .convertL2 ∧ decodeCmd 0x53 = .convertL3

/-- Exactly the values of 30_encoding.md R93 are reserved, and in `READY` one raises `CmdError(ILLEGAL_CMD, value)`, which
writes `STATUS` and `ERROFF` only (47_commands.md R245). -/
def Obligations.ReservedWordsRaiseIllegalCmd : Prop :=
  ∀ w : Word,
    ((w.toNat / 16 % 16 ≥ 6 ∨ w.toNat / 4 % 4 ≠ 0 ∨ (w.toNat / 16 % 16 ≤ 3 ∧ w.toNat % 4 ≠ 0) ∨ w.toNat / 256 ≠ 0)
        ↔ decodeCmd w = .cmdReserved w)
      ∧ (decodeCmd w = .cmdReserved w → ∀ s : State, s.inFault = false →
          exec (decodeCmd w) s = .next { s with status := 0x00000113, erroff := w })

/-- The meaning of a reserved word, in `READY` and in `FAULT` (47_commands.md R245). -/
def Obligations.ReservedWordMeaning : Prop :=
  ∀ (w : Word) (s : State),
    exec (.cmdReserved w) s = .next (if s.inFault then s else { s with status := 0x00000113, erroff := w })

/-- The three top bits of a stream header tell the format, and the fields are cut from it as the formats of 30_encoding.md
say. The spec's own inference: "Every one of the 256 byte values is the header of exactly one format". -/
def Obligations.StreamHeaderPartition : Prop :=
  ∀ (b : Byte) (rest : List Byte), 32 ≤ rest.length →
    (b.toNat < 0x20 → ∃ data more, decode .stream (b :: rest) = some (.lit data, more)
      ∧ data.length = b.toNat + 1 ∧ rest = data ++ more)
    ∧ (0x20 ≤ b.toNat → b.toNat < 0xE0 → ∃ l h e more, decode .stream (b :: rest) = some (.matchs l h e, more)
      ∧ l.toNat = b.toNat / 32 ∧ h.toNat = b.toNat % 32 ∧ rest = e :: more)
    ∧ (0xE0 ≤ b.toNat → ∃ h c e more, decode .stream (b :: rest) = some (.matchl h c e, more)
      ∧ h.toNat = b.toNat % 32 ∧ rest = c :: e :: more)

/-- `EMIT_MATCH`: the bytes for parameters in range, the distance checked before the length (42_block_emitter.md R152). -/
def Obligations.EmitMatchBytes : Prop :=
  ∀ len dist p : Nat,
    if dist < 1 ∨ 8192 < dist then emitMatch len dist p = .error { cause := .distRange, off := p }
    else if len < 3 ∨ 264 < len then emitMatch len dist p = .error { cause := .mlenRange, off := p }
    else ∃ bytes, emitMatch len dist p = .ok bytes ∧ bytes.map BitVec.toNat =
      (if len < 9 then [(len - 2) * 32 + (dist - 1) / 256, (dist - 1) % 256]
        else [7 * 32 + (dist - 1) / 256, len - 9, (dist - 1) % 256])

/-! ## Reset, steps and the host's accesses -/

/-- After reset every register reads 0 and the block is in `READY` (10_state.md R43). That every buffer cell is never written
is THE MODEL'S CHOICE for the cells R43 calls unspecified (log entry 4; 70_reset_and_hazards.md R291 advises it). -/
def Obligations.ResetLeavesRegistersZero : Prop :=
  (∀ n, State.reset.readReg n = 0) ∧ (∀ buf i, State.reset.mem.readCell buf i = none)
    ∧ statusState State.reset.status = stReady

/-- The state after reset meets the invariant. -/
def Obligations.ResetMeetsInvariant : Prop := Inv State.reset ∧ InBounds State.reset

/-- Every step keeps the invariant: the memory's canonical form, a legal `STATUS`, `ERROFF` 0 unless a fault is recorded. -/
def Obligations.StepKeepsInvariant : Prop := ∀ s t : State, Inv s → step s = .next t → Inv t

/-- Every step keeps every written cell below its buffer's capacity: in particular no level of `COMPRESS` writes past
`OUTCAP`. The spec's own inference: "Every engine access is within the logical length of its space" (20_memory.md). -/
def Obligations.StepKeepsCellsInBounds : Prop := ∀ s t : State, InBounds s → step s = .next t → InBounds t

/-- A step takes the front of the inbox: a value written to `CMD` runs the command it decodes to, a record handed alone runs
the instruction it decodes to, and with nothing pending the block idles. -/
def Obligations.StepRunsDecodedInstruction : Prop :=
  ∀ s : State,
    (s.inbox = [] → step s = .next s)
    ∧ (∀ w rest, s.inbox = .writeReg 0 w :: rest → step s = exec (decodeCmd w) { s with inbox := rest })
    ∧ (∀ sp bytes rest i more, s.inbox = .record sp bytes :: rest → sp ≠ .cmd → decode sp bytes = some (i, more) →
        step s = exec i { s with inbox := rest })

/-- THE MODEL'S CHOICE (log entries 9 and 13): the state made for an opcode-table word runs that word's instruction next. -/
def Obligations.FetchWordRunsInstruction : Prop :=
  ∀ (s : State) (nbits w : Nat) (i : Instr), decodeTableWord nbits w = some i → step (s.withFetchWord nbits w) = exec i s

/-- The register map: reads return the register, 0 for `CMD` and for numbers from 7 on; a write of `CMD` starts a command,
other writes take effect in 3, 4 and 5 only (10_state.md R22). -/
def Obligations.HostRegisterMap : Prop :=
  ∀ (s : State) (rest : List Access) (n : Nat),
    (∀ v, s.inbox = .writeReg 0 v :: rest → step s = exec (decodeCmd v) { s with inbox := rest }) ∧
    (s.inbox = .readReg n :: rest →
      step s = .next { s with inbox := rest, hostRead :=
        if n = 1 then s.status else if n = 2 then s.erroff else if n = 3 then s.hexlen else if n = 4 then s.durlen
        else if n = 5 then s.paylen else if n = 6 then s.outlen else 0 })
    ∧ (∀ v, s.inbox = .writeReg n v :: rest → n ≠ 0 →
      step s = .next { s with
        inbox := rest
        hexlen := if n = 3 then v else s.hexlen
        durlen := if n = 4 then v else s.durlen
        paylen := if n = 5 then v else s.paylen })

/-- A host write of a cell below the capacity is what the next host read of that cell returns, and no other cell changes; a
write to `OUT` has no effect; a read has no side effect, and read again at once the cell gives the same (20_memory.md R60,
R69, R73). -/
def Obligations.HostBufferAccess : Prop :=
  ∀ (s : State) (rest : List Access) (i : Nat),
    (∀ c, s.inbox = .writeHex i c :: .readCell .hex i :: rest → i < 131078 →
      ∃ t u, step s = .next t ∧ step t = .next u ∧ u.hostRead = c.setWidth 32
        ∧ u = { s with mem := { s.mem with hex := t.mem.hex }, inbox := rest, hostRead := u.hostRead }
        ∧ ∀ j, j ≠ i → cellRead t.mem.hex j = cellRead s.mem.hex j)
    ∧ (∀ v, s.inbox = .writeDur i v :: .readCell .dur i :: rest → i < 65535 →
      ∃ t u, step s = .next t ∧ step t = .next u ∧ u.hostRead = v.setWidth 32
        ∧ u = { s with mem := { s.mem with dur := t.mem.dur }, inbox := rest, hostRead := u.hostRead }
        ∧ ∀ j, j ≠ i → cellRead t.mem.dur j = cellRead s.mem.dur j)
    ∧ (∀ b, s.inbox = .writePay i b :: .readCell .pay i :: rest → i < Config.nmax →
      ∃ t u, step s = .next t ∧ step t = .next u ∧ u.hostRead = b.setWidth 32
        ∧ u = { s with mem := { s.mem with pay := t.mem.pay }, inbox := rest, hostRead := u.hostRead }
        ∧ ∀ j, j ≠ i → cellRead t.mem.pay j = cellRead s.mem.pay j)
    ∧ (∀ b, s.inbox = .writeOut i b :: rest → step s = .next { s with inbox := rest })
    ∧ (∀ b, s.inbox = .readCell .out i :: rest → i < Config.outCap → i < s.outlen.toNat →
        cellRead s.mem.out i = some b → step s = .next { s with inbox := rest, hostRead := b.setWidth 32 })
    ∧ (∀ buf t, s.inbox = .readCell buf i :: .readCell buf i :: rest → step s = .next t →
        t = { s with inbox := .readCell buf i :: rest, hostRead := t.hostRead }
          ∧ step t = .next { t with inbox := rest })

/-- THE MODEL'S CHOICE (log entries 4, 8 and 17): a host read of an index past a buffer's capacity faults; of a cell that
nothing has written it is refused, but for the cells of `OUT` at or above `OUTLEN`, whose value is free and is read with
nothing else changed. -/
def Obligations.HostReadStops : Prop :=
  ∀ (s : State) (rest : List Access) (buf : Buffer) (i : Nat), s.inbox = .readCell buf i :: rest →
    (capacity buf ≤ i → step s = .fault (.noSuchCell buf i))
    ∧ (i < capacity buf → ¬ (buf = .out ∧ s.outlen.toNat ≤ i) → s.mem.readCell buf i = none →
        step s = .refused (.unwrittenCell buf i))
    ∧ (i < capacity buf → buf = .out → s.outlen.toNat ≤ i → ∃ v, step s = .next { s with inbox := rest, hostRead := v })

/-- The reset event leaves the registers as after reset, whatever they were (70_reset_and_hazards.md R290, 10_state.md R43).
THE MODEL'S CHOICE are two clauses: the buffer cells, which R43 calls unspecified, are as never written (log entry 4), and
what the host has pending stays pending (log entry 21). -/
def Obligations.ResetEventRestoresReset : Prop :=
  ∀ (s : State) (rest : List Access), s.inbox = .reset :: rest →
    ∃ t, step s = .next t ∧ view t = view State.reset ∧ t.inbox = rest

/-! ## Faults -/

/-- `FAULT_ENTRY`: which lengths become 0, none when no command is running, and the record it makes (60_exceptions.md
R270). -/
def Obligations.FaultEntryRecords : Prop :=
  ∀ (c : Running) (r : Raise) (s : State),
    faultEntry none r s = { s with
      erroff := BitVec.ofNat 32 r.off
      status := BitVec.ofNat 32
        ((causeNumber r.cause).toNat * 256 + (kindNumber (causeKind r.cause)).toNat * 4 + 3) }
    ∧ faultEntry (some c) r s = { s with
      durlen := if c = .decode ∨ c = .filter ∨ c = .convert then 0 else s.durlen
      paylen := if c = .pack ∨ c = .convert then 0 else s.paylen
      outlen := if c = .compress ∨ c = .convert then 0 else s.outlen
      erroff := BitVec.ofNat 32 r.off
      status := BitVec.ofNat 32
        ((causeNumber r.cause).toNat * 256 + (kindNumber (causeKind r.cause)).toNat * 4 + 3) }

/-- The `STATUS` value of every cause (95_test_vectors.md section 2.11). -/
def Obligations.FaultStatusValues : Prop :=
  faultStatus .shortFrame = 0x107 ∧ faultStatus .lenOverrun = 0x207 ∧ faultStatus .badHex = 0x307
    ∧ faultStatus .truncEscape = 0x407 ∧ faultStatus .durRange = 0x507 ∧ faultStatus .litRange = 0x10B
    ∧ faultStatus .mlenRange = 0x20B ∧ faultStatus .distRange = 0x30B ∧ faultStatus .packSentinel = 0x10F
    ∧ faultStatus .illegalCmd = 0x113 ∧ faultStatus .lenRange = 0x213

/-- `CLEAR`: `STATUS` and `ERROFF` become 0 in either state, and nothing else changes; no other word leaves `FAULT`
(47_commands.md R246). -/
def Obligations.ClearAcknowledges : Prop :=
  ∀ s : State, exec .clear s = .next { s with status := 0, erroff := 0 }
    ∧ ∀ w : Word, s.inFault = true → decodeCmd w ≠ .clear → exec (decodeCmd w) s = .next s

/-- In `FAULT` only the word 0 acts: every other write to `CMD` changes nothing (47_commands.md R245). -/
def Obligations.FaultIgnoresCommands : Prop :=
  ∀ (s : State) (w : Word), s.inFault = true →
    exec (decodeCmd w) s = .next (if w = 0 then { s with status := 0, erroff := 0 } else s)

/-- Leaving the fault state: the write of 0 to `CMD` makes `STATUS` and `ERROFF` 0 and restores nothing else; the reset
event leaves it too; a step by any other access keeps the record (60_exceptions.md R272). -/
def Obligations.OnlyClearOrResetLeavesFault : Prop :=
  ∀ (s : State) (a : Access) (rest : List Access), s.inFault = true → s.inbox = a :: rest →
    (a = .writeReg 0 0 → step s = .next { s with inbox := rest, status := 0, erroff := 0 })
    ∧ (a = .reset → ∃ t, step s = .next t ∧ t.status = 0 ∧ t.erroff = 0)
    ∧ (a ≠ .writeReg 0 0 → a ≠ .reset → ∀ t, step s = .next t →
        t.inFault = true ∧ t.status = s.status ∧ t.erroff = s.erroff ∧ t.outlen = s.outlen)

/-- `CHECK_LEN`: a command whose input length exceeds its buffer's capacity raises `CmdError(LEN_RANGE)` with that length,
and its output lengths become 0; a length equal to the capacity is legal (47_commands.md R249). -/
def Obligations.LengthCheckFaults : Prop :=
  ∀ s : State, s.status = 0 →
    (s.hexlen.toNat ≤ 131078 → checkLen .decode s = none ∧ checkLen .convert s = none)
    ∧ (s.durlen.toNat ≤ 65535 → checkLen .filter s = none ∧ checkLen .pack s = none)
    ∧ (s.paylen.toNat ≤ Config.nmax → checkLen .compress s = none)
    ∧ (131078 < s.hexlen.toNat → ∃ t, exec .decode s = .next t
      ∧ view t = { view s with status := 0x213, erroff := s.hexlen, durlen := 0 })
    ∧ (131078 < s.hexlen.toNat → ∀ i ∈ [Instr.convertL0, .convertL1, .convertL2, .convertL3], ∃ t, exec i s = .next t
      ∧ view t = { view s with status := 0x213, erroff := s.hexlen, durlen := 0, paylen := 0, outlen := 0 })
    ∧ (65535 < s.durlen.toNat → ∃ t, exec .filter s = .next t
      ∧ view t = { view s with status := 0x213, erroff := s.durlen, durlen := 0 })
    ∧ (65535 < s.durlen.toNat → ∃ t, exec .pack s = .next t
      ∧ view t = { view s with status := 0x213, erroff := s.durlen, paylen := 0 })
    ∧ (Config.nmax < s.paylen.toNat → ∀ i ∈ [Instr.compressL0, .compressL1, .compressL2, .compressL3],
      ∃ t, exec i s = .next t ∧ view t = { view s with status := 0x213, erroff := s.paylen, outlen := 0 })

/-- A command whose input cells below its length have been written always ends, in `READY` or with a fault recorded. The
spec's own inference: "Every command terminates" (70_reset_and_hazards.md). -/
def Obligations.LaunchedCommandsEnd : Prop :=
  ∀ (i : Instr) (s : State), spaceOf i = .cmd → s.status = 0 → s.erroff = 0 → Launchable s i →
    ∃ t, exec i s = .next t ∧ (t.status = 0 ∧ t.erroff = 0 ∨ t.inFault = true ∧ legalStatus t.status)

/-- THE MODEL'S CHOICE (log entry 5; 20_memory.md R71 asks a model for it): a command within the capacity of its input, of
whose input a cell has never been written, is refused at its launch with the first such cell: `DECODE` and `CONVERT` of
`HEX`, `FILTER` and `PACK` of `DUR`, `COMPRESS` of `PAY`. -/
def Obligations.UnwrittenInputIsRefused : Prop :=
  ∀ (s : State) (i : Nat), s.status = 0 →
    (s.hexlen.toNat ≤ 131078 → FirstUnwritten s.mem.hex s.hexlen.toNat i →
      ∀ c ∈ [Instr.decode, .convertL0, .convertL1, .convertL2, .convertL3], exec c s = .refused (.unwrittenCell .hex i))
    ∧ (s.durlen.toNat ≤ 65535 → FirstUnwritten s.mem.dur s.durlen.toNat i →
      ∀ c ∈ [Instr.filter, .pack], exec c s = .refused (.unwrittenCell .dur i))
    ∧ (s.paylen.toNat ≤ Config.nmax → FirstUnwritten s.mem.pay s.paylen.toNat i →
      ∀ c ∈ [Instr.compressL0, .compressL1, .compressL2, .compressL3], exec c s = .refused (.unwrittenCell .pay i))

/-- The range faults of the emitters cannot happen: no command records `InvariantViolation`. The spec's own inference: "The
range faults cannot happen" (42_block_emitter.md). -/
def Obligations.NoCommandRecordsInvariantViolation : Prop :=
  ∀ (i : Instr) (s t : State), spaceOf i = .cmd → s.status = 0 → exec i s = .next t → statusErr t.status ≠ 2

/-! ## The TimingDecoder -/

/-- `TICK_TO_DUR(t)` is the least integer not below `t * 8192 / 269` (40_timing_decoder.md R123). -/
def Obligations.TickToDurIsCeiling : Prop :=
  ∀ t : Nat, t * 8192 ≤ tickToDur t * 269 ∧ ∀ v, t * 8192 ≤ v * 269 → tickToDur t ≤ v

/-- The ranges of the conversion: non-decreasing, in 16 bits exactly up to 2151, never 65535; so the sentinel is never
produced under `FAULT`, and under `SATURATE` exactly from 2152 on. The spec's own inference: "No `t` gives exactly 65535"
(40_timing_decoder.md). -/
def Obligations.TickToDurRanges : Prop :=
  (∀ t u, t ≤ u → tickToDur t ≤ tickToDur u) ∧ (∀ t, tickToDur t ≤ 65535 ↔ t ≤ 2151) ∧ (∀ t, tickToDur t ≠ 65535)
    ∧ tickToDur 1 = 31 ∧ tickToDur 255 = 7766 ∧ tickToDur 2151 = 65506 ∧ tickToDur 2152 = 65536
    ∧ tickToDur 65535 = 1995773
    ∧ (∀ cur t, unitDur .fault cur t ≠ .ok 65535) ∧ (∀ cur t, unitDur .saturate cur t = .ok 65535 ↔ 2152 ≤ t)

/-- `DECODE` of a capture: units whose counts fit give their Durations in order, whatever characters 0 to 3 and the
characters after the region are; nothing else the host sees changes (40_timing_decoder.md R120 to R123, R127). That the
`DUR` cells from the new length on keep their values is THE MODEL'S CHOICE (log entry 7). -/
def Obligations.DecodeOfCapture : Prop :=
  ∀ (s : State) (hex : List Byte) (units : List Instr) (ticks : List Nat),
    s.status = 0 → s.hexlen.toNat ≤ 131078 → HexIs s hex → IsCapture hex (unitBytes units) → HaveTicks units ticks →
    (∀ t ∈ ticks, t ≤ 2151) →
      ∃ t, exec .decode s = .next t ∧ t.durlen.toNat = units.length
        ∧ cellsRead t.mem.dur 0 units.length = .ok (ticks.map durationOf)
        ∧ (∀ i, units.length ≤ i → cellRead t.mem.dur i = cellRead s.mem.dur i)
        ∧ t = { s with mem := { s.mem with dur := t.mem.dur }, durlen := t.durlen, work := t.work, freeCtr := t.freeCtr }

/-- The faults of the header, in their order: a string too short, a character of the length field that is not hexadecimal
(the first of characters 4 to 7), a region that overruns the string (40_timing_decoder.md R121, 60_exceptions.md R267). -/
def Obligations.DecodeHeaderFaults : Prop :=
  ∀ (s : State) (hex : List Byte), s.status = 0 → s.hexlen.toNat ≤ 131078 → HexIs s hex →
    (hex.length < 8 → ∃ t, exec .decode s = .next t
      ∧ view t = { view s with status := 0x107, erroff := s.hexlen, durlen := 0 })
    ∧ (8 ≤ hex.length → ∀ k, 4 ≤ k → k < 8 → nib (hex.getD k 0) = none →
        (∀ j, 4 ≤ j → j < k → nib (hex.getD j 0) ≠ none) → ∃ t, exec .decode s = .next t
      ∧ view t = { view s with status := 0x307, erroff := BitVec.ofNat 32 k, durlen := 0 })
    ∧ (8 ≤ hex.length → ∀ l h : Byte, spells ((hex.drop 4).take 4) [l, h] = true →
        hex.length < 8 + 2 * (l.toNat + 256 * h.toNat) → ∃ t, exec .decode s = .next t
      ∧ view t = { view s with status := 0x207, erroff := s.hexlen, durlen := 0 })

/-- The faults of a unit, after units that fit (40_timing_decoder.md R122, R125, 60_exceptions.md R267): a character of its
first byte that is not hexadecimal, high one first; an escape marker with fewer than two bytes of the region after it,
whatever their characters are; the first character of the two data bytes that is not hexadecimal. The offset is the index
of the character, for `TRUNC_ESCAPE` of the marker. That the `DUR` cells from the number of units on keep their values is
THE MODEL'S CHOICE (log entry 7). -/
def Obligations.DecodeTruncatedEscape : Prop :=
  ∀ (s : State) (hex : List Byte) (units : List Instr) (ticks : List Nat) (declen start : Nat),
    s.status = 0 → s.hexlen.toNat ≤ 131078 → HexIs s hex → RegionStarts hex (unitBytes units) declen →
    HaveTicks units ticks → (∀ t ∈ ticks, t ≤ 2151) → (unitBytes units).length < declen →
    start = 8 + 2 * (unitBytes units).length →
      (nib (hex.getD start 0) = none → DecodeFaults s units.length 0x307 start)
      ∧ (nib (hex.getD start 0) ≠ none → nib (hex.getD (start + 1) 0) = none →
          DecodeFaults s units.length 0x307 (start + 1))
      ∧ (nib (hex.getD start 0) = some 0 → nib (hex.getD (start + 1) 0) = some 0 →
          (declen < (unitBytes units).length + 3 → DecodeFaults s units.length 0x407 start)
          ∧ ((unitBytes units).length + 3 ≤ declen → ∀ k, 2 ≤ k → k < 6 → nib (hex.getD (start + k) 0) = none →
              (∀ j, 2 ≤ j → j < k → nib (hex.getD (start + j) 0) ≠ none) →
              DecodeFaults s units.length 0x307 (start + k)))

/-- Both values of `DUR_OVF`: `SATURATE` turns every count from 2152 on into the sentinel and leaves the list in `DUR`, `FAULT`
raises `DUR_RANGE` at the first such unit with no result (40_timing_decoder.md R122, R124). That the `DUR` cells from the
number of units on keep their values is THE MODEL'S CHOICE (log entry 7). -/
def Obligations.DurOvfChoices : Prop :=
  ∀ (s : State) (hex : List Byte) (units : List Instr) (ticks : List Nat),
    hex.length = s.hexlen.toNat → IsCapture hex (unitBytes units) → HaveTicks units ticks →
      (∃ t, decodeBody .saturate hex s = .done (ticks.map fun n => if n ≤ 2151 then durationOf n else 65535) t
        ∧ DurIs t (ticks.map fun n => if n ≤ 2151 then durationOf n else 65535) ∧ t.durlen.toNat = units.length
        ∧ (∀ i, units.length ≤ i → cellRead t.mem.dur i = cellRead s.mem.dur i)
        ∧ t = { s with mem := { s.mem with dur := t.mem.dur }, durlen := t.durlen })
      ∧ (∀ before u after n, units = before ++ u :: after → unitTicks u = some n → 2152 ≤ n →
          (∀ v ∈ before, ∃ m, unitTicks v = some m ∧ m ≤ 2151) →
          ∃ t, decodeBody .fault hex s = .raised { cause := .durRange, off := 2 * (4 + (unitBytes before).length) } t
            ∧ t.durlen = 0 ∧ (∀ i, before.length ≤ i → cellRead t.mem.dur i = cellRead s.mem.dur i)
            ∧ t = { s with mem := { s.mem with dur := t.mem.dur }, durlen := t.durlen })

/-- No partial result: a `DECODE` that records a fault leaves `DURLEN` 0 (40_timing_decoder.md R126). -/
def Obligations.DecodeFaultLeavesNoResult : Prop :=
  ∀ s t : State, s.status = 0 → exec .decode s = .next t → t.status ≠ 0 →
    t.inFault = true ∧ t.durlen = 0 ∧ t = { s with
      status := t.status, erroff := t.erroff, mem := { s.mem with dur := t.mem.dur }, durlen := t.durlen, work := t.work,
      freeCtr := t.freeCtr }

/-- `FRAMEHDR` handed alone (the model's choice, log entries 10 and 12): `DECLEN` from the two length bytes, low byte
first, when the string holds the region (40_timing_decoder.md R121); when it does not, `LEN_OVERRUN`. -/
def Obligations.FrameHeaderSetsDeclen : Prop :=
  ∀ (s : State) (l h : Byte), s.inFault = false → 8 ≤ s.hexlen.toNat →
    (8 + 2 * (l.toNat + 256 * h.toNat) ≤ s.hexlen.toNat →
      exec (.frameHdr l h) s = .next { s with work := { s.work with declen := l.toNat + 256 * h.toNat } })
    ∧ (s.hexlen.toNat < 8 + 2 * (l.toNat + 256 * h.toNat) → ∃ t, exec (.frameHdr l h) s = .next t
      ∧ view t = { view s with status := 0x207, erroff := s.hexlen, durlen := 0 })

/-- `TICK1` handed alone (the model's choice, log entries 10 to 12): one Duration at `DUR[n]`, one byte consumed
(40_timing_decoder.md R122). -/
def Obligations.Tick1Decodes : Prop :=
  ∀ (s : State) (t : Byte), s.inFault = false → t ≠ 0 → s.work.durIdx < 65535 →
    ∃ u, exec (.tick1 t) s = .next u ∧ cellRead u.mem.dur s.work.durIdx = some (durationOf t.toNat)
      ∧ (∀ i, i ≠ s.work.durIdx → cellRead u.mem.dur i = cellRead s.mem.dur i)
      ∧ u = { s with
          mem := { s.mem with dur := u.mem.dur }
          work := { s.work with cur := s.work.cur + 1, durIdx := s.work.durIdx + 1 } }

/-- `TICK3` handed alone (the model's choice, log entries 10 to 12): truncated when the region ends before its third byte;
else one Duration at `DUR[n]`, three bytes consumed, a count from 2152 on treated as `DUR_OVF` says (40_timing_decoder.md
R122, R124). -/
def Obligations.Tick3Decodes : Prop :=
  ∀ (s : State) (h l : Byte), s.inFault = false → s.work.durIdx < 65535 →
    if s.work.declen < s.work.cur + 3 then
      ∃ u, exec (.tick3 h l) s = .next u ∧ view u = { view s with
        status := 0x407, erroff := BitVec.ofNat 32 (2 * (4 + s.work.cur)), durlen := 0 }
    else if h.toNat * 256 + l.toNat ≤ 2151 then
      ∃ u, exec (.tick3 h l) s = .next u
        ∧ cellRead u.mem.dur s.work.durIdx = some (durationOf (h.toNat * 256 + l.toNat))
        ∧ (∀ i, i ≠ s.work.durIdx → cellRead u.mem.dur i = cellRead s.mem.dur i)
        ∧ u = { s with
            mem := { s.mem with dur := u.mem.dur }
            work := { s.work with cur := s.work.cur + 3, durIdx := s.work.durIdx + 1 } }
    else
      match Config.durOvf with
      | .fault => ∃ u, exec (.tick3 h l) s = .next u ∧ view u = { view s with
          status := 0x507, erroff := BitVec.ofNat 32 (2 * (4 + s.work.cur)), durlen := 0 }
      | .saturate => ∃ u, exec (.tick3 h l) s = .next u ∧ cellRead u.mem.dur s.work.durIdx = some 65535
          ∧ (∀ i, i ≠ s.work.durIdx → cellRead u.mem.dur i = cellRead s.mem.dur i)
          ∧ u = { s with
              mem := { s.mem with dur := u.mem.dur }
              work := { s.work with cur := s.work.cur + 3, durIdx := s.work.durIdx + 1 } }

/-! ## The PulseFilter and the PayloadPacker -/

/-- `FILTER`: the elements other than 65535, in their order, at the start of `DUR`; the cells from the new length on as they
were (41_filter_pack.md R140). -/
def Obligations.FilterDropsSentinels : Prop :=
  ∀ (s : State) (durs : List Half), s.status = 0 → s.durlen.toNat ≤ 65535 → DurIs s durs →
    ∃ t, exec .filter s = .next t
      ∧ DurIs t (durs.filter (· ≠ 65535)) ∧ t.durlen.toNat = (durs.filter (· ≠ 65535)).length
      ∧ (∀ i, t.durlen.toNat ≤ i → cellRead t.mem.dur i = cellRead s.mem.dur i)
      ∧ t = { s with mem := { s.mem with dur := t.mem.dur }, durlen := t.durlen, work := t.work, freeCtr := t.freeCtr }

/-- `FILTER` twice is the same as `FILTER` once, as the host sees it (41_filter_pack.md R140, corner cases). -/
def Obligations.FilterTwiceIsOnce : Prop :=
  ∀ s t : State, s.status = 0 → Inv s → exec .filter s = .next t → t.status = 0 →
    ∃ u, exec .filter t = .next u ∧ view u = view t

/-- `PACK`: two bytes a Duration, low byte first, `PAYLEN` twice `DURLEN` (41_filter_pack.md R141, 20_memory.md R62). That the
`PAY` cells from the new length on keep their values is THE MODEL'S CHOICE (log entry 7). -/
def Obligations.PackWritesLittleEndian : Prop :=
  ∀ (s : State) (durs : List Half), s.status = 0 → s.durlen.toNat ≤ 65535 → DurIs s durs → 65535 ∉ durs →
    ∃ t, exec .pack s = .next t ∧ t.paylen.toNat = 2 * durs.length
      ∧ (∀ k v, durs[k]? = some v → cellRead t.mem.pay (2 * k) = some (BitVec.ofNat 8 v.toNat)
          ∧ cellRead t.mem.pay (2 * k + 1) = some (BitVec.ofNat 8 (v.toNat / 256)))
      ∧ (∀ i, 2 * durs.length ≤ i → cellRead t.mem.pay i = cellRead s.mem.pay i)
      ∧ t = { s with mem := { s.mem with pay := t.mem.pay }, paylen := t.paylen, work := t.work, freeCtr := t.freeCtr }

/-- `PACK` meeting a sentinel: `ValidationError(PACK_SENTINEL, k)` at the lowest index, `PAYLEN` 0, the input unchanged
(41_filter_pack.md R141, 60_exceptions.md R263). That the `PAY` cells from `2k` on keep their values is THE MODEL'S CHOICE
(log entry 7). -/
def Obligations.PackSentinelFaults : Prop :=
  ∀ (s : State) (before after : List Half), s.status = 0 → s.durlen.toNat ≤ 65535 → 65535 ∉ before →
    DurIs s (before ++ 65535 :: after) →
      ∃ t, exec .pack s = .next t ∧ t.status = 0x10F ∧ t.erroff = BitVec.ofNat 32 before.length ∧ t.paylen = 0
        ∧ (∀ i, 2 * before.length ≤ i → cellRead t.mem.pay i = cellRead s.mem.pay i)
        ∧ t = { s with
            status := t.status, erroff := t.erroff, mem := { s.mem with pay := t.mem.pay }, paylen := t.paylen,
            work := t.work, freeCtr := t.freeCtr }

/-- `PAYDUR` handed alone (the model's choice, log entries 10 to 12): the Duration's two bytes, low byte first, at `PAY[2k]`
and `PAY[2k + 1]` (30_encoding.md R99, 41_filter_pack.md R141). -/
def Obligations.PaydurStores : Prop :=
  ∀ (s : State) (l h : Byte), s.inFault = false → (Instr.paydur l h).wf = true → 2 * s.work.packIdx + 1 < Config.nmax →
    ∃ t, exec (.paydur l h) s = .next t ∧ cellRead t.mem.pay (2 * s.work.packIdx) = some l
      ∧ cellRead t.mem.pay (2 * s.work.packIdx + 1) = some h
      ∧ (∀ i, i ≠ 2 * s.work.packIdx → i ≠ 2 * s.work.packIdx + 1 → cellRead t.mem.pay i = cellRead s.mem.pay i)
      ∧ t = { s with
          mem := { s.mem with pay := t.mem.pay }
          work := { s.work with packIdx := s.work.packIdx + 1 } }

/-! ## The stream blocks -/

/-- `LIT` handed alone (the model's choice, log entries 10 and 12): the header `piece_length - 1` and the bytes of the
piece are appended to `OUT` (42_block_emitter.md R150). -/
def Obligations.LitAppendsPiece : Prop :=
  ∀ (s : State) (data : List Byte), s.inFault = false → (Instr.lit data).wf = true →
    s.outlen.toNat + data.length + 1 ≤ Config.outCap →
    ∃ t, exec (.lit data) s = .next t ∧ t.outlen.toNat = s.outlen.toNat + data.length + 1
      ∧ cellsRead t.mem.out s.outlen.toNat (data.length + 1) = .ok (BitVec.ofNat 8 (data.length - 1) :: data)
      ∧ (∀ i, i < s.outlen.toNat ∨ t.outlen.toNat ≤ i → cellRead t.mem.out i = cellRead s.mem.out i)
      ∧ t = { s with mem := { s.mem with out := t.mem.out }, outlen := t.outlen }

/-- `MATCHS` and `MATCHL` handed alone (the model's choice, log entries 10 and 12): the block's own bytes are appended to
`OUT`, two for a short match, three for a long one, with the distance's high part in the header and its low byte last
(42_block_emitter.md R152, 20_memory.md R65). -/
def Obligations.MatchAppendsBlock : Prop :=
  ∀ (s : State) (i : Instr) (bytes : List Nat), s.inFault = false → i.wf = true →
    s.outlen.toNat + bytes.length ≤ Config.outCap →
      ((∃ l h e, i = .matchs l h e ∧ bytes = [l.toNat * 32 + h.toNat, e.toNat])
        ∨ (∃ h c e, i = .matchl h c e ∧ bytes = [224 + h.toNat, c.toNat, e.toNat])) →
      ∃ t, exec i s = .next t ∧ t.outlen.toNat = s.outlen.toNat + bytes.length
        ∧ cellsRead t.mem.out s.outlen.toNat bytes.length = .ok (bytes.map (BitVec.ofNat 8))
        ∧ (∀ j, j < s.outlen.toNat ∨ t.outlen.toNat ≤ j → cellRead t.mem.out j = cellRead s.mem.out j)
        ∧ t = { s with mem := { s.mem with out := t.mem.out }, outlen := t.outlen }

/-! ## The Compressor -/

/-- `COMPRESS` at every level completes, and the stream stands for exactly the payload (the source's sentence and the spec's
own inference, "Coverage", 45_greedy_compress.md). That the `OUT` cells from the new length on keep their values in the
model's memory, where 10_state.md R33 calls them unspecified, is THE MODEL'S CHOICE (log entry 7). -/
def Obligations.CompressCoversPayload : Prop :=
  ∀ (s : State) (pay : List Byte), s.status = 0 → s.paylen.toNat ≤ Config.nmax → PayIs s pay →
    ∀ i ∈ [Instr.compressL0, .compressL1, .compressL2, .compressL3],
      ∃ t out, exec i s = .next t ∧ OutIs t out ∧ expand out = some pay
        ∧ (∀ j, t.outlen.toNat ≤ j → cellRead t.mem.out j = cellRead s.mem.out j)
        ∧ t = { s with
            mem := { s.mem with out := t.mem.out }, outlen := t.outlen, work := t.work, freeCtr := t.freeCtr,
            outDraw := t.outDraw }

/-- `GREEDY`: at levels 1 and 2 the stream is the parse that takes the candidate of the search, `FIRST_MATCH` and `BEST_MATCH`,
wherever one of length 3 or more stands at the cursor, and a literal byte elsewhere, literal runs cut in pieces of 32 bytes
from their start (45_greedy_compress.md R207 to R209, 42_block_emitter.md R151). -/
def Obligations.GreedyLevelsTakeCandidates : Prop :=
  ∀ (s : State) (pay : List Byte), s.status = 0 → s.paylen.toNat ≤ Config.nmax → PayIs s pay →
    ∀ x ∈ [(Instr.compressL1, nearestCandidate pay), (.compressL2, indexCandidate pay)],
      ∃ t out blocks, exec x.1 s = .next t ∧ OutIs t out ∧ blocksOf out = some blocks
        ∧ expandBlocks [] blocks = some pay ∧ TakesCandidates x.2 blocks ∧ PiecesFull blocks

/-- Level 0: `OUTLEN` is `N + ceil(N / 32)`; every 33rd byte is the header of a piece of at most 32 bytes, the others are
the payload in order (45_greedy_compress.md R206, 42_block_emitter.md R151). -/
def Obligations.Level0Layout : Prop :=
  ∀ (s : State) (pay : List Byte), s.status = 0 → s.paylen.toNat ≤ Config.nmax → PayIs s pay →
    ∃ t, exec .compressL0 s = .next t ∧ t.outlen.toNat = pay.length + (pay.length + 31) / 32
      ∧ (∀ k, 32 * k < pay.length →
          cellRead t.mem.out (33 * k) = some (BitVec.ofNat 8 (min 32 (pay.length - 32 * k) - 1)))
      ∧ (∀ j b, pay[j]? = some b → cellRead t.mem.out (j + j / 32 + 1) = some b)

/-- No level's output is longer than level 0's, so `OUT` never overflows. The spec's own inference: "Level 0 is the largest"
(45_greedy_compress.md). -/
def Obligations.LevelsNeverExceedLevel0 : Prop :=
  ∀ s t : State, s.status = 0 → ∀ i ∈ [Instr.compressL0, .compressL1, .compressL2, .compressL3], exec i s = .next t →
    t.outlen.toNat ≤ s.paylen.toNat + (s.paylen.toNat + 31) / 32

/-- Level 3 is never longer than level 2 on the same payload: "only levels 2 and 3 are ordered" (45_greedy_compress.md; the
spec's own inference in 46_optimal_parser.md). -/
def Obligations.Level3NotLongerThanLevel2 : Prop :=
  ∀ s a b : State, s.status = 0 → exec .compressL2 s = .next a → exec .compressL3 s = .next b →
    b.outlen.toNat ≤ a.outlen.toNat

/-- Payloads of up to three bytes are one literal block at every level, and the empty one nothing: "Smallest payloads"
(45_greedy_compress.md; for two and three bytes the spec's own inference). -/
def Obligations.SmallestPayloads : Prop :=
  ∀ (s : State) (pay : List Byte), s.status = 0 → PayIs s pay → pay.length ≤ 3 →
    ∀ i ∈ [Instr.compressL0, .compressL1, .compressL2, .compressL3], ∃ t, exec i s = .next t
      ∧ OutIs t (if pay = [] then [] else BitVec.ofNat 8 (pay.length - 1) :: pay)

/-- `MATCH_LEN` is the greatest agreement, cut off at 264 and at the end of the payload, and a search that ends with a length of
at least 3 has a distance in range and that length for it. The spec's own decision ("The spec places the cut-off here") and
its own inference "What the two searches guarantee" (43_match_finder.md). -/
def Obligations.SearchesFindTrueMatches : Prop :=
  ∀ (pay : List Byte) (w : Work), w.pos < pay.length →
    (∀ q, q < w.pos → IsMatchLen pay w.pos q (matchLen pay w.pos q))
    ∧ ∀ v ∈ [firstMatch pay w, bestMatch pay w], v.cdist ≠ 0 → 3 ≤ v.clen →
        v.pos = w.pos ∧ v.clen ≤ 264 ∧ 1 ≤ v.cdist ∧ v.cdist ≤ min w.pos 8192 ∧ w.pos + v.clen ≤ pay.length
          ∧ (∀ k, k < v.clen → pay[w.pos + k]? = pay[w.pos - v.cdist + k]?)
          ∧ (v.clen = 264 ∨ w.pos + v.clen = pay.length ∨ pay[w.pos + v.clen]? ≠ pay[w.pos - v.cdist + v.clen]?)

/-- `FIRST_MATCH` takes the nearest distance whose `MATCH_LEN` is at least 3, and that length (43_match_finder.md R171); that
`MATCH_LEN` is the greatest agreement is in `SearchesFindTrueMatches`. -/
def Obligations.FirstMatchTakesNearest : Prop :=
  ∀ (pay : List Byte) (w : Work),
    firstMatch pay w = { w with clen := (firstMatch pay w).clen, cdist := (firstMatch pay w).cdist }
    ∧ ((firstMatch pay w).cdist = 0 →
      (firstMatch pay w).clen = 0 ∧ ∀ d, 1 ≤ d → d ≤ min w.pos 8192 → matchLen pay w.pos (w.pos - d) < 3)
    ∧ ((firstMatch pay w).cdist ≠ 0 →
      (firstMatch pay w).cdist ≤ min w.pos 8192
        ∧ (firstMatch pay w).clen = matchLen pay w.pos (w.pos - (firstMatch pay w).cdist)
        ∧ 3 ≤ (firstMatch pay w).clen
        ∧ ∀ d, 1 ≤ d → d < (firstMatch pay w).cdist → matchLen pay w.pos (w.pos - d) < 3)

/-- `BEST_MATCH` brings the index up to the cursor and leaves the better of the two lexicographic neighbours of the cursor's
suffix, the longer match and on a tie the nearer, and no candidate when there is no neighbour (43_match_finder.md R172, R173,
44_suffix_index.md R191). -/
def Obligations.BestMatchTakesBetterNeighbor : Prop :=
  ∀ (pay : List Byte) (w : Work), IndexInv pay w → w.next ≤ w.pos + 1 → w.pos < pay.length →
    bestMatch pay w = { w with
        clen := (bestMatch pay w).clen, cdist := (bestMatch pay w).cdist, suf := (bestMatch pay w).suf,
        sufcnt := (bestMatch pay w).sufcnt, next := w.pos + 1 }
    ∧ IndexInv pay (bestMatch pay w)
    ∧ ((∀ q, ¬ IsNeighbor pay w.pos q) → (bestMatch pay w).clen = 0 ∧ (bestMatch pay w).cdist = 0)
    ∧ ((∃ q, IsNeighbor pay w.pos q) →
        ∃ q, IsNeighbor pay w.pos q ∧ (bestMatch pay w).cdist = w.pos - q
          ∧ (bestMatch pay w).clen = matchLen pay w.pos q
          ∧ ∀ r, IsNeighbor pay w.pos r →
              matchLen pay w.pos r < matchLen pay w.pos q ∨ (matchLen pay w.pos r = matchLen pay w.pos q ∧ r ≤ q))

/-- The spec's own inference "The order is strict and total", on positions of the payload (44_suffix_index.md). -/
def Obligations.SuffixOrderIsStrictTotal : Prop :=
  ∀ (pay : List Byte) (a b c : Nat), a < pay.length → b < pay.length → c < pay.length →
    sufLess pay a a = false
      ∧ (a ≠ b → (sufLess pay a b = true ↔ sufLess pay b a = false))
      ∧ (sufLess pay a b = true → sufLess pay b c = true → sufLess pay a c = true)

/-- The invariants of the SuffixIndex. The spec's own inference: "`SUF_INIT` establishes them and each iteration of
`ADVANCE_TO` preserves them" (44_suffix_index.md). -/
def Obligations.SuffixIndexInvariants : Prop :=
  ∀ (pay : List Byte) (w : Work),
    IndexInv pay (sufInit w)
      ∧ (IndexInv pay w → w.next < pay.length →
          IndexInv pay (advanceOne pay w) ∧ (advanceOne pay w).next = w.next + 1)

/-- The spec's own inference "The greatest distance at levels 2 and 3 is 8191" (44_suffix_index.md). -/
def Obligations.IndexLevelsStayBelowWindow : Prop :=
  ∀ s t : State, s.status = 0 → s.paylen.toNat ≤ Config.nmax → ∀ i ∈ [Instr.compressL2, .compressL3], exec i s = .next t →
    ∃ out blocks, OutIs t out ∧ blocksOf out = some blocks
      ∧ ∀ b ∈ blocks, ∀ d, blockDistance b = some d → d ≤ 8191

/-- Level 3 takes a cheapest path, and on equal costs the edge first seen. The spec's own inferences "Every position is
reached", "What the tie-break does" and "The cost is the stream length", with `RELAX` and `DP_FORWARD` they rest on
(46_optimal_parser.md).

`RELAX` puts its offer in place of an empty or a strictly dearer record and changes nothing otherwise. After the forward
pass every position has a record; its cost is the least over all paths, its edge is one of the graph that attains it, and
every edge into the position that attains it too leaves no earlier position. The stream of `COMPRESS.L3` is as long as the
cheapest path to the end, and each of its blocks is the recorded edge into the position it ends at. -/
def Obligations.ForwardPassReachesAndCosts : Prop :=
  (∀ (v : Work) (e : Edge) (here : DpRec), v.dpAt v.pos = some here → v.pos + e.len < v.dp.length →
    (∀ there, v.dpAt (v.pos + e.len) = some there → there.cost ≤ here.cost + e.cost → relax v e = v)
    ∧ ((∀ there, v.dpAt (v.pos + e.len) = some there → here.cost + e.cost < there.cost) →
      relax v e = { v with dp := (relax v e).dp }
        ∧ ∀ q, (relax v e).dpAt q =
            if q = v.pos + e.len then some { cost := here.cost + e.cost, len := e.len, dist := e.dist } else v.dpAt q))
  ∧ ∀ (pay : List Byte) (w : Work),
    (dpForward pay (sufInit w)).dpAt 0 = some { cost := 0, len := 0, dist := 0 }
      ∧ (∀ p, 1 ≤ p → p ≤ pay.length →
          ∃ r prev e, (dpForward pay (sufInit w)).dpAt p = some r ∧ 1 ≤ r.len ∧ r.len ≤ p ∧ r.len ≤ 264 ∧ r.dist ≤ 8192
            ∧ LeastCost pay p r.cost
            ∧ (dpForward pay (sufInit w)).dpAt (p - r.len) = some prev ∧ IsEdge pay (p - r.len) e
            ∧ e.len = r.len ∧ e.dist = r.dist ∧ r.cost = prev.cost + e.cost
            ∧ ∀ q f other, IsEdge pay q f → q + f.len = p → (dpForward pay (sufInit w)).dpAt q = some other →
                r.cost = other.cost + f.cost → p - r.len ≤ q)
      ∧ (∃ r, (dpForward pay (sufInit w)).dpAt pay.length = some r
          ∧ (emitCalls pay (parseL3 pay w)).1.length = r.cost ∧ (emitCalls pay (parseL3 pay w)).2 = none)
      ∧ ∀ s : State, s.status = 0 → s.paylen.toNat ≤ Config.nmax → PayIs s pay →
          ∃ t out blocks, exec .compressL3 s = .next t ∧ OutIs t out ∧ blocksOf out = some blocks
            ∧ LeastCost pay pay.length t.outlen.toNat
            ∧ ∀ x ∈ placed 0 blocks, ∃ r, (dpForward pay (sufInit w)).dpAt (x.1 + blockLength x.2) = some r
                ∧ r.len = blockLength x.2 ∧ r.dist = (blockDistance x.2).getD 0

/-! ## Whole commands -/

/-- A command's result, as the host sees it, depends on the host-visible state at its start and on nothing an earlier
command left behind. The spec's own inference: "the result of a command depends only on the host-visible state at its
start" (10_state.md). -/
def Obligations.CommandsDependOnlyOnHostView : Prop :=
  ∀ (i : Instr) (s t : State), spaceOf i = .cmd → view s = view t → viewOutcome (exec i s) = viewOutcome (exec i t)

/-- A fault-free `CONVERT.L<v>` leaves what `DECODE`, `FILTER`, `PACK`, `COMPRESS.L<v>` one after the other leave
(47_commands.md R247). -/
def Obligations.ConvertEqualsSequence : Prop :=
  ∀ (s t : State), s.status = 0 →
    ∀ p ∈ [(Instr.convertL0, Instr.compressL0), (.convertL1, .compressL1), (.convertL2, .compressL2),
        (.convertL3, .compressL3)],
      exec p.1 s = .next t → t.status = 0 →
        ∃ a b c d, exec .decode s = .next a ∧ exec .filter a = .next b ∧ exec .pack b = .next c ∧ exec p.2 c = .next d
          ∧ view d = view t

/-- `CONVERT.L<v>` of a capture whose counts fit: the Durations, their payload, and a stream that stands for it
(47_commands.md R247; that the stream stands for the payload is the spec's own inference, "Coverage",
45_greedy_compress.md). That the cells of `DUR`, `PAY` and `OUT` from the new lengths on keep their values is THE MODEL'S
CHOICE (log entry 7). -/
def Obligations.ConvertOfCapture : Prop :=
  ∀ (s : State) (hex : List Byte) (units : List Instr) (ticks : List Nat),
    s.status = 0 → s.hexlen.toNat ≤ 131078 → HexIs s hex → IsCapture hex (unitBytes units) → HaveTicks units ticks →
    (∀ t ∈ ticks, t ≤ 2151) →
      ∀ i ∈ [Instr.convertL0, .convertL1, .convertL2, .convertL3],
        ∃ t pay out, exec i s = .next t ∧ t.status = 0 ∧ t.erroff = s.erroff ∧ DurIs t (ticks.map durationOf)
          ∧ PayIs t pay ∧ pay = (ticks.map durationOf).flatMap (fun v => [v.extractLsb' 0 8, v.extractLsb' 8 8])
          ∧ OutIs t out ∧ expand out = some pay
          ∧ (∀ j, t.durlen.toNat ≤ j → cellRead t.mem.dur j = cellRead s.mem.dur j)
          ∧ (∀ j, t.paylen.toNat ≤ j → cellRead t.mem.pay j = cellRead s.mem.pay j)
          ∧ (∀ j, t.outlen.toNat ≤ j → cellRead t.mem.out j = cellRead s.mem.out j)
          ∧ t = { s with
              mem := { t.mem with hex := s.mem.hex }, durlen := t.durlen, paylen := t.paylen, outlen := t.outlen,
              work := t.work, freeCtr := t.freeCtr, outDraw := t.outDraw }

/-- A `CONVERT` that records a fault leaves all three output lengths 0 (47_commands.md R247). -/
def Obligations.ConvertFaultZeroesLengths : Prop :=
  ∀ (s t : State), s.status = 0 → ∀ i ∈ [Instr.convertL0, .convertL1, .convertL2, .convertL3],
    exec i s = .next t → t.status ≠ 0 →
      t.durlen = 0 ∧ t.paylen = 0 ∧ t.outlen = 0 ∧ t.hexlen = s.hexlen ∧ t.mem.hex = s.mem.hex

/-- What each command leaves alone in every case, faults included (47_commands.md R248). -/
def Obligations.CommandsLeaveAlone : Prop :=
  ∀ s t : State,
    (exec .decode s = .next t ∨ exec .filter s = .next t →
      t = { s with
        status := t.status, erroff := t.erroff, mem := { s.mem with dur := t.mem.dur }, durlen := t.durlen,
        work := t.work, freeCtr := t.freeCtr })
    ∧ (exec .pack s = .next t →
      t = { s with
        status := t.status, erroff := t.erroff, mem := { s.mem with pay := t.mem.pay }, paylen := t.paylen,
        work := t.work, freeCtr := t.freeCtr })
    ∧ (∀ i ∈ [Instr.compressL0, .compressL1, .compressL2, .compressL3], exec i s = .next t →
      t = { s with
        status := t.status, erroff := t.erroff, mem := { s.mem with out := t.mem.out }, outlen := t.outlen,
        work := t.work, freeCtr := t.freeCtr, outDraw := t.outDraw })
    ∧ (∀ i ∈ [Instr.convertL0, .convertL1, .convertL2, .convertL3], exec i s = .next t →
      t = { s with
        status := t.status, erroff := t.erroff, mem := { t.mem with hex := s.mem.hex }, durlen := t.durlen,
        paylen := t.paylen, outlen := t.outlen, work := t.work, freeCtr := t.freeCtr, outDraw := t.outDraw })
end

