-- ==== Sys2Proof/Laws/State.lean ====
section
/-!
SUPPORT. One lemma for each field of `State` under each named update of it, so that no later proof unfolds a record update.
-/

namespace Sys2Proof.Machine

/-! ## `STATUS.STATE <- v` -/

@[simp] theorem State.setState_status (s : State) (v : BitVec 2) : (s.setState v).status = withStatusState s.status v := rfl
@[simp] theorem State.setState_erroff (s : State) (v : BitVec 2) : (s.setState v).erroff = s.erroff := rfl
@[simp] theorem State.setState_hexlen (s : State) (v : BitVec 2) : (s.setState v).hexlen = s.hexlen := rfl
@[simp] theorem State.setState_durlen (s : State) (v : BitVec 2) : (s.setState v).durlen = s.durlen := rfl
@[simp] theorem State.setState_paylen (s : State) (v : BitVec 2) : (s.setState v).paylen = s.paylen := rfl
@[simp] theorem State.setState_outlen (s : State) (v : BitVec 2) : (s.setState v).outlen = s.outlen := rfl
@[simp] theorem State.setState_mem (s : State) (v : BitVec 2) : (s.setState v).mem = s.mem := rfl
@[simp] theorem State.setState_work (s : State) (v : BitVec 2) : (s.setState v).work = s.work := rfl
@[simp] theorem State.setState_inbox (s : State) (v : BitVec 2) : (s.setState v).inbox = s.inbox := rfl
@[simp] theorem State.setState_hostRead (s : State) (v : BitVec 2) : (s.setState v).hostRead = s.hostRead := rfl
@[simp] theorem State.setState_freeCtr (s : State) (v : BitVec 2) : (s.setState v).freeCtr = s.freeCtr := rfl
@[simp] theorem State.setState_outDraw (s : State) (v : BitVec 2) : (s.setState v).outDraw = s.outDraw := rfl

/-! ## `DUR[i..) <- vs` -/

@[simp] theorem State.writeDur_status (s : State) (i : Nat) (vs : List Half) : (s.writeDur i vs).status = s.status := rfl
@[simp] theorem State.writeDur_erroff (s : State) (i : Nat) (vs : List Half) : (s.writeDur i vs).erroff = s.erroff := rfl
@[simp] theorem State.writeDur_hexlen (s : State) (i : Nat) (vs : List Half) : (s.writeDur i vs).hexlen = s.hexlen := rfl
@[simp] theorem State.writeDur_durlen (s : State) (i : Nat) (vs : List Half) : (s.writeDur i vs).durlen = s.durlen := rfl
@[simp] theorem State.writeDur_paylen (s : State) (i : Nat) (vs : List Half) : (s.writeDur i vs).paylen = s.paylen := rfl
@[simp] theorem State.writeDur_outlen (s : State) (i : Nat) (vs : List Half) : (s.writeDur i vs).outlen = s.outlen := rfl
@[simp] theorem State.writeDur_mem (s : State) (i : Nat) (vs : List Half) : (s.writeDur i vs).mem = { s.mem with dur := cellsWrite s.mem.dur i vs } := rfl
@[simp] theorem State.writeDur_work (s : State) (i : Nat) (vs : List Half) : (s.writeDur i vs).work = s.work := rfl
@[simp] theorem State.writeDur_inbox (s : State) (i : Nat) (vs : List Half) : (s.writeDur i vs).inbox = s.inbox := rfl
@[simp] theorem State.writeDur_hostRead (s : State) (i : Nat) (vs : List Half) : (s.writeDur i vs).hostRead = s.hostRead := rfl
@[simp] theorem State.writeDur_freeCtr (s : State) (i : Nat) (vs : List Half) : (s.writeDur i vs).freeCtr = s.freeCtr := rfl
@[simp] theorem State.writeDur_outDraw (s : State) (i : Nat) (vs : List Half) : (s.writeDur i vs).outDraw = s.outDraw := rfl

/-! ## `PAY[i..) <- bs` -/

@[simp] theorem State.writePay_status (s : State) (i : Nat) (bs : List Byte) : (s.writePay i bs).status = s.status := rfl
@[simp] theorem State.writePay_erroff (s : State) (i : Nat) (bs : List Byte) : (s.writePay i bs).erroff = s.erroff := rfl
@[simp] theorem State.writePay_hexlen (s : State) (i : Nat) (bs : List Byte) : (s.writePay i bs).hexlen = s.hexlen := rfl
@[simp] theorem State.writePay_durlen (s : State) (i : Nat) (bs : List Byte) : (s.writePay i bs).durlen = s.durlen := rfl
@[simp] theorem State.writePay_paylen (s : State) (i : Nat) (bs : List Byte) : (s.writePay i bs).paylen = s.paylen := rfl
@[simp] theorem State.writePay_outlen (s : State) (i : Nat) (bs : List Byte) : (s.writePay i bs).outlen = s.outlen := rfl
@[simp] theorem State.writePay_mem (s : State) (i : Nat) (bs : List Byte) : (s.writePay i bs).mem = { s.mem with pay := cellsWrite s.mem.pay i bs } := rfl
@[simp] theorem State.writePay_work (s : State) (i : Nat) (bs : List Byte) : (s.writePay i bs).work = s.work := rfl
@[simp] theorem State.writePay_inbox (s : State) (i : Nat) (bs : List Byte) : (s.writePay i bs).inbox = s.inbox := rfl
@[simp] theorem State.writePay_hostRead (s : State) (i : Nat) (bs : List Byte) : (s.writePay i bs).hostRead = s.hostRead := rfl
@[simp] theorem State.writePay_freeCtr (s : State) (i : Nat) (bs : List Byte) : (s.writePay i bs).freeCtr = s.freeCtr := rfl
@[simp] theorem State.writePay_outDraw (s : State) (i : Nat) (bs : List Byte) : (s.writePay i bs).outDraw = s.outDraw := rfl

/-! ## `append(OUT, ..)` -/

@[simp] theorem State.appendOut_status (s : State) (bs : List Byte) : (s.appendOut bs).status = s.status := rfl
@[simp] theorem State.appendOut_erroff (s : State) (bs : List Byte) : (s.appendOut bs).erroff = s.erroff := rfl
@[simp] theorem State.appendOut_hexlen (s : State) (bs : List Byte) : (s.appendOut bs).hexlen = s.hexlen := rfl
@[simp] theorem State.appendOut_durlen (s : State) (bs : List Byte) : (s.appendOut bs).durlen = s.durlen := rfl
@[simp] theorem State.appendOut_paylen (s : State) (bs : List Byte) : (s.appendOut bs).paylen = s.paylen := rfl
@[simp] theorem State.appendOut_outlen (s : State) (bs : List Byte) : (s.appendOut bs).outlen = s.outlen + BitVec.ofNat 32 bs.length := rfl
@[simp] theorem State.appendOut_mem (s : State) (bs : List Byte) : (s.appendOut bs).mem = { s.mem with out := cellsWrite s.mem.out s.outlen.toNat bs } := rfl
@[simp] theorem State.appendOut_work (s : State) (bs : List Byte) : (s.appendOut bs).work = s.work := rfl
@[simp] theorem State.appendOut_inbox (s : State) (bs : List Byte) : (s.appendOut bs).inbox = s.inbox := rfl
@[simp] theorem State.appendOut_hostRead (s : State) (bs : List Byte) : (s.appendOut bs).hostRead = s.hostRead := rfl
@[simp] theorem State.appendOut_freeCtr (s : State) (bs : List Byte) : (s.appendOut bs).freeCtr = s.freeCtr := rfl
@[simp] theorem State.appendOut_outDraw (s : State) (bs : List Byte) : (s.appendOut bs).outDraw = s.outDraw := rfl

/-! ## The end of a command -/

@[simp] theorem State.endCall_status (s : State) (c : Running) : (s.endCall c).status = s.status := rfl
@[simp] theorem State.endCall_erroff (s : State) (c : Running) : (s.endCall c).erroff = s.erroff := rfl
@[simp] theorem State.endCall_hexlen (s : State) (c : Running) : (s.endCall c).hexlen = s.hexlen := rfl
@[simp] theorem State.endCall_durlen (s : State) (c : Running) : (s.endCall c).durlen = s.durlen := rfl
@[simp] theorem State.endCall_paylen (s : State) (c : Running) : (s.endCall c).paylen = s.paylen := rfl
@[simp] theorem State.endCall_outlen (s : State) (c : Running) : (s.endCall c).outlen = s.outlen := rfl
@[simp] theorem State.endCall_mem (s : State) (c : Running) : (s.endCall c).mem = s.mem := rfl
@[simp] theorem State.endCall_work (s : State) (c : Running) : (s.endCall c).work = leftover s.freeCtr := rfl
@[simp] theorem State.endCall_inbox (s : State) (c : Running) : (s.endCall c).inbox = s.inbox := rfl
@[simp] theorem State.endCall_hostRead (s : State) (c : Running) : (s.endCall c).hostRead = s.hostRead := rfl
@[simp] theorem State.endCall_freeCtr (s : State) (c : Running) : (s.endCall c).freeCtr = s.freeCtr + 1 := rfl
@[simp] theorem State.endCall_outDraw (s : State) (c : Running) :
    (s.endCall c).outDraw = if writesOut c then s.freeCtr + 1 else s.outDraw := rfl

/-! ## The record of a fault -/

@[simp] theorem State.recordFault_status (s : State) (r : Raise) : (s.recordFault r).status = faultStatus r.cause := rfl
@[simp] theorem State.recordFault_erroff (s : State) (r : Raise) : (s.recordFault r).erroff = BitVec.ofNat 32 r.off := rfl
@[simp] theorem State.recordFault_hexlen (s : State) (r : Raise) : (s.recordFault r).hexlen = s.hexlen := rfl
@[simp] theorem State.recordFault_durlen (s : State) (r : Raise) : (s.recordFault r).durlen = s.durlen := rfl
@[simp] theorem State.recordFault_paylen (s : State) (r : Raise) : (s.recordFault r).paylen = s.paylen := rfl
@[simp] theorem State.recordFault_outlen (s : State) (r : Raise) : (s.recordFault r).outlen = s.outlen := rfl
@[simp] theorem State.recordFault_mem (s : State) (r : Raise) : (s.recordFault r).mem = s.mem := rfl
@[simp] theorem State.recordFault_work (s : State) (r : Raise) : (s.recordFault r).work = s.work := rfl
@[simp] theorem State.recordFault_inbox (s : State) (r : Raise) : (s.recordFault r).inbox = s.inbox := rfl
@[simp] theorem State.recordFault_hostRead (s : State) (r : Raise) : (s.recordFault r).hostRead = s.hostRead := rfl
@[simp] theorem State.recordFault_freeCtr (s : State) (r : Raise) : (s.recordFault r).freeCtr = s.freeCtr := rfl
@[simp] theorem State.recordFault_outDraw (s : State) (r : Raise) : (s.recordFault r).outDraw = s.outDraw := rfl

/-! ## `CLEAR` -/

@[simp] theorem State.clearFault_status (s : State) : (s.clearFault).status = 0 := rfl
@[simp] theorem State.clearFault_erroff (s : State) : (s.clearFault).erroff = 0 := rfl
@[simp] theorem State.clearFault_hexlen (s : State) : (s.clearFault).hexlen = s.hexlen := rfl
@[simp] theorem State.clearFault_durlen (s : State) : (s.clearFault).durlen = s.durlen := rfl
@[simp] theorem State.clearFault_paylen (s : State) : (s.clearFault).paylen = s.paylen := rfl
@[simp] theorem State.clearFault_outlen (s : State) : (s.clearFault).outlen = s.outlen := rfl
@[simp] theorem State.clearFault_mem (s : State) : (s.clearFault).mem = s.mem := rfl
@[simp] theorem State.clearFault_work (s : State) : (s.clearFault).work = s.work := rfl
@[simp] theorem State.clearFault_inbox (s : State) : (s.clearFault).inbox = s.inbox := rfl
@[simp] theorem State.clearFault_hostRead (s : State) : (s.clearFault).hostRead = s.hostRead := rfl
@[simp] theorem State.clearFault_freeCtr (s : State) : (s.clearFault).freeCtr = s.freeCtr := rfl
@[simp] theorem State.clearFault_outDraw (s : State) : (s.clearFault).outDraw = s.outDraw := rfl

/-! ## A host read -/

@[simp] theorem State.returned_status (s : State) (v : Word) : (s.returned v).status = s.status := rfl
@[simp] theorem State.returned_erroff (s : State) (v : Word) : (s.returned v).erroff = s.erroff := rfl
@[simp] theorem State.returned_hexlen (s : State) (v : Word) : (s.returned v).hexlen = s.hexlen := rfl
@[simp] theorem State.returned_durlen (s : State) (v : Word) : (s.returned v).durlen = s.durlen := rfl
@[simp] theorem State.returned_paylen (s : State) (v : Word) : (s.returned v).paylen = s.paylen := rfl
@[simp] theorem State.returned_outlen (s : State) (v : Word) : (s.returned v).outlen = s.outlen := rfl
@[simp] theorem State.returned_mem (s : State) (v : Word) : (s.returned v).mem = s.mem := rfl
@[simp] theorem State.returned_work (s : State) (v : Word) : (s.returned v).work = s.work := rfl
@[simp] theorem State.returned_inbox (s : State) (v : Word) : (s.returned v).inbox = s.inbox := rfl
@[simp] theorem State.returned_hostRead (s : State) (v : Word) : (s.returned v).hostRead = v := rfl
@[simp] theorem State.returned_freeCtr (s : State) (v : Word) : (s.returned v).freeCtr = s.freeCtr := rfl
@[simp] theorem State.returned_outDraw (s : State) (v : Word) : (s.returned v).outDraw = s.outDraw := rfl

/-! ## The reset event -/

@[simp] theorem State.afterReset_status (s : State) : (s.afterReset).status = State.reset.status := rfl
@[simp] theorem State.afterReset_erroff (s : State) : (s.afterReset).erroff = State.reset.erroff := rfl
@[simp] theorem State.afterReset_hexlen (s : State) : (s.afterReset).hexlen = State.reset.hexlen := rfl
@[simp] theorem State.afterReset_durlen (s : State) : (s.afterReset).durlen = State.reset.durlen := rfl
@[simp] theorem State.afterReset_paylen (s : State) : (s.afterReset).paylen = State.reset.paylen := rfl
@[simp] theorem State.afterReset_outlen (s : State) : (s.afterReset).outlen = State.reset.outlen := rfl
@[simp] theorem State.afterReset_mem (s : State) : (s.afterReset).mem = State.reset.mem := rfl
@[simp] theorem State.afterReset_work (s : State) : (s.afterReset).work = State.reset.work := rfl
@[simp] theorem State.afterReset_inbox (s : State) : (s.afterReset).inbox = s.inbox := rfl
@[simp] theorem State.afterReset_hostRead (s : State) : (s.afterReset).hostRead = s.hostRead := rfl
@[simp] theorem State.afterReset_freeCtr (s : State) : (s.afterReset).freeCtr = s.freeCtr + 1 := rfl
@[simp] theorem State.afterReset_outDraw (s : State) : (s.afterReset).outDraw = s.freeCtr + 1 := rfl

/-! ## The word to be fetched -/

@[simp] theorem State.withFetchWord_status (s : State) (n w : Nat) : (s.withFetchWord n w).status = s.status := rfl
@[simp] theorem State.withFetchWord_erroff (s : State) (n w : Nat) : (s.withFetchWord n w).erroff = s.erroff := rfl
@[simp] theorem State.withFetchWord_hexlen (s : State) (n w : Nat) : (s.withFetchWord n w).hexlen = s.hexlen := rfl
@[simp] theorem State.withFetchWord_durlen (s : State) (n w : Nat) : (s.withFetchWord n w).durlen = s.durlen := rfl
@[simp] theorem State.withFetchWord_paylen (s : State) (n w : Nat) : (s.withFetchWord n w).paylen = s.paylen := rfl
@[simp] theorem State.withFetchWord_outlen (s : State) (n w : Nat) : (s.withFetchWord n w).outlen = s.outlen := rfl
@[simp] theorem State.withFetchWord_mem (s : State) (n w : Nat) : (s.withFetchWord n w).mem = s.mem := rfl
@[simp] theorem State.withFetchWord_work (s : State) (n w : Nat) : (s.withFetchWord n w).work = s.work := rfl
@[simp] theorem State.withFetchWord_inbox (s : State) (n w : Nat) : (s.withFetchWord n w).inbox = tableAccess n w :: s.inbox := rfl
@[simp] theorem State.withFetchWord_hostRead (s : State) (n w : Nat) : (s.withFetchWord n w).hostRead = s.hostRead := rfl
@[simp] theorem State.withFetchWord_freeCtr (s : State) (n w : Nat) : (s.withFetchWord n w).freeCtr = s.freeCtr := rfl
@[simp] theorem State.withFetchWord_outDraw (s : State) (n w : Nat) : (s.withFetchWord n w).outDraw = s.outDraw := rfl

/-! ## A host write of a register -/

@[simp] theorem State.writeReg_status (s : State) (n : Nat) (v : Word) : (s.writeReg n v).status = s.status := by
  unfold State.writeReg
  split <;> rfl
@[simp] theorem State.writeReg_erroff (s : State) (n : Nat) (v : Word) : (s.writeReg n v).erroff = s.erroff := by
  unfold State.writeReg
  split <;> rfl
@[simp] theorem State.writeReg_hexlen (s : State) (n : Nat) (v : Word) : (s.writeReg n v).hexlen = if n = 3 then v else s.hexlen := by
  unfold State.writeReg
  split <;> simp_all
@[simp] theorem State.writeReg_durlen (s : State) (n : Nat) (v : Word) : (s.writeReg n v).durlen = if n = 4 then v else s.durlen := by
  unfold State.writeReg
  split <;> simp_all
@[simp] theorem State.writeReg_paylen (s : State) (n : Nat) (v : Word) : (s.writeReg n v).paylen = if n = 5 then v else s.paylen := by
  unfold State.writeReg
  split <;> simp_all
@[simp] theorem State.writeReg_outlen (s : State) (n : Nat) (v : Word) : (s.writeReg n v).outlen = s.outlen := by
  unfold State.writeReg
  split <;> rfl
@[simp] theorem State.writeReg_mem (s : State) (n : Nat) (v : Word) : (s.writeReg n v).mem = s.mem := by
  unfold State.writeReg
  split <;> rfl
@[simp] theorem State.writeReg_work (s : State) (n : Nat) (v : Word) : (s.writeReg n v).work = s.work := by
  unfold State.writeReg
  split <;> rfl
@[simp] theorem State.writeReg_inbox (s : State) (n : Nat) (v : Word) : (s.writeReg n v).inbox = s.inbox := by
  unfold State.writeReg
  split <;> rfl
@[simp] theorem State.writeReg_hostRead (s : State) (n : Nat) (v : Word) : (s.writeReg n v).hostRead = s.hostRead := by
  unfold State.writeReg
  split <;> rfl
@[simp] theorem State.writeReg_freeCtr (s : State) (n : Nat) (v : Word) : (s.writeReg n v).freeCtr = s.freeCtr := by
  unfold State.writeReg
  split <;> rfl
@[simp] theorem State.writeReg_outDraw (s : State) (n : Nat) (v : Word) : (s.writeReg n v).outDraw = s.outDraw := by
  unfold State.writeReg
  split <;> rfl

/-! ## The output lengths at fault entry -/

@[simp] theorem zeroOutputs_status (c : Running) (s : State) :
    (zeroOutputs c s).status = s.status := by
  cases c <;> rfl
@[simp] theorem zeroOutputs_erroff (c : Running) (s : State) :
    (zeroOutputs c s).erroff = s.erroff := by
  cases c <;> rfl
@[simp] theorem zeroOutputs_hexlen (c : Running) (s : State) :
    (zeroOutputs c s).hexlen = s.hexlen := by
  cases c <;> rfl
@[simp] theorem zeroOutputs_durlen (c : Running) (s : State) :
    (zeroOutputs c s).durlen = if c = .decode ∨ c = .filter ∨ c = .convert then 0 else s.durlen := by
  cases c <;> simp [zeroOutputs]
@[simp] theorem zeroOutputs_paylen (c : Running) (s : State) :
    (zeroOutputs c s).paylen = if c = .pack ∨ c = .convert then 0 else s.paylen := by
  cases c <;> simp [zeroOutputs]
@[simp] theorem zeroOutputs_outlen (c : Running) (s : State) :
    (zeroOutputs c s).outlen = if c = .compress ∨ c = .convert then 0 else s.outlen := by
  cases c <;> simp [zeroOutputs]
@[simp] theorem zeroOutputs_mem (c : Running) (s : State) :
    (zeroOutputs c s).mem = s.mem := by
  cases c <;> rfl
@[simp] theorem zeroOutputs_work (c : Running) (s : State) :
    (zeroOutputs c s).work = s.work := by
  cases c <;> rfl
@[simp] theorem zeroOutputs_inbox (c : Running) (s : State) :
    (zeroOutputs c s).inbox = s.inbox := by
  cases c <;> rfl
@[simp] theorem zeroOutputs_hostRead (c : Running) (s : State) :
    (zeroOutputs c s).hostRead = s.hostRead := by
  cases c <;> rfl
@[simp] theorem zeroOutputs_freeCtr (c : Running) (s : State) :
    (zeroOutputs c s).freeCtr = s.freeCtr := by
  cases c <;> rfl
@[simp] theorem zeroOutputs_outDraw (c : Running) (s : State) :
    (zeroOutputs c s).outDraw = s.outDraw := by
  cases c <;> rfl

/-! ## States built field by field -/

/-- Two states with equal fields are equal. -/
theorem State.eq_of_fields {s t : State} (status : s.status = t.status) (erroff : s.erroff = t.erroff)
    (hexlen : s.hexlen = t.hexlen) (durlen : s.durlen = t.durlen) (paylen : s.paylen = t.paylen)
    (outlen : s.outlen = t.outlen) (mem : s.mem = t.mem) (work : s.work = t.work) (inbox : s.inbox = t.inbox)
    (hostRead : s.hostRead = t.hostRead) (freeCtr : s.freeCtr = t.freeCtr)
    (outDraw : s.outDraw = t.outDraw) : s = t := by
  cases s
  cases t
  simp_all

/-- `STATE` of the three values a command writes over a clear `STATUS`, and of a fault's record. -/
@[simp] theorem statusState_zero : statusState 0 = stReady := by decide

@[simp] theorem withStatusState_idem (w : Word) (a b : BitVec 2) :
    withStatusState (withStatusState w a) b = withStatusState w b := by
  simp only [withStatusState]
  congr 1
  ext i hi
  simp only [BitVec.getElem_extractLsb', BitVec.getLsbD_append]
  have : ¬ 2 + i < 2 := by omega
  simp [this, hi]

@[simp] theorem statusState_withStatusState (w : Word) (v : BitVec 2) : statusState (withStatusState w v) = v := by
  simp only [statusState, withStatusState]
  ext i hi
  rw [BitVec.getElem_extractLsb', BitVec.getLsbD_append]
  simp [hi]

/-- `BUSY` over a clear `STATUS`, then `READY`, is a clear `STATUS`. -/
@[simp] theorem withStatusState_zero_ready : withStatusState 0 stReady = 0 := by decide

@[simp] theorem statusState_faultStatus (c : Cause) : statusState (faultStatus c) = stFault := by cases c <;> decide

@[simp] theorem statusErr_faultStatus (c : Cause) : statusErr (faultStatus c) = kindNumber (causeKind c) := by
  cases c <;> decide

@[simp] theorem statusCause_faultStatus (c : Cause) : statusCause (faultStatus c) = causeNumber c := by
  cases c <;> decide

theorem faultStatus_ne_zero (c : Cause) : faultStatus c ≠ 0 := by cases c <;> decide

/-- A state with a clear `STATUS` is not in `FAULT`. -/
theorem State.inFault_of_status_zero {s : State} (h : s.status = 0) : s.inFault = false := by
  simp [State.inFault, h]
  decide

/-- A recorded fault puts the block in `FAULT`. -/
@[simp] theorem State.inFault_recordFault (s : State) (r : Raise) : (s.recordFault r).inFault = true := by
  simp [State.inFault]

end Sys2Proof.Machine
end

