-- ==== Sys2Proof/Laws/Cells.lean ====
section
/-!
SUPPORT. What the memory operations do: a read after a write, what a write leaves alone, and the canonical form, which every
operation keeps.
-/

namespace Sys2Proof.Machine

variable {w : Nat}

/-! ## One element -/

/-- A read after a write: the written element at its index, what was there before at every other. -/
theorem cellRead_cellWrite (b : Cells w) (i j : Nat) (v : BitVec w) :
    cellRead (cellWrite b i v) j = if j = i then some v else cellRead b j := by
  induction b with
  | nil =>
    simp only [cellWrite, cellRead]
    grind
  | cons c rest ih =>
    obtain ⟨k, u⟩ := c
    simp only [cellWrite]
    split
    · simp only [cellRead]
      grind
    · split
      · simp only [cellRead]
        grind
      · simp only [cellRead, ih]
        grind

@[simp] theorem cellRead_cellWrite_self (b : Cells w) (i : Nat) (v : BitVec w) :
    cellRead (cellWrite b i v) i = some v := by simp [cellRead_cellWrite]

theorem cellRead_cellWrite_ne {i j : Nat} (b : Cells w) (v : BitVec w) (h : j ≠ i) :
    cellRead (cellWrite b i v) j = cellRead b j := by simp [cellRead_cellWrite, h]

/-- The cells after a write are the new one and cells that were there. -/
theorem mem_cellWrite {b : Cells w} {i : Nat} {v : BitVec w} {c : Nat × BitVec w} (h : c ∈ cellWrite b i v) :
    c = (i, v) ∨ c ∈ b := by
  induction b with
  | nil => simpa [cellWrite] using h
  | cons d rest ih =>
    obtain ⟨k, u⟩ := d
    simp only [cellWrite] at h
    split at h
    · simpa using h
    · split at h
      · rcases List.mem_cons.1 h with h | h
        · exact .inl h
        · exact .inr (List.mem_cons_of_mem _ h)
      · rcases List.mem_cons.1 h with h | h
        · exact .inr (h ▸ List.mem_cons_self)
        · exact (ih h).imp id (List.mem_cons_of_mem _)

/-- A write keeps the canonical form. -/
theorem cellWrite_wf {b : Cells w} (h : cellsWf b) (i : Nat) (v : BitVec w) : cellsWf (cellWrite b i v) := by
  induction b with
  | nil => simp [cellWrite, cellsWf]
  | cons c rest ih =>
    obtain ⟨k, u⟩ := c
    simp only [cellsWf, List.pairwise_cons] at h
    obtain ⟨first, others⟩ := h
    simp only [cellWrite]
    split
    · rename_i lt
      simp only [cellsWf, List.pairwise_cons, List.mem_cons, forall_eq_or_imp]
      exact ⟨⟨lt, fun c hc => Nat.lt_trans lt (first c hc)⟩, first, others⟩
    · split
      · rename_i eq
        simp only [cellsWf, List.pairwise_cons]
        exact ⟨fun c hc => eq ▸ first c hc, others⟩
      · simp only [cellsWf, List.pairwise_cons]
        refine ⟨fun c hc => ?_, ih others⟩
        rcases mem_cellWrite hc with rfl | hc
        · show k < i
          omega
        · exact first c hc

/-- No cell below the first one of a canonical list. -/
theorem cellRead_none_of_lt {b : Cells w} {i : Nat} (h : ∀ c ∈ b, i < c.1) : cellRead b i = none := by
  induction b with
  | nil => rfl
  | cons c rest ih =>
    obtain ⟨k, u⟩ := c
    have : i < k := h _ List.mem_cons_self
    simp only [cellRead]
    rw [if_neg (by omega)]
    exact ih fun c hc => h c (List.mem_cons_of_mem _ hc)

/-- Canonical lists with equal reads are equal. -/
theorem cells_ext {a b : Cells w} (ha : cellsWf a) (hb : cellsWf b) (h : ∀ i, cellRead a i = cellRead b i) : a = b := by
  induction a generalizing b with
  | nil =>
    cases b with
    | nil => rfl
    | cons c rest =>
      have := h c.1
      simp [cellRead] at this
  | cons c rest ih =>
    obtain ⟨k, u⟩ := c
    simp only [cellsWf, List.pairwise_cons] at ha
    cases b with
    | nil =>
      have := h k
      simp [cellRead] at this
    | cons d more =>
      obtain ⟨l, v⟩ := d
      simp only [cellsWf, List.pairwise_cons] at hb
      have hkl : k = l := by
        rcases Nat.lt_trichotomy k l with lt | eq | lt
        · have read := h k
          simp only [cellRead, if_true, if_neg (by omega : ¬ l = k)] at read
          rw [cellRead_none_of_lt fun c hc => Nat.lt_trans lt (hb.1 c hc)] at read
          cases read
        · exact eq
        · have read := h l
          simp only [cellRead, if_true, if_neg (by omega : ¬ k = l)] at read
          rw [cellRead_none_of_lt fun c hc => Nat.lt_trans lt (ha.1 c hc)] at read
          cases read
      subst hkl
      have huv : u = v := by simpa [cellRead] using h k
      subst huv
      rw [ih ha.2 hb.2 fun i => ?_]
      by_cases eq : k = i
      · subst eq
        rw [cellRead_none_of_lt ha.1, cellRead_none_of_lt hb.1]
      · simpa [cellRead, eq] using h i

/-- Writing the element that a canonical list holds already changes nothing. -/
theorem cellWrite_of_read {b : Cells w} {i : Nat} {v : BitVec w} (wf : cellsWf b) (h : cellRead b i = some v) :
    cellWrite b i v = b :=
  cells_ext (cellWrite_wf wf i v) wf fun j => by
    rw [cellRead_cellWrite]
    split
    · subst_vars
      exact h.symm
    · rfl

/-! ## Consecutive elements -/

/-- A read after a block write: the list inside, what was there before outside. -/
theorem cellRead_cellsWrite (b : Cells w) (i j : Nat) (vs : List (BitVec w)) :
    cellRead (cellsWrite b i vs) j = if i ≤ j ∧ j < i + vs.length then vs[j - i]? else cellRead b j := by
  induction vs generalizing b i with
  | nil => simp only [cellsWrite, List.length_nil, Nat.add_zero]; rw [if_neg (by omega)]
  | cons v vs ih =>
    rw [cellsWrite, ih, List.length_cons]
    by_cases eq : j = i
    · subst eq
      rw [if_neg (by omega), if_pos (by omega)]
      simp
    · rw [cellRead_cellWrite_ne _ _ eq]
      by_cases inside : i + 1 ≤ j ∧ j < i + 1 + vs.length
      · rw [if_pos inside, if_pos (by omega)]
        obtain ⟨k, rfl⟩ : ∃ k, j = i + 1 + k := ⟨j - (i + 1), by omega⟩
        simp [show i + 1 + k - i = k + 1 by omega]
      · rw [if_neg inside, if_neg (by omega)]

/-- Outside the block a block write changes no element. -/
theorem cellRead_cellsWrite_outside {b : Cells w} {i j : Nat} {vs : List (BitVec w)} (h : j < i ∨ i + vs.length ≤ j) :
    cellRead (cellsWrite b i vs) j = cellRead b j := by
  rw [cellRead_cellsWrite, if_neg (by omega)]

/-- A block write in two parts. -/
theorem cellsWrite_append (b : Cells w) (i : Nat) (xs ys : List (BitVec w)) :
    cellsWrite b i (xs ++ ys) = cellsWrite (cellsWrite b i xs) (i + xs.length) ys := by
  induction xs generalizing b i with
  | nil => simp [cellsWrite]
  | cons x xs ih => simp [cellsWrite, ih, Nat.add_comm, Nat.add_left_comm]

/-- A block write keeps the canonical form. -/
theorem cellsWrite_wf {b : Cells w} (h : cellsWf b) (i : Nat) (vs : List (BitVec w)) : cellsWf (cellsWrite b i vs) := by
  induction vs generalizing b i with
  | nil => exact h
  | cons v vs ih => exact ih (cellWrite_wf h i v) (i + 1)

/-- The cells after a block write are new ones inside the block and cells that were there. -/
theorem mem_cellsWrite {b : Cells w} {i : Nat} {vs : List (BitVec w)} {c : Nat × BitVec w} (h : c ∈ cellsWrite b i vs) :
    (i ≤ c.1 ∧ c.1 < i + vs.length) ∨ c ∈ b := by
  induction vs generalizing b i with
  | nil => exact .inr h
  | cons v vs ih =>
    rcases ih h with inside | old
    · left
      simp only [List.length_cons]
      omega
    · rcases mem_cellWrite old with rfl | old
      · left
        simp
      · exact .inr old

/-- What a block read answers when every element is there. -/
theorem cellsRead_ok_iff (b : Cells w) (i n : Nat) (vs : List (BitVec w)) :
    cellsRead b i n = .ok vs ↔ vs.length = n ∧ ∀ k, k < n → cellRead b (i + k) = vs[k]? := by
  induction n generalizing i vs with
  | zero => simp [cellsRead, eq_comm, List.length_eq_zero_iff]
  | succ n ih =>
    simp only [cellsRead]
    cases read : cellRead b i with
    | none =>
      simp only [reduceCtorEq, false_iff, not_and]
      intro len all
      have := all 0 (by omega)
      rw [Nat.add_zero, read] at this
      have : vs.length ≤ 0 := List.getElem?_eq_none_iff.1 this.symm
      omega
    | some v =>
      cases rest : cellsRead b (i + 1) n with
      | error j =>
        simp only [reduceCtorEq, false_iff, not_and]
        intro len all
        have : cellsRead b (i + 1) n = .ok vs.tail := by
          rw [ih]
          refine ⟨by simp [len], fun k hk => ?_⟩
          have := all (k + 1) (by omega)
          rw [show i + 1 + k = i + (k + 1) by omega, this]
          simp
        rw [this] at rest
        cases rest
      | ok us =>
        have := (ih (i + 1) us).1 rest
        constructor
        · intro h
          cases h
          refine ⟨by simp [this.1], fun k hk => ?_⟩
          cases k with
          | zero => simpa using read
          | succ k =>
            rw [show i + (k + 1) = i + 1 + k by omega, this.2 k (by omega)]
            simp
        · rintro ⟨len, all⟩
          cases vs with
          | nil => simp at len
          | cons x xs =>
            have hx := all 0 (by omega)
            rw [Nat.add_zero, read] at hx
            simp only [List.length_cons, List.getElem?_cons_zero, Option.some.injEq] at len hx
            have hxs : cellsRead b (i + 1) n = .ok xs := by
              rw [ih]
              refine ⟨by omega, fun k hk => ?_⟩
              rw [show i + 1 + k = i + (k + 1) by omega, all (k + 1) (by omega)]
              simp
            rw [rest] at hxs
            cases hxs
            rw [hx]

/-- The length of what a block read answers. -/
theorem cellsRead_length {b : Cells w} {i n : Nat} {vs : List (BitVec w)} (h : cellsRead b i n = .ok vs) :
    vs.length = n := ((cellsRead_ok_iff b i n vs).1 h).1

/-- One element of what a block read answers. -/
theorem cellRead_of_cellsRead {b : Cells w} {i n k : Nat} {vs : List (BitVec w)} (h : cellsRead b i n = .ok vs)
    (hk : k < n) : cellRead b (i + k) = vs[k]? := ((cellsRead_ok_iff b i n vs).1 h).2 k hk

/-- Where a block read stops: the lowest index of the block that nothing has written. -/
theorem cellsRead_error {b : Cells w} {i n j : Nat} (h : cellsRead b i n = .error j) :
    i ≤ j ∧ j < i + n ∧ cellRead b j = none ∧ ∀ k, i ≤ k → k < j → cellRead b k ≠ none := by
  induction n generalizing i with
  | zero => cases h
  | succ n ih =>
    simp only [cellsRead] at h
    split at h
    · rename_i none
      cases h
      exact ⟨Nat.le_refl _, by omega, none, fun k h1 h2 => absurd h2 (by omega)⟩
    · rename_i v some
      split at h
      · rename_i stop
        cases h
        obtain ⟨h1, h2, h3, h4⟩ := ih stop
        refine ⟨by omega, by omega, h3, fun k hk hkj => ?_⟩
        by_cases eq : k = i
        · subst eq
          simp [some]
        · exact h4 k (by omega) hkj
      · cases h

/-- A block read of a block just written. -/
@[simp] theorem cellsRead_cellsWrite (b : Cells w) (i : Nat) (vs : List (BitVec w)) :
    cellsRead (cellsWrite b i vs) i vs.length = .ok vs := by
  rw [cellsRead_ok_iff]
  refine ⟨rfl, fun k hk => ?_⟩
  rw [cellRead_cellsWrite, if_pos (by omega)]
  simp

/-- A block read depends on the elements of the block only. -/
theorem cellsRead_congr {a b : Cells w} {i n : Nat} (h : ∀ k, i ≤ k → k < i + n → cellRead a k = cellRead b k) :
    cellsRead a i n = cellsRead b i n := by
  induction n generalizing i with
  | zero => rfl
  | succ n ih =>
    simp only [cellsRead, h i (Nat.le_refl _) (by omega)]
    rw [ih fun k h1 h2 => h k (by omega) (by omega)]

/-- Writing back what a canonical list holds already changes nothing. -/
theorem cellsWrite_of_read {b : Cells w} {i : Nat} {vs : List (BitVec w)} (wf : cellsWf b)
    (h : cellsRead b i vs.length = .ok vs) : cellsWrite b i vs = b :=
  cells_ext (cellsWrite_wf wf i vs) wf fun j => by
    rw [cellRead_cellsWrite]
    split
    · rename_i inside
      have := cellRead_of_cellsRead h (k := j - i) (by omega)
      rw [show i + (j - i) = j by omega] at this
      exact this.symm
    · rfl

/-! ## The memory of the machine -/

/-- The memory after reset is canonical. -/
theorem State.reset_mem_wf : State.reset.mem.wf := by decide

/-- Every write of the engine keeps the canonical form. -/
theorem State.writeDur_wf {s : State} (h : s.mem.wf) (i : Nat) (vs : List Half) : (s.writeDur i vs).mem.wf :=
  ⟨h.1, cellsWrite_wf h.2.1 i vs, h.2.2⟩

theorem State.writePay_wf {s : State} (h : s.mem.wf) (i : Nat) (bs : List Byte) : (s.writePay i bs).mem.wf :=
  ⟨h.1, h.2.1, cellsWrite_wf h.2.2.1 i bs, h.2.2.2⟩

theorem State.appendOut_wf {s : State} (h : s.mem.wf) (bs : List Byte) : (s.appendOut bs).mem.wf :=
  ⟨h.1, h.2.1, h.2.2.1, cellsWrite_wf h.2.2.2 _ bs⟩

/-- Every write of the host keeps the canonical form. -/
theorem Memory.hostHex_wf {m : Memory} (h : m.wf) (i : Nat) (c : Byte) :
    Memory.wf { m with hex := cellWrite m.hex i c } := ⟨cellWrite_wf h.1 i c, h.2⟩

theorem Memory.hostDur_wf {m : Memory} (h : m.wf) (i : Nat) (v : Half) :
    Memory.wf { m with dur := cellWrite m.dur i v } := ⟨h.1, cellWrite_wf h.2.1 i v, h.2.2⟩

theorem Memory.hostPay_wf {m : Memory} (h : m.wf) (i : Nat) (b : Byte) :
    Memory.wf { m with pay := cellWrite m.pay i b } := ⟨h.1, h.2.1, cellWrite_wf h.2.2.1 i b, h.2.2.2⟩

end Sys2Proof.Machine
end

