-- ==== Sys2Proof/Laws/Ops.lean ====
section
/-!
SUPPORT. What the shared operations can do: the capacities, the length check, the frame of a command and of a record handed
alone. Each is said once, in both directions where a proof needs both.
-/

namespace Sys2Proof.Machine

/-! ## Capacities -/

/-- `NMAX` is in its range, whatever the open choice is (00_scope.md R10). -/
theorem nmax_range : 131070 ≤ Config.nmax ∧ Config.nmax ≤ 4164816770 := by
  unfold Config.nmax
  generalize Config.nmaxChoice = n
  omega

/-- A 32-bit `OUTLEN` holds `OUTCAP`. -/
theorem outCap_lt : Config.outCap < 2 ^ 32 := by
  have := nmax_range
  simp only [Config.outCap]
  omega

/-- A payload that fits `PAY` has a level-0 stream that fits `OUT`. -/
theorem level0_fits {n : Nat} (h : n ≤ Config.nmax) : n + (n + 31) / 32 ≤ Config.outCap := by
  simp only [Config.outCap]
  omega

/-- A count below `2 ^ 32` survives in a length register. -/
theorem toNat_lenWord {n : Nat} (h : n < 2 ^ 32) : (lenWord n).toNat = n := by
  simp only [lenWord, BitVec.toNat_ofNat]
  omega

/-- A length register written back from its own value. -/
@[simp] theorem lenWord_toNat (v : Word) : lenWord v.toNat = v := by simp [lenWord]

/-- `OUTLEN` after an append that fits 32 bits. -/
theorem toNat_appendOut {s : State} {bs : List Byte} (h : s.outlen.toNat + bs.length < 2 ^ 32) :
    (s.appendOut bs).outlen.toNat = s.outlen.toNat + bs.length := by
  simp only [State.appendOut, BitVec.toNat_add, BitVec.toNat_ofNat]
  omega

/-- A payload fits `PAY` exactly up to `NMAX`. -/
@[simp] theorem payFits_iff (n : Nat) : payFits n = true ↔ n ≤ Config.nmax := by
  have := nmax_range
  simp only [payFits, Bool.or_eq_true, decide_eq_true_eq]
  omega

/-- A stream fits `OUT` exactly up to `OUTCAP`. -/
@[simp] theorem outFits_iff (n : Nat) : outFits n = true ↔ n ≤ Config.outCap := by
  have : 135166 ≤ Config.outCap := level0_fits nmax_range.1
  simp only [outFits, Bool.or_eq_true, decide_eq_true_eq]
  omega

/-- A cell exists exactly below its buffer's capacity. -/
@[simp] theorem inCapacity_iff (buf : Buffer) (i : Nat) : inCapacity buf i = true ↔ i < capacity buf := by
  cases buf <;> simp [inCapacity, capacity]

/-! ## The length check -/

/-- The length register a command is checked on, and the capacity it is checked against (47_commands.md R249). -/
theorem checkLen_eq (c : Running) (s : State) :
    checkLen c s =
      match c with
      | .decode | .convert =>
        if 131078 < s.hexlen.toNat then some { cause := .lenRange, off := s.hexlen.toNat } else none
      | .filter | .pack =>
        if 65535 < s.durlen.toNat then some { cause := .lenRange, off := s.durlen.toNat } else none
      | .compress =>
        if Config.nmax < s.paylen.toNat then some { cause := .lenRange, off := s.paylen.toNat } else none := by
  cases c with
  | compress =>
    simp only [checkLen, payFits_iff]
    split_ifs <;> first | rfl | omega
  | decode | filter | pack | convert => rfl

/-- The length check raises `LEN_RANGE` and nothing else. -/
theorem checkLen_cause {c : Running} {s : State} {r : Raise} (h : checkLen c s = some r) : r.cause = .lenRange := by
  rw [checkLen_eq] at h
  cases c <;> simp only at h <;> split at h <;> cases h <;> rfl

/-- `BUSY` does not change what is checked. -/
@[simp] theorem checkLen_setState (c : Running) (s : State) (v : BitVec 2) : checkLen c (s.setState v) = checkLen c s := by
  cases c <;> rfl

/-! ## The frame of a command -/

section command

variable {α : Type} {c : Running} {body : State → Body α} {s t : State}

/-- In `FAULT` a command changes nothing. -/
theorem runCommand_inFault (h : s.inFault = true) : runCommand c body s = .next s := by simp [runCommand, h]

/-- A command stopped by the length check. -/
theorem runCommand_len {r : Raise} (h : s.inFault = false) (len : checkLen c s = some r) :
    runCommand c body s = .next ((faultEntry (some c) r (s.setState stBusy)).endCall c) := by
  simp [runCommand, h, len]

/-- A command whose body completes. -/
theorem runCommand_done {a : α} {u : State} (h : s.inFault = false) (len : checkLen c s = none)
    (run : body (s.setState stBusy) = .done a u) : runCommand c body s = .next ((u.setState stReady).endCall c) := by
  simp [runCommand, h, len, run]

/-- A command whose body raises. -/
theorem runCommand_raised {r : Raise} {u : State} (h : s.inFault = false) (len : checkLen c s = none)
    (run : body (s.setState stBusy) = .raised r u) : runCommand c body s = .next ((faultEntry (some c) r u).endCall c) := by
  simp [runCommand, h, len, run]

/-- A command whose input has a cell that nothing has written. -/
theorem runCommand_unwritten {buf : Buffer} {i : Nat} (h : s.inFault = false) (len : checkLen c s = none)
    (run : body (s.setState stBusy) = .unwritten buf i) :
    runCommand c body s = .refused (.unwrittenCell buf i) := by
  simp [runCommand, h, len, run]

/-- Everything a command can do when it has a next state. -/
theorem runCommand_cases (h : runCommand c body s = .next t) :
    (s.inFault = true ∧ t = s)
    ∨ (s.inFault = false ∧ ∃ r, checkLen c s = some r ∧ t = ((faultEntry (some c) r (s.setState stBusy)).endCall c))
    ∨ (s.inFault = false ∧ checkLen c s = none
        ∧ ((∃ a u, body (s.setState stBusy) = .done a u ∧ t = ((u.setState stReady).endCall c))
          ∨ ∃ r u, body (s.setState stBusy) = .raised r u ∧ t = ((faultEntry (some c) r u).endCall c))) := by
  cases fault : s.inFault with
  | true =>
    rw [runCommand_inFault fault] at h
    cases h
    exact .inl ⟨rfl, rfl⟩
  | false =>
    cases len : checkLen c s with
    | some r =>
      rw [runCommand_len fault len] at h
      cases h
      exact .inr (.inl ⟨rfl, r, rfl, rfl⟩)
    | none =>
      refine .inr (.inr ⟨rfl, rfl, ?_⟩)
      cases run : body (s.setState stBusy) with
      | done a u =>
        rw [runCommand_done fault len run] at h
        cases h
        exact .inl ⟨a, u, rfl, rfl⟩
      | raised r u =>
        rw [runCommand_raised fault len run] at h
        cases h
        exact .inr ⟨r, u, rfl, rfl⟩
      | unwritten buf i =>
        rw [runCommand_unwritten fault len run] at h
        cases h

/-- A command never stops with a fault of the model. -/
theorem runCommand_ne_fault (f : Fault) : runCommand c body s ≠ .fault f := by
  simp only [runCommand]
  split
  · simp
  · split
    · simp
    · split <;> simp

/-- A command is refused only for a cell of its input that nothing has written. -/
theorem runCommand_refused {r : Refusal} (h : runCommand c body s = .refused r) :
    s.inFault = false ∧ checkLen c s = none
      ∧ ∃ buf i, body (s.setState stBusy) = .unwritten buf i ∧ r = .unwrittenCell buf i := by
  cases fault : s.inFault with
  | true =>
    rw [runCommand_inFault fault] at h
    cases h
  | false =>
    cases len : checkLen c s with
    | some q =>
      rw [runCommand_len fault len] at h
      cases h
    | none =>
      cases run : body (s.setState stBusy) with
      | done a u =>
        rw [runCommand_done fault len run] at h
        cases h
      | raised q u =>
        rw [runCommand_raised fault len run] at h
        cases h
      | unwritten buf i =>
        rw [runCommand_unwritten fault len run] at h
        cases h
        exact ⟨rfl, rfl, buf, i, rfl, rfl⟩

end command

/-! ## The frame of a record -/

section record

variable {c : Running} {op : State → RecordStep} {s t : State}

theorem runRecord_done {u : State} (h : s.inFault = false) (run : op s = .done u) : runRecord c op s = .next u := by
  simp [runRecord, h, run]

theorem runRecord_raised {r : Raise} (h : s.inFault = false) (run : op s = .raised r) :
    runRecord c op s = .next ((faultEntry (some c) r s).endCall c) := by simp [runRecord, h, run]

/-- Everything a record handed alone can do when it has a next state. -/
theorem runRecord_cases (h : runRecord c op s = .next t) :
    (s.inFault = true ∧ t = s)
    ∨ (s.inFault = false ∧ op s = .done t)
    ∨ (s.inFault = false ∧ ∃ r, op s = .raised r ∧ t = ((faultEntry (some c) r s).endCall c)) := by
  simp only [runRecord] at h
  split at h
  · rename_i fault
    cases h
    exact .inl ⟨fault, rfl⟩
  · rename_i fault
    simp only [Bool.not_eq_true] at fault
    split at h
    · rename_i run
      cases h
      exact .inr (.inl ⟨fault, run⟩)
    · rename_i r run
      cases h
      exact .inr (.inr ⟨fault, r, run, rfl⟩)
    · cases h

end record

/-! ## Taking a fault -/

/-- A fault of a running command: its output lengths, then the record. -/
theorem faultEntry_some (c : Running) (r : Raise) (s : State) :
    faultEntry (some c) r s = (zeroOutputs c s).recordFault r := rfl

/-- A fault with no running command writes `STATUS` and `ERROFF` only. -/
theorem faultEntry_none (r : Raise) (s : State) : faultEntry none r s = s.recordFault r := rfl

/-- Fault entry leaves the memory, the input length registers and the inbox alone. -/
@[simp] theorem faultEntry_mem (c : Option Running) (r : Raise) (s : State) : (faultEntry c r s).mem = s.mem := by
  cases c <;> simp [faultEntry]

@[simp] theorem faultEntry_hexlen (c : Option Running) (r : Raise) (s : State) : (faultEntry c r s).hexlen = s.hexlen := by
  cases c <;> simp [faultEntry]

@[simp] theorem faultEntry_inbox (c : Option Running) (r : Raise) (s : State) : (faultEntry c r s).inbox = s.inbox := by
  cases c <;> simp [faultEntry]

@[simp] theorem faultEntry_hostRead (c : Option Running) (r : Raise) (s : State) :
    (faultEntry c r s).hostRead = s.hostRead := by
  cases c <;> simp [faultEntry]

@[simp] theorem faultEntry_work (c : Option Running) (r : Raise) (s : State) : (faultEntry c r s).work = s.work := by
  cases c <;> simp [faultEntry]

@[simp] theorem faultEntry_status (c : Option Running) (r : Raise) (s : State) :
    (faultEntry c r s).status = faultStatus r.cause := by
  cases c <;> rfl

@[simp] theorem faultEntry_erroff (c : Option Running) (r : Raise) (s : State) :
    (faultEntry c r s).erroff = BitVec.ofNat 32 r.off := by
  cases c <;> rfl

/-! ## One step -/

/-- With nothing pending a step changes nothing. -/
theorem step_idle {s : State} (h : s.inbox = []) : step s = .next s := by simp [step, h]

/-- A step takes the access at the front of the inbox. -/
theorem step_access {s : State} {a : Access} {rest : List Access} (h : s.inbox = a :: rest) :
    step s = access a { s with inbox := rest } := by simp [step, h]

/-- Everything a host write of a buffer can do. -/
theorem hostWrite_cases {buf : Buffer} {i : Nat} {m : Memory} {s t : State} (h : hostWrite buf i m s = .next t) :
    i < capacity buf ∧ t = { s with mem := m } := by
  simp only [hostWrite] at h
  split at h
  · cases h
    exact ⟨(inCapacity_iff _ _).1 ‹_›, rfl⟩
  · cases h

/-- Everything a host read of a buffer can do. -/
theorem hostReadCell_cases {buf : Buffer} {i : Nat} {s t : State} (h : hostReadCell buf i s = .next t) :
    i < capacity buf
      ∧ ((buf = .out ∧ s.outlen.toNat ≤ i
            ∧ t = s.returned ((Config.freeOut i s.outDraw).setWidth 32))
        ∨ (¬ (buf = .out ∧ s.outlen.toNat ≤ i) ∧ ∃ v, s.mem.readCell buf i = some v ∧ t = s.returned v)) := by
  simp only [hostReadCell] at h
  split at h
  · refine ⟨(inCapacity_iff _ _).1 ‹_›, ?_⟩
    split at h
    · rename_i above
      cases h
      exact .inl ⟨above.1, above.2, rfl⟩
    · rename_i below
      split at h
      · rename_i v read
        cases h
        exact .inr ⟨below, v, read, rfl⟩
      · cases h
  · cases h

end Sys2Proof.Machine
end

