-- ==== Sys2Proof/Laws/PerInstr.lean ====
section
/-!
SUPPORT. The per-instruction family: how many bytes an instruction's encoding has, against the bits its row of
spec/opcode_table.json gives it. The data bytes of a literal are the only operand the row gives no bits.
-/

namespace Sys2Proof.Laws

/-- The bytes of an instruction that its opcode-table row gives no bits. -/
def dataBytes : Instr → Nat
  | .lit data => data.length
  | _ => 0

/-- A well-formed instruction takes its row's bits and its data bytes, and at most 33 bytes in all. -/
def EncodedSize.Statement (i : Instr) : Prop :=
  i.wf = true → 8 * (encode i).length = rowBits i + 8 * dataBytes i ∧ 1 ≤ (encode i).length ∧ (encode i).length ≤ 33

theorem EncodedSize.clear : EncodedSize.Statement .clear := fun _ => by decide
theorem EncodedSize.decode : EncodedSize.Statement .decode := fun _ => by decide
theorem EncodedSize.filter : EncodedSize.Statement .filter := fun _ => by decide
theorem EncodedSize.pack : EncodedSize.Statement .pack := fun _ => by decide
theorem EncodedSize.compressL0 : EncodedSize.Statement .compressL0 := fun _ => by decide
theorem EncodedSize.compressL1 : EncodedSize.Statement .compressL1 := fun _ => by decide
theorem EncodedSize.compressL2 : EncodedSize.Statement .compressL2 := fun _ => by decide
theorem EncodedSize.compressL3 : EncodedSize.Statement .compressL3 := fun _ => by decide
theorem EncodedSize.convertL0 : EncodedSize.Statement .convertL0 := fun _ => by decide
theorem EncodedSize.convertL1 : EncodedSize.Statement .convertL1 := fun _ => by decide
theorem EncodedSize.convertL2 : EncodedSize.Statement .convertL2 := fun _ => by decide
theorem EncodedSize.convertL3 : EncodedSize.Statement .convertL3 := fun _ => by decide

theorem EncodedSize.cmdReserved (w : Word) : EncodedSize.Statement (.cmdReserved w) := by
  intro _
  simp [encode, wordBytes, rowBits, dataBytes]

theorem EncodedSize.frameHdr (l h : Byte) : EncodedSize.Statement (.frameHdr l h) := by
  intro _
  simp [encode, rowBits, dataBytes]

theorem EncodedSize.tick1 (t : Byte) : EncodedSize.Statement (.tick1 t) := by
  intro _
  simp [encode, rowBits, dataBytes]

theorem EncodedSize.tick3 (h l : Byte) : EncodedSize.Statement (.tick3 h l) := by
  intro _
  simp [encode, rowBits, dataBytes]

theorem EncodedSize.paydur (l h : Byte) : EncodedSize.Statement (.paydur l h) := by
  intro _
  simp [encode, rowBits, dataBytes]

theorem EncodedSize.lit (data : List Byte) : EncodedSize.Statement (.lit data) := by
  intro wf
  simp only [Instr.wf, Bool.and_eq_true, decide_eq_true_eq] at wf
  simp only [encode, rowBits, dataBytes, List.length_cons]
  omega

theorem EncodedSize.matchs (l : BitVec 3) (h : BitVec 5) (e : Byte) : EncodedSize.Statement (.matchs l h e) := by
  intro _
  simp [encode, rowBits, dataBytes]

theorem EncodedSize.matchl (h : BitVec 5) (c e : Byte) : EncodedSize.Statement (.matchl h c e) := by
  intro _
  simp [encode, rowBits, dataBytes]

end Sys2Proof.Laws
end

