-- ==== Sys2Proof/Laws/Stages.lean ====
section
/-!
SUPPORT. What the shared operations of `DECODE`, `FILTER`, `PACK` and `CONVERT` can do.
-/

namespace Sys2Proof.Machine

/-! ## The TimingDecoder -/

/-- A frame byte that is read has two hexadecimal characters. -/
theorem fbyte_ok_iff (hex : List Byte) (i : Nat) (b : Byte) :
    fbyte hex i = .ok b ↔ ∃ x y, nib (hex.getD (2 * i) 0) = some x ∧ nib (hex.getD (2 * i + 1) 0) = some y ∧ b = x ++ y := by
  simp only [fbyte]
  cases nib (hex.getD (2 * i) 0) with
  | none => simp
  | some x =>
    cases nib (hex.getD (2 * i + 1) 0) with
    | none => simp
    | some y => simp [eq_comm]

/-- A frame byte that is not read raises `BAD_HEX` at the first character that is not hexadecimal. -/
theorem fbyte_error {hex : List Byte} {i : Nat} {r : Raise} (h : fbyte hex i = .error r) :
    r.cause = .badHex ∧ (r.off = 2 * i ∨ r.off = 2 * i + 1) ∧ nib (hex.getD r.off 0) = none := by
  simp only [fbyte] at h
  split at h
  · cases h
    exact ⟨rfl, .inl rfl, ‹_›⟩
  · split at h
    · cases h
      exact ⟨rfl, .inr rfl, ‹_›⟩
    · cases h

/-- What the conversion of one count can do. -/
theorem unitDur_cases (ovf : Config.DurOvf) (cur t : Nat) :
    (tickToDur t ≤ 65535 ∧ unitDur ovf cur t = .ok (BitVec.ofNat 16 (tickToDur t)))
    ∨ (65535 < tickToDur t ∧ ovf = .saturate ∧ unitDur ovf cur t = .ok 65535)
    ∨ (65535 < tickToDur t ∧ ovf = .fault
        ∧ unitDur ovf cur t = .error { cause := .durRange, off := 2 * (4 + cur) }) := by
  by_cases h : 65535 < tickToDur t
  · cases ovf with
    | fault => exact .inr (.inr ⟨h, rfl, by simp [unitDur, h]⟩)
    | saturate => exact .inr (.inl ⟨h, rfl, by simp [unitDur, h, Config.sentinel]⟩)
  · exact .inl ⟨by omega, by simp [unitDur, h]⟩

/-- What the reading of one unit can do: a one-byte unit, an escaped unit inside the region, or a `DecodeError`. -/
theorem unitCount_cases (hex : List Byte) (cur declen : Nat) :
    (∃ b, fbyte hex (4 + cur) = .ok b ∧ b ≠ 0 ∧ unitCount hex cur declen = .ok (tick1Count b, 1))
    ∨ (∃ h l, fbyte hex (4 + cur) = .ok 0 ∧ cur + 3 ≤ declen ∧ fbyte hex (4 + cur + 1) = .ok h
        ∧ fbyte hex (4 + cur + 2) = .ok l ∧ unitCount hex cur declen = .ok (tick3Count h l, 3))
    ∨ (∃ r, unitCount hex cur declen = .error r ∧ causeKind r.cause = .decodeError) := by
  simp only [unitCount]
  cases first : fbyte hex (4 + cur) with
  | error r => exact .inr (.inr ⟨r, rfl, by rw [(fbyte_error first).1]; rfl⟩)
  | ok b =>
    by_cases zero : b = 0
    · subst zero
      by_cases room : declen < cur + 3
      · exact .inr (.inr ⟨{ cause := .truncEscape, off := 2 * (4 + cur) }, by simp [escapeCheck, room], rfl⟩)
      · cases high : fbyte hex (4 + cur + 1) with
        | error r => exact .inr (.inr ⟨r, by simp [escapeCheck, room], by rw [(fbyte_error high).1]; rfl⟩)
        | ok h =>
          cases low : fbyte hex (4 + cur + 2) with
          | error r => exact .inr (.inr ⟨r, by simp [escapeCheck, room], by rw [(fbyte_error low).1]; rfl⟩)
          | ok l => exact .inr (.inl ⟨h, l, rfl, by omega, rfl, rfl, by simp [escapeCheck, room]⟩)
    · exact .inl ⟨b, rfl, zero, if_neg zero⟩

/-- A unit that is decoded: its count, the bytes it takes, and the registers it advances. -/
theorem decUnit_ok {ovf : Config.DurOvf} {hex : List Byte} {w u : Work} {v : Half}
    (h : decUnit ovf hex w = .ok (v, u)) :
    ∃ t used, unitCount hex w.cur w.declen = .ok (t, used) ∧ unitDur ovf w.cur t = .ok v
      ∧ u = { w with cur := w.cur + used, durIdx := w.durIdx + 1 } := by
  simp only [decUnit] at h
  split at h
  · cases h
  · rename_i t used count
    split at h
    · cases h
    · rename_i dur
      cases h
      exact ⟨t, used, count, dur, rfl⟩

/-- A unit takes at least one byte of the region. -/
theorem unitCount_used {hex : List Byte} {cur declen t used : Nat} (h : unitCount hex cur declen = .ok (t, used)) :
    1 ≤ used ∧ (used = 3 → cur + 3 ≤ declen) ∧ (used = 1 ∨ used = 3) := by
  rcases unitCount_cases hex cur declen with ⟨b, _, _, run⟩ | ⟨x, y, _, room, _, _, run⟩ | ⟨r, run, _⟩
  · rw [run] at h
    cases h
    exact ⟨Nat.le_refl _, fun h => by omega, .inl rfl⟩
  · rw [run] at h
    cases h
    exact ⟨by omega, fun _ => room, .inr rfl⟩
  · rw [run] at h
    cases h

/-- What a unit that is not decoded raises is a `DecodeError`. -/
theorem decUnit_error {ovf : Config.DurOvf} {hex : List Byte} {w : Work} {r : Raise}
    (h : decUnit ovf hex w = .error r) : causeKind r.cause = .decodeError := by
  simp only [decUnit] at h
  split at h
  · rename_i q count
    cases h
    rcases unitCount_cases hex w.cur w.declen with ⟨b, _, _, run⟩ | ⟨x, y, _, room, _, _, run⟩ | ⟨r', run, kind⟩
    · rw [run] at count
      cases count
    · rw [run] at count
      cases count
    · rw [run] at count
      cases count
      exact kind
  · rename_i t used count
    split at h
    · rename_i q dur
      cases h
      rcases unitDur_cases ovf w.cur t with ⟨_, run⟩ | ⟨_, _, run⟩ | ⟨_, _, run⟩
      · rw [run] at dur
        cases dur
      · rw [run] at dur
        cases dur
      · rw [run] at dur
        cases dur
        rfl
    · cases h

/-- The loop of `DECODE` produces at most one Duration for each byte of the region. -/
theorem decLoop_length (ovf : Config.DurOvf) (hex : List Byte) (n : Nat) (w : Work) :
    (decLoop ovf hex n w).1.length ≤ w.declen - w.cur := by
  induction n generalizing w with
  | zero => simp [decLoop]
  | succ n ih =>
    simp only [decLoop]
    split
    · split
      · simp
      · rename_i more v u run
        obtain ⟨t, used, count, _, rfl⟩ := decUnit_ok run
        have := ih { w with cur := w.cur + used, durIdx := w.durIdx + 1 }
        have := (unitCount_used count).1
        simp only [List.length_cons] at *
        omega
    · simp

/-- What the loop of `DECODE` raises is a `DecodeError`. -/
theorem decLoop_raise {ovf : Config.DurOvf} {hex : List Byte} {n : Nat} {w : Work} {r : Raise}
    (h : (decLoop ovf hex n w).2 = some r) : causeKind r.cause = .decodeError := by
  induction n generalizing w with
  | zero => simp [decLoop] at h
  | succ n ih =>
    simp only [decLoop] at h
    split at h
    · split at h
      · rename_i run
        simp only [Option.some.injEq] at h
        exact h ▸ decUnit_error run
      · exact ih h
    · simp at h

/-- What the header can come to. -/
theorem decHeader_ok {hex : List Byte} {hexlen n : Nat} (h : decHeader hex hexlen = .ok n) :
    8 ≤ hexlen ∧ ∃ l k, fbyte hex 2 = .ok l ∧ fbyte hex 3 = .ok k ∧ n = headerLen l k ∧ 8 + 2 * n ≤ hexlen := by
  simp only [decHeader] at h
  split at h
  · cases h
  · split at h
    · cases h
    · rename_i l low
      split at h
      · cases h
      · rename_i k high
        simp only [headerDeclen] at h
        split at h
        · cases h
        · cases h
          exact ⟨by omega, l, k, low, high, rfl, by omega⟩

theorem decHeader_error {hex : List Byte} {hexlen : Nat} {r : Raise} (h : decHeader hex hexlen = .error r) :
    causeKind r.cause = .decodeError := by
  simp only [decHeader] at h
  split at h
  · cases h
    rfl
  · split at h
    · rename_i low
      cases h
      rw [(fbyte_error low).1]
      rfl
    · split at h
      · rename_i high
        cases h
        rw [(fbyte_error high).1]
        rfl
      · simp only [headerDeclen] at h
        split at h
        · cases h
          rfl
        · cases h

/-- A region length fits 16 bits. -/
theorem headerLen_lt (l h : Byte) : headerLen l h < 65536 := (half h l).isLt

/-- Everything the body of `DECODE` can do: only `DUR`, from index 0, and `DURLEN` change. -/
theorem decodeBody_cases (ovf : Config.DurOvf) (hex : List Byte) (s : State) :
    (∃ r, decHeader hex s.hexlen.toNat = .error r ∧ decodeBody ovf hex s = .raised r { s with durlen := 0 })
    ∨ (∃ n durs r, decHeader hex s.hexlen.toNat = .ok n
        ∧ decLoop ovf hex n { s.work with declen := n, cur := 0, durIdx := 0 } = (durs, some r)
        ∧ decodeBody ovf hex s = .raised r (({ s with durlen := 0 } : State).writeDur 0 durs))
    ∨ (∃ n durs, decHeader hex s.hexlen.toNat = .ok n
        ∧ decLoop ovf hex n { s.work with declen := n, cur := 0, durIdx := 0 } = (durs, none)
        ∧ decodeBody ovf hex s
          = .done durs { ({ s with durlen := 0 } : State).writeDur 0 durs with durlen := lenWord durs.length }) := by
  simp only [decodeBody]
  cases head : decHeader hex s.hexlen.toNat with
  | error r => exact .inl ⟨r, rfl, rfl⟩
  | ok n =>
    rcases loop : decLoop ovf hex n { s.work with declen := n, cur := 0, durIdx := 0 } with ⟨durs, _ | r⟩
    · exact .inr (.inr ⟨n, durs, rfl, loop, by simp [loop]⟩)
    · exact .inr (.inl ⟨n, durs, r, rfl, loop, by simp [loop]⟩)

/-! ## The PulseFilter and the PayloadPacker -/

/-- `FILTER` keeps no sentinel and at most what was there. -/
theorem mem_keepDurations {durs : List Half} {v : Half} : v ∈ keepDurations durs ↔ v ∈ durs ∧ v ≠ 65535 := by
  simp [keepDurations, Config.sentinel]

theorem keepDurations_length_le (durs : List Half) : (keepDurations durs).length ≤ durs.length :=
  List.length_filter_le _ _

/-- What one step of `PACK`'s loop can do. -/
theorem packDuration_eq (k : Nat) (v : Half) :
    packDuration k v =
      if v = 65535 then .error { cause := .packSentinel, off := k } else .ok [lowByte v, highByte v] := rfl

/-- The bytes of a duration list with no sentinel. -/
theorem packLoop_ok {durs : List Half} (h : 65535 ∉ durs) (k : Nat) :
    packLoop k durs = (durs.flatMap fun v => [lowByte v, highByte v], none) := by
  induction durs generalizing k with
  | nil => rfl
  | cons v durs ih =>
    simp only [List.mem_cons, not_or] at h
    simp only [packLoop, packDuration_eq, if_neg (Ne.symm h.1), ih h.2, List.flatMap_cons]

/-- Where `PACK` raises: at the first sentinel, with the bytes of the durations before it produced. -/
theorem packLoop_sentinel {before : List Half} (h : 65535 ∉ before) (after : List Half) (k : Nat) :
    packLoop k (before ++ 65535 :: after)
      = (before.flatMap fun v => [lowByte v, highByte v],
          some { cause := .packSentinel, off := k + before.length }) := by
  induction before generalizing k with
  | nil => simp [packLoop, packDuration_eq]
  | cons v before ih =>
    simp only [List.mem_cons, not_or] at h
    simp only [List.cons_append, packLoop, packDuration_eq, if_neg (Ne.symm h.1), ih h.2, List.flatMap_cons,
      List.length_cons]
    rw [Nat.add_assoc, Nat.add_comm 1]

/-- `PACK` produces at most two bytes for each duration, and all of them when it does not raise. -/
theorem packLoop_length_le (k : Nat) (durs : List Half) : (packLoop k durs).1.length ≤ 2 * durs.length := by
  induction durs generalizing k with
  | nil => simp [packLoop]
  | cons v durs ih =>
    simp only [packLoop, packDuration_eq]
    split_ifs
    · simp
    · have := ih (k + 1)
      simp only [List.length_append, List.length_cons, List.length_nil]
      omega

/-- What `PACK` raises is `PACK_SENTINEL`. -/
theorem packLoop_raise {k : Nat} {durs : List Half} {r : Raise} (h : (packLoop k durs).2 = some r) :
    r.cause = .packSentinel := by
  induction durs generalizing k with
  | nil => simp [packLoop] at h
  | cons v durs ih =>
    simp only [packLoop, packDuration_eq] at h
    split_ifs at h
    · simp only [Option.some.injEq] at h
      rw [← h]
    · exact ih h

/-- Everything the body of `PACK` can do: only `PAY`, from index 0, and `PAYLEN` change. -/
theorem packBody_cases (durs : List Half) (s : State) :
    (∃ bytes r, packLoop 0 durs = (bytes, some r)
        ∧ packBody durs s = .raised r (({ s with paylen := 0 } : State).writePay 0 bytes))
    ∨ (∃ bytes, packLoop 0 durs = (bytes, none)
        ∧ packBody durs s
          = .done bytes { ({ s with paylen := 0 } : State).writePay 0 bytes with paylen := lenWord (2 * durs.length) }) := by
  rcases loop : packLoop 0 durs with ⟨bytes, _ | r⟩
  · exact .inr ⟨bytes, rfl, by simp [packBody, loop]⟩
  · exact .inl ⟨bytes, r, rfl, by simp [packBody, loop]⟩

/-! ## Stages in a row -/

/-- A composite command goes on only where the stage before it completed. -/
theorem thenStage_done {α β : Type} {b : Body α} {next : α → State → Body β} {x : β} {t : State}
    (h : thenStage b next = .done x t) : ∃ a u, b = .done a u ∧ next a u = .done x t := by
  cases b with
  | done a u => exact ⟨a, u, rfl, h⟩
  | raised r u => cases h
  | unwritten buf i => cases h

/-- What a composite command raises comes from one of its stages. -/
theorem thenStage_raised {α β : Type} {b : Body α} {next : α → State → Body β} {r : Raise} {t : State}
    (h : thenStage b next = .raised r t) : b = .raised r t ∨ ∃ a u, b = .done a u ∧ next a u = .raised r t := by
  cases b with
  | done a u => exact .inr ⟨a, u, rfl, h⟩
  | raised q u =>
    cases h
    exact .inl rfl
  | unwritten buf i => cases h

@[simp] theorem thenStage_of_done {α β : Type} (a : α) (u : State) (next : α → State → Body β) :
    thenStage (.done a u) next = next a u := rfl

@[simp] theorem thenStage_of_raised {α β : Type} (r : Raise) (u : State) (next : α → State → Body β) :
    thenStage (.raised r u) next = .raised r u := rfl

end Sys2Proof.Machine
end

