-- ==== Sys2Proof/Laws/Streams.lean ====
section
/-!
SUPPORT. What the shared operations of `COMPRESS` can do: the emitters, the MatchFinder, the SuffixIndex and the OptimalParser.
-/

namespace Sys2Proof.Machine

/-! ## The emitters -/

/-- A piece in range is its header and its bytes; any other piece raises `LIT_RANGE`. -/
theorem literalBytes_eq (data : List Byte) (p : Nat) :
    literalBytes data p =
      if 1 ≤ data.length ∧ data.length ≤ 32 then .ok (BitVec.ofNat 8 (data.length - 1) :: data)
      else .error { cause := .litRange, off := p } := by
  change (if data.length < 1 ∨ 32 < data.length then _ else _) = _
  by_cases h : 1 ≤ data.length ∧ data.length ≤ 32
  · rw [if_neg (by omega), if_pos h]
    rfl
  · rw [if_pos (by omega), if_neg h]

/-- What `EMIT_MATCH` can do. -/
theorem emitMatch_cases (len dist p : Nat) :
    (1 ≤ dist ∧ dist ≤ 8192 ∧ 3 ≤ len ∧ len ≤ 264 ∧ emitMatch len dist p = .ok (encode (matchRecord len dist)))
    ∨ (¬ (1 ≤ dist ∧ dist ≤ 8192) ∧ emitMatch len dist p = .error { cause := .distRange, off := p })
    ∨ (1 ≤ dist ∧ dist ≤ 8192 ∧ ¬ (3 ≤ len ∧ len ≤ 264)
        ∧ emitMatch len dist p = .error { cause := .mlenRange, off := p }) := by
  have unfolded : emitMatch len dist p =
      if dist < 1 ∨ 8192 < dist then .error { cause := .distRange, off := p }
      else if len < 3 ∨ 264 < len then .error { cause := .mlenRange, off := p }
      else .ok (encode (matchRecord len dist)) := rfl
  rw [unfolded]
  by_cases d : dist < 1 ∨ 8192 < dist
  · exact .inr (.inl ⟨by omega, if_pos d⟩)
  · by_cases l : len < 3 ∨ 264 < len
    · exact .inr (.inr ⟨by omega, by omega, by omega, by rw [if_neg d, if_pos l]⟩)
    · exact .inl ⟨by omega, by omega, by omega, by omega, by rw [if_neg d, if_neg l]⟩

/-- The record of a short match carries its length and its distance. -/
theorem matchRecord_short {len dist : Nat} (len3 : 3 ≤ len) (len8 : len ≤ 8) (d1 : 1 ≤ dist) (d : dist ≤ 8192) :
    ∃ l h e, matchRecord len dist = .matchs l h e ∧ (Instr.matchs l h e).wf = true ∧ matchsLen l = len
      ∧ matchDist h e = dist := by
  refine ⟨BitVec.ofNat 3 (len - 2), BitVec.ofNat 5 ((dist - 1) / 256), BitVec.ofNat 8 (dist - 1), ?_, ?_, ?_, ?_⟩
  · simp only [matchRecord]
    rw [if_neg (by omega)]
  · have : len = 3 ∨ len = 4 ∨ len = 5 ∨ len = 6 ∨ len = 7 ∨ len = 8 := by omega
    rcases this with rfl | rfl | rfl | rfl | rfl | rfl <;> rfl
  · simp only [matchsLen, BitVec.toNat_ofNat]
    omega
  · simp only [matchDist, BitVec.toNat_ofNat]
    omega

/-- The record of a long match carries its length and its distance. -/
theorem matchRecord_long {len dist : Nat} (len9 : 9 ≤ len) (len264 : len ≤ 264) (d1 : 1 ≤ dist) (d : dist ≤ 8192) :
    ∃ h c e, matchRecord len dist = .matchl h c e ∧ matchlLen c = len ∧ matchDist h e = dist := by
  refine ⟨BitVec.ofNat 5 ((dist - 1) / 256), BitVec.ofNat 8 (len - 2 - 7), BitVec.ofNat 8 (dist - 1), ?_, ?_, ?_⟩
  · simp only [matchRecord]
    rw [if_pos (by omega)]
  · simp only [matchlLen, BitVec.toNat_ofNat]
    omega
  · simp only [matchDist, BitVec.toNat_ofNat]
    omega

/-- A match block is as long as its edge costs. -/
theorem encode_matchRecord_length (len dist : Nat) (h : 3 ≤ len) :
    (encode (matchRecord len dist)).length = matchCost len := by
  simp only [matchRecord, matchCost]
  split_ifs <;> first | rfl | omega

/-- One piece of a run inside the payload. -/
theorem emitLitPiece_ok {pay : List Byte} {a k : Nat} (k1 : 1 ≤ k) (k32 : k ≤ 32) (inside : a + k ≤ pay.length) :
    emitLitPiece pay a k = .ok (BitVec.ofNat 8 (k - 1) :: (pay.drop a).take k) := by
  have len : ((pay.drop a).take k).length = k := by
    simp only [List.length_take, List.length_drop]
    omega
  rw [emitLitPiece, literalBytes_eq, if_pos (by omega), len]

/-- A run inside the payload never raises, and takes a header for each 32 bytes begun. -/
theorem emitLitRun_ok {pay : List Byte} {n a b : Nat} (fuel : b - a ≤ n) (order : a ≤ b) (inside : b ≤ pay.length) :
    (emitLitRun pay n a b).2 = none ∧ (emitLitRun pay n a b).1.length = (b - a) + (b - a + 31) / 32 := by
  induction n generalizing a with
  | zero =>
    have : b - a = 0 := by omega
    simp [emitLitRun, this]
  | succ n ih =>
    simp only [emitLitRun]
    by_cases more : a < b
    · rw [if_pos more, Config.litMax]
      rw [emitLitPiece_ok (by omega) (by omega) (by omega)]
      have := ih (a := a + min 32 (b - a)) (by omega) (by omega)
      simp only [this.1, this.2, List.length_append, List.length_cons, List.length_take, List.length_drop, true_and]
      omega
    · rw [if_neg more]
      simp only [List.length_nil, true_and]
      omega

/-- The calls of two parses in a row. -/
theorem emitCalls_append {pay : List Byte} {xs ys : List EmitCall} (h : (emitCalls pay xs).2 = none) :
    emitCalls pay (xs ++ ys) = ((emitCalls pay xs).1 ++ (emitCalls pay ys).1, (emitCalls pay ys).2) := by
  induction xs with
  | nil => simp [emitCalls]
  | cons x xs ih =>
    simp only [List.cons_append, emitCalls] at h ⊢
    cases one : (emitCall pay x).2 with
    | some r => simp [one] at h
    | none =>
      simp only [one] at h ⊢
      rw [ih h]
      simp

/-- What the body of `COMPRESS` can do: only `OUT`, from index 0, `OUTLEN` and the per-call state change. -/
theorem compressBody_cases (v : BitVec 2) (parse : List Byte → Work → List EmitCall) (pay : List Byte) (s : State) :
    (∃ bytes r, emitCalls pay (parse pay { s.work with level := v }) = (bytes, some r)
        ∧ compressBody v parse pay s
          = .raised r (({ s with work := { s.work with level := v }, outlen := 0 } : State).appendOut bytes))
    ∨ (∃ bytes, emitCalls pay (parse pay { s.work with level := v }) = (bytes, none)
        ∧ compressBody v parse pay s
          = .done () (({ s with work := { s.work with level := v }, outlen := 0 } : State).appendOut bytes)) := by
  rcases run : emitCalls pay (parse pay { s.work with level := v }) with ⟨bytes, _ | r⟩
  · exact .inr ⟨bytes, rfl, by simp [compressBody, run]⟩
  · exact .inl ⟨bytes, r, rfl, by simp [compressBody, run]⟩

/-! ## The MatchFinder -/

theorem commonPrefix_le (n : Nat) (xs ys : List Byte) :
    commonPrefix n xs ys ≤ n ∧ commonPrefix n xs ys ≤ xs.length ∧ commonPrefix n xs ys ≤ ys.length := by
  induction n generalizing xs ys with
  | zero => simp [commonPrefix]
  | succ n ih =>
    cases xs with
    | nil => simp [commonPrefix]
    | cons x xs =>
      cases ys with
      | nil => simp [commonPrefix]
      | cons y ys =>
        have := ih xs ys
        simp only [commonPrefix, List.length_cons]
        split
        · omega
        · omega

/-- The bytes below the common length agree. -/
theorem commonPrefix_agree {n k : Nat} {xs ys : List Byte} (h : k < commonPrefix n xs ys) : xs[k]? = ys[k]? := by
  induction n generalizing xs ys k with
  | zero => simp [commonPrefix] at h
  | succ n ih =>
    cases xs with
    | nil => simp [commonPrefix] at h
    | cons x xs =>
      cases ys with
      | nil => simp [commonPrefix] at h
      | cons y ys =>
        simp only [commonPrefix] at h
        split at h
        · rename_i eq
          subst eq
          cases k with
          | zero => rfl
          | succ k => exact ih (xs := xs) (ys := ys) (by omega)
        · omega

/-- At the common length the lists differ, or the limit or an end is reached. -/
theorem commonPrefix_stops {n : Nat} {xs ys : List Byte} (hn : commonPrefix n xs ys < n)
    (hx : commonPrefix n xs ys < xs.length) (hy : commonPrefix n xs ys < ys.length) :
    xs[commonPrefix n xs ys]? ≠ ys[commonPrefix n xs ys]? := by
  induction n generalizing xs ys with
  | zero => omega
  | succ n ih =>
    cases xs with
    | nil => simp at hx
    | cons x xs =>
      cases ys with
      | nil => simp at hy
      | cons y ys =>
        simp only [commonPrefix] at hn hx hy ⊢
        split
        · rename_i eq
          simp only [eq, if_true, List.length_cons] at hn hx hy
          simpa using ih (xs := xs) (ys := ys) (by omega) (by omega) (by omega)
        · rename_i ne
          simpa using ne

/-- A match stays inside the payload and below 265. -/
theorem matchLen_le (pay : List Byte) (pos s : Nat) :
    matchLen pay pos s ≤ 264 ∧ matchLen pay pos s ≤ pay.length - pos := by
  have := (commonPrefix_le (min Config.lenMax (pay.length - pos)) (pay.drop pos) (pay.drop s)).1
  simp only [matchLen, Config.lenMax] at *
  omega

/-- The bytes of a match agree with the bytes it repeats. -/
theorem matchLen_agree {pay : List Byte} {pos s k : Nat} (h : k < matchLen pay pos s) :
    pay[pos + k]? = pay[s + k]? := by
  have := commonPrefix_agree h
  simpa [List.getElem?_drop] using this

/-- What the scan of `FIRST_MATCH` can do: nothing long enough, or the first distance that gives a match of at least 3. -/
theorem scanDistances_cases (pay : List Byte) (pos : Nat) (ds : List Nat) :
    (scanDistances pay pos ds = (0, 0) ∧ ∀ d ∈ ds, matchLen pay pos (pos - d) < 3)
    ∨ ∃ before d after, ds = before ++ d :: after ∧ (∀ b ∈ before, matchLen pay pos (pos - b) < 3)
        ∧ 3 ≤ matchLen pay pos (pos - d) ∧ scanDistances pay pos ds = (matchLen pay pos (pos - d), d) := by
  induction ds with
  | nil => exact .inl ⟨rfl, by simp⟩
  | cons d ds ih =>
    have unfolded : scanDistances pay pos (d :: ds) =
        if 3 ≤ matchLen pay pos (pos - d) then (matchLen pay pos (pos - d), d) else scanDistances pay pos ds := rfl
    rw [unfolded]
    by_cases long : 3 ≤ matchLen pay pos (pos - d)
    · exact .inr ⟨[], d, ds, rfl, by simp, long, if_pos long⟩
    · rw [if_neg long]
      rcases ih with ⟨run, short⟩ | ⟨before, e, after, eq, short, long', run⟩
      · refine .inl ⟨run, fun b hb => ?_⟩
        rcases List.mem_cons.1 hb with rfl | hb
        · omega
        · exact short b hb
      · refine .inr ⟨d :: before, e, after, by rw [eq]; rfl, fun b hb => ?_, long', run⟩
        rcases List.mem_cons.1 hb with rfl | hb
        · omega
        · exact short b hb

/-- `FIRST_MATCH` writes the candidate registers only. -/
@[simp] theorem firstMatch_pos (pay : List Byte) (w : Work) : (firstMatch pay w).pos = w.pos := rfl
@[simp] theorem firstMatch_bstart (pay : List Byte) (w : Work) : (firstMatch pay w).bstart = w.bstart := rfl

/-- `BEST_OF` writes the candidate registers only. -/
theorem bestOf_eq (pay : List Byte) (w : Work) (cands : List Nat) :
    bestOf pay w cands = { w with clen := (bestOf pay w cands).clen, cdist := (bestOf pay w cands).cdist } := by
  have fold : ∀ (u : Work) (cs : List Nat),
      cs.foldl (betterOf pay) u
        = { u with clen := (cs.foldl (betterOf pay) u).clen, cdist := (cs.foldl (betterOf pay) u).cdist } := by
    intro u cs
    induction cs generalizing u with
    | nil => rfl
    | cons c cs ih =>
      simp only [List.foldl_cons]
      rw [ih]
      simp only [betterOf]
      split <;> rfl
  exact fold _ _

@[simp] theorem bestOf_pos (pay : List Byte) (w : Work) (cands : List Nat) : (bestOf pay w cands).pos = w.pos := by
  rw [bestOf_eq]
@[simp] theorem bestOf_bstart (pay : List Byte) (w : Work) (cands : List Nat) :
    (bestOf pay w cands).bstart = w.bstart := by rw [bestOf_eq]
@[simp] theorem bestOf_next (pay : List Byte) (w : Work) (cands : List Nat) : (bestOf pay w cands).next = w.next := by
  rw [bestOf_eq]
@[simp] theorem bestOf_suf (pay : List Byte) (w : Work) (cands : List Nat) : (bestOf pay w cands).suf = w.suf := by
  rw [bestOf_eq]
@[simp] theorem bestOf_sufcnt (pay : List Byte) (w : Work) (cands : List Nat) :
    (bestOf pay w cands).sufcnt = w.sufcnt := by rw [bestOf_eq]
@[simp] theorem bestOf_dp (pay : List Byte) (w : Work) (cands : List Nat) : (bestOf pay w cands).dp = w.dp := by
  rw [bestOf_eq]

/-- What `BEST_OF` answers: no candidate, or one of those given with its own length, and none given is longer. -/
theorem bestOf_cases (pay : List Byte) (w : Work) (cands : List Nat) (valid : ∀ d ∈ cands, d ≠ 0) :
    (cands = [] ∧ (bestOf pay w cands).clen = 0 ∧ (bestOf pay w cands).cdist = 0)
    ∨ ((bestOf pay w cands).cdist ∈ cands
        ∧ (bestOf pay w cands).clen = matchLen pay w.pos (w.pos - (bestOf pay w cands).cdist)
        ∧ ∀ d ∈ cands, matchLen pay w.pos (w.pos - d) ≤ (bestOf pay w cands).clen) := by
  have fold : ∀ (cs : List Nat) (u : Work), (∀ d ∈ cs, d ≠ 0) → u.cdist ≠ 0 →
      u.clen = matchLen pay u.pos (u.pos - u.cdist) →
      let v := cs.foldl (betterOf pay) u
      (v.cdist = u.cdist ∨ v.cdist ∈ cs) ∧ v.clen = matchLen pay u.pos (u.pos - v.cdist) ∧ u.clen ≤ v.clen
        ∧ ∀ d ∈ cs, matchLen pay u.pos (u.pos - d) ≤ v.clen := by
    intro cs
    induction cs with
    | nil => intro u _ _ hu; simp [hu]
    | cons c cs ih =>
      intro u hcs h0 hu
      have c0 := hcs c List.mem_cons_self
      have others := fun d hd => hcs d (List.mem_cons_of_mem _ hd)
      simp only [List.foldl_cons, betterOf]
      split
      · rename_i better
        obtain ⟨which, len, more, all⟩ :=
          ih { u with clen := matchLen pay u.pos (u.pos - c), cdist := c } others c0 rfl
        have : u.clen ≤ matchLen pay u.pos (u.pos - c) := by omega
        refine ⟨.inr ?_, len, Nat.le_trans this more, fun d hd => ?_⟩
        · rcases which with eq | mem
          · rw [eq]
            exact List.mem_cons_self
          · exact List.mem_cons_of_mem _ mem
        · rcases List.mem_cons.1 hd with rfl | hd
          · exact more
          · exact all d hd
      · rename_i worse
        obtain ⟨which, len, more, all⟩ := ih u others h0 hu
        refine ⟨which.imp id (List.mem_cons_of_mem _), len, more, fun d hd => ?_⟩
        rcases List.mem_cons.1 hd with rfl | hd
        · omega
        · exact all d hd
  cases cands with
  | nil => exact .inl ⟨rfl, rfl, rfl⟩
  | cons c cs =>
    have first : bestOf pay w (c :: cs)
        = cs.foldl (betterOf pay) { w with clen := matchLen pay w.pos (w.pos - c), cdist := c } := rfl
    obtain ⟨which, len, more, all⟩ :=
      fold cs { w with clen := matchLen pay w.pos (w.pos - c), cdist := c }
        (fun d hd => valid d (List.mem_cons_of_mem _ hd)) (valid c List.mem_cons_self) rfl
    rw [first]
    refine .inr ⟨?_, len, fun d hd => ?_⟩
    · rcases which with eq | mem
      · rw [eq]
        exact List.mem_cons_self
      · exact List.mem_cons_of_mem _ mem
    · rcases List.mem_cons.1 hd with rfl | hd
      · exact more
      · exact all d hd

/-! ## The SuffixIndex -/

/-- An insertion point is at most the number of entries. -/
theorem sufFind_le (pay : List Byte) (w : Work) (p : Nat) : sufFind pay w p ≤ w.entries.length :=
  List.countP_le_length

@[simp] theorem sufInit_sufcnt (w : Work) : (sufInit w).sufcnt = 0 := rfl
@[simp] theorem sufInit_next (w : Work) : (sufInit w).next = 0 := rfl
@[simp] theorem sufInit_pos (w : Work) : (sufInit w).pos = w.pos := rfl
@[simp] theorem sufInit_entries (w : Work) : (sufInit w).entries = [] := rfl

/-- The entries after an insertion. -/
theorem sufInsert_entries {pay : List Byte} {w : Work} {p : Nat} (h : w.entries.length = w.sufcnt) :
    (sufInsert pay w p).entries = w.entries.insertIdx (sufFind pay w p) p := by
  have len : (w.entries.insertIdx (sufFind pay w p) p).length = w.sufcnt + 1 := by
    rw [List.length_insertIdx_of_le_length (sufFind_le pay w p), h]
  show (w.entries.insertIdx (sufFind pay w p) p).take (w.sufcnt + 1) = _
  exact List.take_of_length_le (by omega)

/-- The entries after an eviction of one of them. -/
theorem sufEvict_entries {pay : List Byte} {w : Work} {p : Nat} (h : w.entries.length = w.sufcnt)
    (there : sufFind pay w p < w.entries.length) :
    (sufEvict pay w p).entries = w.entries.eraseIdx (sufFind pay w p) := by
  have len : (w.entries.eraseIdx (sufFind pay w p)).length = w.sufcnt - 1 := by
    rw [List.length_eraseIdx_of_lt there, h]
  show (w.entries.eraseIdx (sufFind pay w p)).take (w.sufcnt - 1) = _
  exact List.take_of_length_le (by omega)

/-- `ADVANCE_TO` writes the registers of the index only. -/
theorem advanceOne_eq (pay : List Byte) (w : Work) :
    advanceOne pay w
      = { w with suf := (advanceOne pay w).suf, sufcnt := (advanceOne pay w).sufcnt, next := w.next + 1 } := by
  simp only [advanceOne, sufInsert, sufEvict]
  split <;> rfl

theorem advanceTimes_eq (pay : List Byte) (n : Nat) (w : Work) :
    advanceTimes pay n w
      = { w with suf := (advanceTimes pay n w).suf, sufcnt := (advanceTimes pay n w).sufcnt, next := w.next + n } := by
  induction n generalizing w with
  | zero => rfl
  | succ n ih =>
    simp only [advanceTimes]
    rw [ih, advanceOne_eq]
    simp [Nat.add_assoc, Nat.add_comm 1 n]

/-- After `ADVANCE_TO(pos)` every position up to `pos` has been inserted. -/
theorem advanceTo_next (pay : List Byte) (pos : Nat) (w : Work) :
    (advanceTo pay pos w).next = w.next + (pos + 1 - w.next) := by
  rw [advanceTo, advanceTimes_eq]

@[simp] theorem advanceTo_pos (pay : List Byte) (p : Nat) (w : Work) : (advanceTo pay p w).pos = w.pos := by
  rw [advanceTo, advanceTimes_eq]
@[simp] theorem advanceTo_bstart (pay : List Byte) (p : Nat) (w : Work) : (advanceTo pay p w).bstart = w.bstart := by
  rw [advanceTo, advanceTimes_eq]
@[simp] theorem advanceTo_dp (pay : List Byte) (p : Nat) (w : Work) : (advanceTo pay p w).dp = w.dp := by
  rw [advanceTo, advanceTimes_eq]

/-- A neighbour as a distance is in the window and comes from an entry before the cursor. -/
theorem mem_neighborDistance {pos d : Nat} {q : Option Nat} (h : d ∈ neighborDistance pos q) :
    ∃ p, q = some p ∧ d = pos - p ∧ 1 ≤ d ∧ d ≤ 8192 := by
  cases q with
  | none => cases h
  | some p =>
    have unfolded : neighborDistance pos (some p) = if 1 ≤ pos - p ∧ pos - p ≤ 8192 then [pos - p] else [] := rfl
    rw [unfolded] at h
    split_ifs at h with valid
    · cases List.mem_singleton.1 h
      exact ⟨p, rfl, rfl, valid.1, valid.2⟩
    · cases h

/-- Every candidate of `NEIGHBORS` is a valid distance to an entry of the index. -/
theorem mem_neighbors {pay : List Byte} {pos d : Nat} {w : Work} (h : d ∈ neighbors pay pos w) :
    1 ≤ d ∧ d ≤ 8192 ∧ ∃ p ∈ w.entries, d = pos - p := by
  simp only [neighbors, List.mem_append] at h
  rcases h with h | h
  · obtain ⟨p, entry, eq, low, high⟩ := mem_neighborDistance h
    exact ⟨low, high, p, List.mem_of_getElem? entry, eq⟩
  · obtain ⟨p, entry, eq, low, high⟩ := mem_neighborDistance h
    split_ifs at entry with first
    exact ⟨low, high, p, List.mem_of_getElem? entry, eq⟩

/-- `BEST_MATCH` keeps the cursor and the pending run, and has inserted every position up to the cursor. -/
@[simp] theorem bestMatch_pos (pay : List Byte) (w : Work) : (bestMatch pay w).pos = w.pos := by simp [bestMatch]
@[simp] theorem bestMatch_bstart (pay : List Byte) (w : Work) : (bestMatch pay w).bstart = w.bstart := by
  simp [bestMatch]
@[simp] theorem bestMatch_dp (pay : List Byte) (w : Work) : (bestMatch pay w).dp = w.dp := by simp [bestMatch]
@[simp] theorem bestMatch_next (pay : List Byte) (w : Work) :
    (bestMatch pay w).next = w.next + (w.pos + 1 - w.next) := by simp [bestMatch, advanceTo_next]
@[simp] theorem bestMatch_entries (pay : List Byte) (w : Work) :
    (bestMatch pay w).entries = (advanceTo pay w.pos w).entries := by simp [bestMatch, Work.entries]

/-! ## The OptimalParser -/

/-- `RELAX` writes the table only, and keeps its length. -/
theorem relax_eq (w : Work) (e : Edge) : relax w e = { w with dp := (relax w e).dp } := by
  simp only [relax]
  split
  · rfl
  · split
    · rfl
    · split <;> rfl

@[simp] theorem relax_pos (w : Work) (e : Edge) : (relax w e).pos = w.pos := by rw [relax_eq]
@[simp] theorem relax_next (w : Work) (e : Edge) : (relax w e).next = w.next := by rw [relax_eq]
@[simp] theorem relax_entries (w : Work) (e : Edge) : (relax w e).entries = w.entries := by
  rw [relax_eq]
  rfl

@[simp] theorem relax_dp_length (w : Work) (e : Edge) : (relax w e).dp.length = w.dp.length := by
  simp only [relax]
  split
  · rfl
  · split
    · simp
    · split <;> simp

/-- A record of the table after a write of one. -/
theorem dpAt_set (w : Work) (p q : Nat) (r : Option DpRec) :
    ({ w with dp := w.dp.set p r } : Work).dpAt q = if p = q ∧ p < w.dp.length then r else w.dpAt q := by
  simp only [Work.dpAt, List.getD_eq_getElem?_getD, List.getElem?_set]
  by_cases eq : p = q
  · subst eq
    by_cases lt : p < w.dp.length
    · simp [lt]
    · simp [lt]
  · simp [eq]

/-- What `RELAX` does to the table: from a reached position the edge's end is offered the edge, which is taken when the end
is not reached yet or the edge is strictly cheaper; every other record stays. -/
theorem relax_dpAt (w : Work) (e : Edge) (q : Nat) :
    (relax w e).dpAt q =
      match w.dpAt w.pos with
      | none => w.dpAt q
      | some here =>
        if w.pos + e.len = q ∧ w.pos + e.len < w.dp.length
            ∧ (∀ there, w.dpAt q = some there → here.cost + e.cost < there.cost)
        then some { cost := here.cost + e.cost, len := e.len, dist := e.dist }
        else w.dpAt q := by
  simp only [relax]
  cases source : w.dpAt w.pos with
  | none => rfl
  | some here =>
    simp only
    cases target : w.dpAt (w.pos + e.len) with
    | none =>
      simp only
      rw [dpAt_set]
      by_cases eq : w.pos + e.len = q
      · subst eq
        simp [target]
      · simp [eq]
    | some there =>
      simp only
      by_cases cheaper : here.cost + e.cost < there.cost
      · rw [if_pos cheaper, dpAt_set]
        by_cases eq : w.pos + e.len = q
        · subst eq
          simp [target, cheaper]
        · simp [eq]
      · rw [if_neg cheaper]
        by_cases eq : w.pos + e.len = q
        · subst eq
          simp [target, cheaper]
        · simp [eq]

/-- The edges offered at a cursor: match edges of every length from 3 to the candidate's, literal edges of every length from
1 to 32 that stays inside the payload. -/
theorem mem_edgesAt {n : Nat} {w : Work} {e : Edge} :
    e ∈ edgesAt n w ↔
      (w.cdist ≠ 0 ∧ 3 ≤ e.len ∧ e.len ≤ w.clen ∧ e.cost = matchCost e.len ∧ e.dist = w.cdist)
      ∨ (1 ≤ e.len ∧ e.len ≤ 32 ∧ e.len ≤ n - w.pos ∧ e.cost = literalCost e.len ∧ e.dist = 0) := by
  obtain ⟨c, l, d⟩ := e
  simp only [edgesAt, Config.litMax, List.mem_append, List.mem_map, List.mem_range'_1, Edge.mk.injEq]
  constructor
  · rintro (h | ⟨k, hk, rfl, rfl, rfl⟩)
    · split_ifs at h with none
      · cases h
      · obtain ⟨k, hk, eq⟩ := List.mem_map.1 h
        cases eq
        have := List.mem_range'_1.1 hk
        exact .inl ⟨none, by omega, by omega, rfl, rfl⟩
    · exact .inr ⟨by omega, by omega, by omega, rfl, rfl⟩
  · rintro (⟨h0, h3, hl, rfl, rfl⟩ | ⟨h1, h32, hn, rfl, rfl⟩)
    · left
      rw [if_neg h0]
      exact List.mem_map.2 ⟨l, List.mem_range'_1.2 ⟨by omega, by omega⟩, rfl⟩
    · exact .inr ⟨l, ⟨by omega, by omega⟩, rfl, rfl, rfl⟩

/-- The emission of one edge of the path. -/
theorem edgeCall_eq (r : PathRec) :
    edgeCall r = if r.dist = 0 then .litRun r.pos (r.pos + r.len) else .matchAt r.len r.dist r.pos := rfl

end Sys2Proof.Machine
end

