-- ==== Sys2Proof/Tests/Slice0.lean ====
section
/-!
SUPPORT. The model's own tests: an ill-formed term for each check of `WellFormed`, a word written out from the spec's
encoding for each constructor, one step on a small state for each instruction (expected values from 95_test_vectors.md, by
number), and for each obligation with hypotheses a state that meets them, at the boundary of each clause.
-/

namespace Sys2Proof.Tests

open Sys2Proof.Machine Sys2Proof.Safety

/-! ## Helpers -/

/-- A state in `READY` with the three input buffers filled and their length registers set. -/
def loaded (hex : List Byte) (dur : List Half) (pay : List Byte) : State :=
  { State.reset with
    hexlen := lenWord hex.length
    durlen := lenWord dur.length
    paylen := lenWord pay.length
    mem := { hex := cellsWrite [] 0 hex, dur := cellsWrite [] 0 dur, pay := cellsWrite [] 0 pay, out := [] } }

/-- The two characters of a byte, upper case. -/
def charsOf (n : Nat) : List Byte :=
  [n / 16, n % 16].map fun d => BitVec.ofNat 8 (if d < 10 then 48 + d else 55 + d)

/-- The characters of a list of bytes. -/
def hexText (bytes : List Nat) : List Byte := bytes.flatMap charsOf

/-- A list of bytes from numbers. -/
def bytes (ns : List Nat) : List Byte := ns.map (BitVec.ofNat 8)

/-- A list of Durations from numbers. -/
def durations (ns : List Nat) : List Half := ns.map (BitVec.ofNat 16)

/-- A block in `FAULT`, with the record of V159. -/
def faulted : State := { State.reset with status := 0x207, erroff := 12, outlen := 9 }

/-- What a block read answers, as numbers. -/
def numbers {w : Nat} : Except Nat (List (BitVec w)) → List Nat
  | .ok vs => vs.map BitVec.toNat
  | .error _ => []

/-- `STATUS`, `ERROFF` and `DUR[0..DURLEN)` of a next state. -/
def seeDur : Host.Outcome State Fault Refusal → Option (Nat × Nat × List Nat)
  | .next t => some (t.status.toNat, t.erroff.toNat, numbers (cellsRead t.mem.dur 0 t.durlen.toNat))
  | _ => none

/-- `STATUS`, `ERROFF` and `PAY[0..PAYLEN)` of a next state. -/
def seePay : Host.Outcome State Fault Refusal → Option (Nat × Nat × List Nat)
  | .next t => some (t.status.toNat, t.erroff.toNat, numbers (cellsRead t.mem.pay 0 t.paylen.toNat))
  | _ => none

/-- `STATUS`, `ERROFF` and `OUT[0..OUTLEN)` of a next state. -/
def seeOut : Host.Outcome State Fault Refusal → Option (Nat × Nat × List Nat)
  | .next t => some (t.status.toNat, t.erroff.toNat, numbers (cellsRead t.mem.out 0 t.outlen.toNat))
  | _ => none

/-- An outcome is a next state with a property. -/
def nextWith (o : Host.Outcome State Fault Refusal) (p : State → Bool) : Bool :=
  match o with
  | .next t => p t
  | _ => false

theorem exists_next {o : Host.Outcome State Fault Refusal} {p : State → Bool} (h : nextWith o p = true) :
    ∃ t, o = .next t ∧ p t = true := by
  cases o with
  | next t => exact ⟨t, rfl, h⟩
  | fault f => cases h
  | refused r => cases h

theorem hexIs_loaded {hex : List Byte} (dur : List Half) (pay : List Byte) (h : hex.length < 2 ^ 32) :
    HexIs (loaded hex dur pay) hex := by
  show cellsRead (cellsWrite [] 0 hex) 0 (lenWord hex.length).toNat = .ok hex
  rw [toNat_lenWord h, cellsRead_cellsWrite]

theorem durIs_loaded (hex : List Byte) {dur : List Half} (pay : List Byte) (h : dur.length < 2 ^ 32) :
    DurIs (loaded hex dur pay) dur := by
  show cellsRead (cellsWrite [] 0 dur) 0 (lenWord dur.length).toNat = .ok dur
  rw [toNat_lenWord h, cellsRead_cellsWrite]

theorem payIs_loaded (hex : List Byte) (dur : List Half) {pay : List Byte} (h : pay.length < 2 ^ 32) :
    PayIs (loaded hex dur pay) pay := by
  show cellsRead (cellsWrite [] 0 pay) 0 (lenWord pay.length).toNat = .ok pay
  rw [toNat_lenWord h, cellsRead_cellsWrite]

/-- A short payload is within `NMAX`. -/
theorem pay_within (hex : List Byte) (dur : List Half) {pay : List Byte} (h : pay.length ≤ 131070) :
    (loaded hex dur pay).paylen.toNat ≤ Config.nmax := by
  show (lenWord pay.length).toNat ≤ _
  rw [toNat_lenWord (by omega)]
  have := nmax_range
  omega

/-! ## WellFormed: an ill-formed term for each check -/

theorem test_wf_refuses_command_words_as_reserved :
    ([0x00, 0x10, 0x20, 0x30, 0x40, 0x41, 0x42, 0x43, 0x50, 0x51, 0x52, 0x53] : List Word).all
      (fun w => !(Instr.cmdReserved w).wf) = true := by decide

/-- One reserved word for each reason of 30_encoding.md R93. -/
theorem test_wf_accepts_reserved :
    ([0x44, 0x48, 0x60, 0xF0, 0x11, 0x03, 0x140, 0xFFFFFFFF] : List Word).all (fun w => (Instr.cmdReserved w).wf) = true := by
  decide

theorem test_wf_refuses_tick1_zero : (Instr.tick1 0).wf = false := by decide
theorem test_wf_refuses_paydur_sentinel : (Instr.paydur 0xFF 0xFF).wf = false := by decide
theorem test_wf_refuses_empty_literal : (Instr.lit []).wf = false := by decide
theorem test_wf_refuses_long_literal : (Instr.lit (List.replicate 33 0)).wf = false := by decide
theorem test_wf_refuses_short_match_low : (Instr.matchs 0 0 0).wf = false := by decide
theorem test_wf_refuses_short_match_high : (Instr.matchs 7 0 0).wf = false := by decide

/-! ## Decoding of words written out from the spec's encodings (30_encoding.md R92 to R102) -/

theorem test_decode_clear : decode .cmd [0x00, 0, 0, 0] = some (.clear, []) := by decide
theorem test_decode_decode : decode .cmd [0x10, 0, 0, 0] = some (.decode, []) := by decide
theorem test_decode_filter : decode .cmd [0x20, 0, 0, 0] = some (.filter, []) := by decide
theorem test_decode_pack : decode .cmd [0x30, 0, 0, 0] = some (.pack, []) := by decide
theorem test_decode_compress_l0 : decode .cmd [0b01000000, 0, 0, 0] = some (.compressL0, []) := by decide
theorem test_decode_compress_l1 : decode .cmd [0b01000001, 0, 0, 0] = some (.compressL1, []) := by decide
theorem test_decode_compress_l2 : decode .cmd [0b01000010, 0, 0, 0] = some (.compressL2, []) := by decide
theorem test_decode_compress_l3 : decode .cmd [0b01000011, 0, 0, 0] = some (.compressL3, []) := by decide
theorem test_decode_convert_l0 : decode .cmd [0b01010000, 0, 0, 0] = some (.convertL0, []) := by decide
theorem test_decode_convert_l1 : decode .cmd [0b01010001, 0, 0, 0] = some (.convertL1, []) := by decide
theorem test_decode_convert_l2 : decode .cmd [0b01010010, 0, 0, 0] = some (.convertL2, []) := by decide
theorem test_decode_convert_l3 : decode .cmd [0b01010011, 0, 0, 0] = some (.convertL3, []) := by decide

/-- V152: a bit above bit 7 makes the word reserved. -/
theorem test_decode_reserved : decode .cmd [0x40, 1, 0, 0] = some (.cmdReserved 0x140, []) := by decide

/-- The header of V19: two bytes not examined, length 6. -/
theorem test_decode_framehdr : decode .header [0x26, 0x00, 0x06, 0x00, 0x12] = some (.frameHdr 0x06 0x00, [0x12]) := by
  decide

theorem test_decode_tick1 : decode .unit [0x12, 0x34] = some (.tick1 0x12, [0x34]) := by decide

/-- `T3(0x012C)` of V19: high byte first. -/
theorem test_decode_tick3 : decode .unit [0x00, 0x01, 0x2C, 0x0D] = some (.tick3 0x01 0x2C, [0x0D]) := by decide

/-- The first payload element of V52: 549, low byte first. -/
theorem test_decode_paydur : decode .payload [0x25, 0x02, 0x30] = some (.paydur 0x25 0x02, [0x30]) := by decide
theorem test_decode_paydur_refuses_sentinel : decode .payload [0xFF, 0xFF] = none := by decide

/-- V64: a literal of three bytes. -/
theorem test_decode_lit : decode .stream [0x02, 0x0A, 0x0B, 0x0C] = some (.lit [0x0A, 0x0B, 0x0C], []) := by decide

/-- V71: length 8, distance 257. -/
theorem test_decode_matchs : decode .stream [0b11000001, 0x00] = some (.matchs 6 1 0, []) := by decide

/-- V73: length 100, distance 4660. -/
theorem test_decode_matchl : decode .stream [0b11110010, 0x5B, 0x33] = some (.matchl 18 0x5B 0x33, []) := by decide

theorem test_operands_of_v73 : matchlLen 0x5B = 100 ∧ matchDist 18 0x33 = 4660 := by decide
theorem test_operands_of_v71 : matchsLen 6 = 8 ∧ matchDist 1 0 = 257 := by decide

/-- Words of the opcode table, numbered as the table numbers them. -/
theorem test_table_words :
    decodeTableWord 32 0x43 = some .compressL3 ∧ decodeTableWord 32 0x140 = some (.cmdReserved 0x140)
      ∧ decodeTableWord 24 0x2C0100 = some (.tick3 0x01 0x2C) ∧ decodeTableWord 16 0x00C1 = some (.matchs 6 1 0)
      ∧ decodeTableWord 24 0x335BF2 = some (.matchl 18 0x5B 0x33) ∧ decodeTableWord 8 0x00 = some (.lit [0])
      ∧ decodeTableWord 8 0x34 = some (.tick1 0x34) ∧ decodeTableWord 16 0x0010 = some (.paydur 0x10 0x00) := by
  decide

/-! ## One step of each instruction -/

/-- V161. -/
theorem test_clear : (match exec .clear faulted with
    | .next t => decide (t.status = 0 ∧ t.erroff = 0 ∧ t.outlen = 9)
    | _ => false) = true := by decide

/-- V19: both kinds of unit, the bytes after the region not examined. -/
theorem test_decode_v19 :
    seeDur (exec .decode (loaded (hexText [0x26, 0, 6, 0, 0x12, 0x34, 0, 1, 0x2C, 0x0D, 0x0D, 5]) [] []))
      = some (0, 0, [549, 1584, 9137, 396]) := by decide +kernel

/-- V30: a bad low nibble at index 9. -/
theorem test_decode_v30 :
    seeDur (exec .decode (loaded (hexText [0x26, 0, 2, 0] ++ bytes [0x31, 0x47, 0x33, 0x34]) [] []))
      = some (0x307, 9, []) := by decide +kernel

/-- V47. -/
theorem test_filter_v47 :
    seeDur (exec .filter (loaded [] (durations [549, 65535, 1584, 65535]) [])) = some (0, 0, [549, 1584]) := by
  decide +kernel

/-- V53. -/
theorem test_pack_v53 :
    seePay (exec .pack (loaded [] (durations [0, 65534, 256, 255]) []))
      = some (0, 0, [0x00, 0x00, 0xFE, 0xFF, 0x00, 0x01, 0xFF, 0x00]) := by decide +kernel

/-- V56. -/
theorem test_pack_v56 : seePay (exec .pack (loaded [] (durations [549, 65535]) [])) = some (0x10F, 1, []) := by
  decide +kernel

/-- V122 at level 0. -/
theorem test_compress_l0 :
    seeOut (exec .compressL0 (loaded [] [] (bytes [0x61, 0x61, 0x61, 0x61, 0x62, 0x61, 0x61, 0x61, 0x61, 0x61, 0x61])))
      = some (0, 0, [0x0A, 0x61, 0x61, 0x61, 0x61, 0x62, 0x61, 0x61, 0x61, 0x61, 0x61, 0x61]) := by decide +kernel

/-- V122 at level 1: the nearest match first. -/
theorem test_compress_l1 :
    seeOut (exec .compressL1 (loaded [] [] (bytes [0x61, 0x61, 0x61, 0x61, 0x62, 0x61, 0x61, 0x61, 0x61, 0x61, 0x61])))
      = some (0, 0, [0x00, 0x61, 0x20, 0x00, 0x00, 0x62, 0x20, 0x03, 0x20, 0x00]) := by decide +kernel

/-- V122 at level 2: the longest match at each position. -/
theorem test_compress_l2 :
    seeOut (exec .compressL2 (loaded [] [] (bytes [0x61, 0x61, 0x61, 0x61, 0x62, 0x61, 0x61, 0x61, 0x61, 0x61, 0x61])))
      = some (0, 0, [0x00, 0x61, 0x20, 0x00, 0x00, 0x62, 0x40, 0x04, 0x01, 0x61, 0x61]) := by decide +kernel

/-- V122 at level 3: the cheapest parse. -/
theorem test_compress_l3 :
    seeOut (exec .compressL3 (loaded [] [] (bytes [0x61, 0x61, 0x61, 0x61, 0x62, 0x61, 0x61, 0x61, 0x61, 0x61, 0x61])))
      = some (0, 0, [0x05, 0x61, 0x61, 0x61, 0x61, 0x62, 0x61, 0x60, 0x00]) := by decide +kernel

/-- V120 at levels 2 and 3: the neighbour's distance, and literals on a tie. -/
theorem test_compress_v120 :
    (let pay := bytes [0x61, 0x62, 0x63, 0x31, 0x61, 0x62, 0x63, 0x32, 0x61, 0x62, 0x63, 0x30, 0x61, 0x62, 0x63, 0x33]
     seeOut (exec .compressL2 (loaded [] [] pay))
      = some (0, 0, [0x03, 0x61, 0x62, 0x63, 0x31, 0x20, 0x03, 0x00, 0x32, 0x20, 0x07, 0x00, 0x30, 0x20, 0x07, 0x00, 0x33])
      ∧ seeOut (exec .compressL3 (loaded [] [] pay)) = some (0, 0, 0x0F :: pay.map BitVec.toNat)) := by decide +kernel

/-- The capture of program P1 (95_test_vectors.md section 3). -/
def captureP1 : List Byte :=
  hexText [0x26, 0, 0x0E, 0, 0, 1, 0x27, 0x93, 0x12, 0x12, 0x36, 0x12, 0x12, 0x36, 0x12, 0x12, 0x36, 0x12, 0x0D, 5]

/-- The stream of P1 at level 0. -/
theorem test_convert_l0 :
    seeOut (exec .convertL0 (loaded captureP1 [] []))
      = some (0, 0, [0x17, 0x18, 0x23, 0x7D, 0x11, 0x25, 0x02, 0x25, 0x02, 0x6D, 0x06, 0x25, 0x02, 0x25, 0x02, 0x6D, 0x06,
          0x25, 0x02, 0x25, 0x02, 0x6D, 0x06, 0x25, 0x02]) := by decide +kernel

/-- The stream of P1 at levels 1 to 3. -/
theorem test_convert_l1 :
    seeOut (exec .convertL1 (loaded captureP1 [] []))
      = some (0, 0, [0x09, 0x18, 0x23, 0x7D, 0x11, 0x25, 0x02, 0x25, 0x02, 0x6D, 0x06, 0xE0, 0x05, 0x05]) := by
  decide +kernel

theorem test_convert_l2 :
    seeOut (exec .convertL2 (loaded captureP1 [] []))
      = some (0, 0, [0x09, 0x18, 0x23, 0x7D, 0x11, 0x25, 0x02, 0x25, 0x02, 0x6D, 0x06, 0xE0, 0x05, 0x05]) := by
  decide +kernel

theorem test_convert_l3 :
    seeOut (exec .convertL3 (loaded captureP1 [] []))
      = some (0, 0, [0x09, 0x18, 0x23, 0x7D, 0x11, 0x25, 0x02, 0x25, 0x02, 0x6D, 0x06, 0xE0, 0x05, 0x05]) := by
  decide +kernel

/-- V153. -/
theorem test_reserved_v153 : seeOut (exec (decodeCmd 0xFFFFFFFF) State.reset) = some (0x113, 4294967295, []) := by
  decide +kernel

/-- V160: a reserved word in `FAULT` is ignored. -/
theorem test_reserved_v160 : nextWith (exec (decodeCmd 0x44) faulted) (fun t => t == faulted) = true := by decide

/-- The header of V19. -/
theorem test_framehdr :
    nextWith (exec (.frameHdr 6 0) (loaded (hexText [0x26, 0, 6, 0, 0x12, 0x34, 0, 1, 0x2C, 0x0D]) [] []))
      (fun t => t.work.declen == 6 && t.status == 0) = true := by decide +kernel

/-- V5: the unit `T1(0x12)` is 549. -/
theorem test_tick1 :
    nextWith (exec (.tick1 0x12) State.reset)
      (fun t => cellRead t.mem.dur 0 == some 549 && t.work.cur == 1 && t.work.durIdx == 1) = true := by decide +kernel

/-- V15: 2151 is the greatest count that fits. -/
theorem test_tick3 :
    nextWith (exec (.tick3 0x08 0x67) { State.reset with work := { Work.reset with declen := 3 } })
      (fun t => cellRead t.mem.dur 0 == some 65506 && t.work.cur == 3) = true := by decide +kernel

/-- V22: an escape marker in a region of 2. -/
theorem test_tick3_truncated :
    nextWith (exec (.tick3 0x01 0x2C) { State.reset with work := { Work.reset with declen := 2 } })
      (fun t => t.status == 0x407 && t.erroff == 8) = true := by decide +kernel

/-- V55: 7766 is `56 1E`. -/
theorem test_paydur :
    nextWith (exec (.paydur 0x56 0x1E) State.reset)
      (fun t => cellRead t.mem.pay 0 == some 0x56 && cellRead t.mem.pay 1 == some 0x1E && t.work.packIdx == 1) = true := by
  decide +kernel

/-- V64. -/
theorem test_lit : seeOut (exec (.lit [0x0A, 0x0B, 0x0C]) State.reset) = some (0, 0, [0x02, 0x0A, 0x0B, 0x0C]) := by
  decide +kernel

/-- V67. -/
theorem test_matchs : seeOut (exec (.matchs 6 31 0xFF) State.reset) = some (0, 0, [0xDF, 0xFF]) := by decide +kernel

/-- V69. -/
theorem test_matchl : seeOut (exec (.matchl 31 0xFF 0xFF) State.reset) = some (0, 0, [0xFF, 0xFF, 0xFF]) := by
  decide +kernel

/-- V84 and V85: the distance is checked first. -/
theorem test_emit_match_order :
    (match emitMatch 265 8193 5, emitMatch 2 0 5, emitMatch 2 1 5 with
      | .error a, .error b, .error c =>
        decide (a = { cause := .distRange, off := 5 } ∧ b = { cause := .distRange, off := 5 }
          ∧ c = { cause := .mlenRange, off := 5 })
      | _, _, _ => false) = true := by decide

/-- V106, the row of position 15: the order of the suffixes. -/
theorem test_suffix_index_v106 :
    (advanceTo (bytes [0x61, 0x62, 0x63, 0x31, 0x61, 0x62, 0x63, 0x32, 0x61, 0x62, 0x63, 0x30, 0x61, 0x62, 0x63, 0x33]) 15
      (sufInit Work.reset)).entries = [11, 3, 7, 15, 8, 0, 4, 12, 9, 1, 5, 13, 10, 2, 6, 14] := by decide +kernel

/-- V134: the table of the forward pass. -/
theorem test_dp_v134 :
    (dpForward (bytes [0x62, 0x61, 0x61, 0x61, 0x62, 0x61, 0x61, 0x62]) (sufInit Work.reset)).dp.map
        (fun r => r.map fun x => (x.cost, x.len, x.dist))
      = [(0, 0, 0), (2, 1, 0), (3, 2, 0), (4, 3, 0), (5, 4, 0), (6, 5, 0), (7, 6, 0), (7, 3, 4), (8, 3, 3)].map some := by
  decide +kernel

/-- A cell that nothing has written: a command within its capacity is refused at its launch. -/
theorem test_unwritten_input :
    (match exec .compressL1 { State.reset with paylen := 1 } with
      | .refused r => decide (r = .unwrittenCell .pay 0)
      | _ => false) = true := by decide +kernel

/-! ## Witnesses: a state and operands that meet the hypotheses of each obligation

Each theorem is named after its obligation. -/

/-- One well-formed instruction of every format, at the ends of its operand ranges. -/
theorem witness_DecodeReadsBackEncode :
    ([.clear, .convertL3, .cmdReserved 0x54, .cmdReserved 0xFFFFFFFF, .frameHdr 0 0, .frameHdr 0xFF 0xFF, .tick1 1,
      .tick1 0xFF, .tick3 0 0, .tick3 0xFF 0xFF, .paydur 0 0, .paydur 0xFE 0xFF, .lit [0], .lit (List.replicate 32 0xFF),
      .matchs 1 0 0, .matchs 6 31 0xFF, .matchl 0 0 0, .matchl 31 0xFF 0xFF] : List Instr).all Instr.wf = true := by decide

/-- Every reason to be reserved, with a state in `READY`. -/
theorem witness_ReservedWordsRaiseIllegalCmd :
    decodeCmd 0x60 = .cmdReserved 0x60 ∧ decodeCmd 0xF0 = .cmdReserved 0xF0 ∧ decodeCmd 0x44 = .cmdReserved 0x44
      ∧ decodeCmd 0x31 = .cmdReserved 0x31 ∧ decodeCmd 0x153 = .cmdReserved 0x153 ∧ State.reset.inFault = false := by decide

/-- A header at each end of each range, with 32 bytes after it. -/
theorem witness_StreamHeaderPartition :
    32 ≤ (List.replicate 32 (0 : Byte)).length
      ∧ (0x00 : Byte).toNat < 0x20 ∧ (0x1F : Byte).toNat < 0x20
      ∧ 0x20 ≤ (0x20 : Byte).toNat ∧ (0xDF : Byte).toNat < 0xE0
      ∧ 0xE0 ≤ (0xE0 : Byte).toNat ∧ 0xE0 ≤ (0xFF : Byte).toNat := by decide

/-- The ends of the three cases of `EMIT_MATCH`: V66, V69, V82, V83, V80, V81. -/
theorem witness_EmitMatchBytes :
    (emitMatch 3 1 0).toOption = some [0x20, 0x00] ∧ (emitMatch 264 8192 0).toOption = some [0xFF, 0xFF, 0xFF]
      ∧ (emitMatch 3 0 0).toOption = none ∧ (emitMatch 3 8193 0).toOption = none
      ∧ (emitMatch 2 1 0).toOption = none ∧ (emitMatch 265 1 0).toOption = none := by decide

/-- A reserved word from reset, and the acknowledgement of its fault. -/
def pendingReserved : State := { State.reset with inbox := [.writeReg 0 0x44, .writeReg 0 0] }

theorem witness_StepKeepsInvariant :
    Inv pendingReserved ∧ ∃ t, step pendingReserved = .next t ∧ (t.inFault && t.erroff == 0x44) = true :=
  ⟨⟨by decide, .inl rfl, fun _ => rfl⟩, exists_next (by decide)⟩

/-- A host write of the last cell of `DUR`. -/
theorem witness_StepKeepsCellsInBounds :
    InBounds { State.reset with inbox := [.writeDur 65534 7] }
      ∧ ∃ t, step { State.reset with inbox := [.writeDur 65534 7] } = .next t ∧ (t.mem.dur == [(65534, 7)]) = true :=
  ⟨by simp [InBounds, State.reset], exists_next (by decide)⟩

/-- Nothing pending, a command, and a record of each space. -/
theorem witness_StepRunsDecodedInstruction :
    State.reset.inbox = [] ∧ pendingReserved.inbox = .writeReg 0 0x44 :: [.writeReg 0 0]
      ∧ decode .header [0, 0, 6, 0] = some (.frameHdr 6 0, []) ∧ decode .unit [0x12] = some (.tick1 0x12, [])
      ∧ decode .payload [0x25, 0x02] = some (.paydur 0x25 0x02, []) ∧ decode .stream [0, 0x41] = some (.lit [0x41], []) := by
  decide

theorem witness_FetchWordRunsInstruction : decodeTableWord 24 0x335BF2 = some (.matchl 18 0x5B 0x33) := by decide

/-- A command, and a read and a write of each register number up to 7. -/
theorem witness_HostRegisterMap :
    pendingReserved.inbox = .writeReg 0 0x44 :: [.writeReg 0 0] ∧
    (List.range 8).all (fun n =>
        ({ State.reset with inbox := [.readReg n] } : State).inbox == .readReg n :: []
          && (n == 0 || nextWith (step { State.reset with inbox := [.writeReg n 5] }) fun t =>
            t.hexlen == (if n = 3 then 5 else 0) && t.durlen == (if n = 4 then 5 else 0)
              && t.paylen == (if n = 5 then 5 else 0))) = true := by decide

/-- The last cell of each buffer, and an `OUT` cell below `OUTLEN`. -/
theorem witness_HostBufferAccess :
    131077 < 131078 ∧ 65534 < 65535 ∧ 131069 < Config.nmax ∧ 0 < Config.outCap
      ∧ cellRead ({ State.reset with outlen := 1, mem := { State.reset.mem with out := [(0, 9)] } } : State).mem.out 0 = some 9
      ∧ 0 < ({ State.reset with outlen := 1 } : State).outlen.toNat
      ∧ ∃ t, step { State.reset with inbox := [.readCell .out 0, .readCell .out 0] } = .next t ∧ (t.freeCtr == 0) = true := by
  have := nmax_range
  refine ⟨by decide, by decide, by omega, ?_, by decide, by decide, exists_next (by decide)⟩
  simp only [Config.outCap]
  omega

/-- An index at the capacity, the last cell never written, and an `OUT` cell at `OUTLEN`. -/
theorem witness_HostReadStops :
    capacity .dur ≤ 65535 ∧ 65534 < capacity .dur ∧ State.reset.mem.readCell .dur 65534 = none
      ∧ State.reset.outlen.toNat ≤ 0 ∧ inCapacity .out 0 = true := by decide

theorem witness_ResetEventRestoresReset : ({ faulted with inbox := [.reset] } : State).inbox = .reset :: [] := rfl

theorem witness_FaultIgnoresCommands : faulted.inFault = true := by decide

/-- The least and the greatest word that is not 0 and the command word `0x41`, in `FAULT`. -/
theorem witness_ClearAcknowledges :
    faulted.inFault = true ∧ decodeCmd 0x01 ≠ .clear ∧ decodeCmd 0xFFFFFFFF ≠ .clear ∧ decodeCmd 0x41 ≠ .clear := by decide

/-- The three kinds of access in `FAULT`: `CLEAR`, reset, and an ignored command. -/
theorem witness_OnlyClearOrResetLeavesFault :
    (∃ t, step { faulted with inbox := [.writeReg 0 0] } = .next t ∧ (t.status == 0 && t.outlen == 9) = true)
    ∧ (∃ t, step { faulted with inbox := [.reset] } = .next t ∧ (t.status == 0 && t.outlen == 0) = true) ∧
    faulted.inFault = true ∧ Access.writeReg 0 0x41 ≠ .writeReg 0 0 ∧ Access.writeReg 0 0x41 ≠ .reset
      ∧ ∃ t, step { faulted with inbox := [.writeReg 0 0x41] } = .next t ∧ (t == faulted) = true :=
  ⟨exists_next (by decide), exists_next (by decide), by decide, by decide, by decide, exists_next (by decide)⟩

/-- Each length register one above its capacity, and at it. -/
theorem witness_LengthCheckFaults :
    ({ State.reset with hexlen := 131078 } : State).hexlen.toNat ≤ 131078
      ∧ ({ State.reset with durlen := 65535 } : State).durlen.toNat ≤ 65535
      ∧ ({ State.reset with paylen := lenWord Config.nmax } : State).paylen.toNat ≤ Config.nmax
      ∧ 131078 < ({ State.reset with hexlen := 131079 } : State).hexlen.toNat
      ∧ 65535 < ({ State.reset with durlen := 65536 } : State).durlen.toNat
      ∧ Config.nmax < ({ State.reset with paylen := lenWord (Config.nmax + 1) } : State).paylen.toNat := by
  have := nmax_range
  refine ⟨by decide, by decide, ?_, by decide, by decide, ?_⟩
  · show (lenWord Config.nmax).toNat ≤ _
    rw [toNat_lenWord (by omega)]
  · show _ < (lenWord (Config.nmax + 1)).toNat
    rw [toNat_lenWord (by omega)]
    omega

/-- A capture: units `T1(1)`, `T1(255)`, `T3(0)`, `T3(2151)`, one byte after the region. -/
def units : List Instr := [.tick1 1, .tick1 255, .tick3 0 0, .tick3 0x08 0x67]
def ticks : List Nat := [1, 255, 0, 2151]
def capture : List Byte := hexText [0x26, 0, 8, 0, 1, 255, 0, 0, 0, 0, 0x08, 0x67, 5]

theorem capture_isCapture : IsCapture capture (unitBytes units) :=
  ⟨hexText [0x26, 0], hexText [8, 0], hexText [1, 255, 0, 0, 0, 0, 0x08, 0x67], hexText [5], 8, 0,
    by decide, by decide, by decide, by decide, by decide⟩

theorem witness_LaunchedCommandsEnd :
    (loaded capture [7] [1]).status = 0 ∧ (loaded capture [7] [1]).erroff = 0 ∧ Launchable (loaded capture [7] [1]) .convertL2
      ∧ Launchable (loaded capture [7] [1]) .pack ∧ Launchable (loaded capture [7] [1]) .compressL3 :=
  ⟨rfl, rfl, ⟨_, hexIs_loaded _ _ (by decide)⟩, ⟨_, durIs_loaded _ _ (by decide)⟩, ⟨_, payIs_loaded _ _ (by decide)⟩⟩

/-- Each length at its capacity (`NMAX` at its least), the second cell of each buffer the first that nothing has written. -/
def halfWritten : State :=
  { loaded (bytes [0x32]) [7] (bytes [9]) with hexlen := 131078, durlen := 65535, paylen := 131070 }

theorem witness_UnwrittenInputIsRefused :
    halfWritten.status = 0 ∧ halfWritten.hexlen.toNat ≤ 131078 ∧ FirstUnwritten halfWritten.mem.hex halfWritten.hexlen.toNat 1
      ∧ halfWritten.durlen.toNat ≤ 65535 ∧ FirstUnwritten halfWritten.mem.dur halfWritten.durlen.toNat 1
      ∧ halfWritten.paylen.toNat ≤ Config.nmax ∧ FirstUnwritten halfWritten.mem.pay halfWritten.paylen.toNat 1 := by
  refine ⟨rfl, by decide, ⟨by decide, by decide, by decide⟩, by decide, ⟨by decide, by decide, by decide⟩, ?_,
    ⟨by decide, by decide, by decide⟩⟩
  have := nmax_range
  show 131070 ≤ Config.nmax
  omega

theorem witness_NoCommandRecordsInvariantViolation :
    spaceOf .compressL3 = .cmd ∧ (loaded [] [] (bytes [7, 7, 7, 7])).status = 0
      ∧ ∃ t, exec .compressL3 (loaded [] [] (bytes [7, 7, 7, 7])) = .next t ∧ (t.outlen == 4) = true :=
  ⟨rfl, rfl, exists_next (by decide +kernel)⟩

/-- The clause on order: two equal counts and two apart. -/
theorem witness_TickToDurRanges : (3 : Nat) ≤ 3 ∧ (2151 : Nat) ≤ 2152 := by decide

theorem witness_DecodeOfCapture :
    (loaded capture [] []).status = 0 ∧ (loaded capture [] []).hexlen.toNat ≤ 131078 ∧ HexIs (loaded capture [] []) capture
      ∧ IsCapture capture (unitBytes units) ∧ HaveTicks units ticks ∧ ∀ t ∈ ticks, t ≤ 2151 :=
  ⟨rfl, by decide, hexIs_loaded _ _ (by decide), capture_isCapture, by simp [HaveTicks, units, ticks, unitTicks], by decide⟩

/-- No unit at all: V27. -/
theorem witness_DecodeOfCapture_empty : IsCapture (hexText [0x26, 0, 0, 0]) (unitBytes []) ∧ HaveTicks [] [] :=
  ⟨⟨hexText [0x26, 0], hexText [0, 0], [], [], 0, 0, by decide, by decide, by decide, by decide, by decide⟩, rfl⟩

/-- A string of 7 characters (V26); a bad character at the first and at the last place of the length field, with none before
it; a region one character too long for the string (V39). -/
theorem witness_DecodeHeaderFaults :
    (hexText [0x26, 0, 0] ++ [0x30]).length < 8
      ∧ nib ((bytes [0x32, 0x36, 0x30, 0x30, 0x67, 0x30, 0x30, 0x30]).getD 4 0) = none
      ∧ nib ((bytes [0x32, 0x36, 0x30, 0x30, 0x30, 0x30, 0x30, 0x67]).getD 7 0) = none
      ∧ (∀ j, 4 ≤ j → j < 7 → nib ((bytes [0x32, 0x36, 0x30, 0x30, 0x30, 0x30, 0x30, 0x67]).getD j 0) ≠ none)
      ∧ spells (((hexText [0x26, 0, 2, 0, 0x12] ++ [0x30]).drop 4).take 4) [2, 0] = true
      ∧ (hexText [0x26, 0, 2, 0, 0x12] ++ [0x30]).length < 8 + 2 * ((2 : Byte).toNat + 256 * (0 : Byte).toNat)
      ∧ HexIs (loaded (hexText [0x26, 0, 2, 0, 0x12] ++ [0x30]) [] []) (hexText [0x26, 0, 2, 0, 0x12] ++ [0x30]) := by
  refine ⟨by decide, by decide, by decide, fun j h4 h7 => ?_, by decide, by decide, hexIs_loaded _ _ (by decide)⟩
  have : j = 4 ∨ j = 5 ∨ j = 6 := by omega
  rcases this with rfl | rfl | rfl <;> decide

/-- A unit that fits, then characters nothing is said of. -/
def afterUnit (declen : Nat) (chars : List Nat) : List Byte := hexText [0x26, 0, declen, 0, 0x12] ++ bytes chars

theorem afterUnit_starts {declen : Nat} {chars : List Nat} (fits : declen < 256) (low : 1 ≤ declen)
    (room : 2 * declen ≤ 2 + chars.length)
    (spelled : spells (charsOf declen ++ charsOf 0) [BitVec.ofNat 8 declen, 0] = true) :
    RegionStarts (afterUnit declen chars) (unitBytes [.tick1 0x12]) declen :=
  ⟨hexText [0x26, 0], charsOf declen ++ charsOf 0, hexText [0x12], bytes chars, BitVec.ofNat 8 declen, 0, by
      simp [afterUnit, hexText], by decide, spelled, by
      rw [BitVec.toNat_ofNat]
      show declen % 256 + 256 * 0 = declen
      omega, by decide, low, by
      simp only [afterUnit, hexText, bytes, charsOf, List.length_append, List.length_map, List.flatMap_cons,
        List.flatMap_nil, List.length_cons, List.length_nil]
      omega⟩

/-- Each fault of a unit at its ends: a bad first and a bad second character of the first byte (V30); a marker with no data
byte, and with one (V36, V22), whose characters are bad; a bad character first and last in the data bytes (V40). -/
theorem witness_DecodeTruncatedEscape :
    HaveTicks [.tick1 0x12] [18] ∧ (unitBytes [.tick1 0x12]).length = 1
      ∧ RegionStarts (afterUnit 2 [0x47, 0x33]) (unitBytes [.tick1 0x12]) 2 ∧ nib ((afterUnit 2 [0x47, 0x33]).getD 10 0) = none
      ∧ RegionStarts (afterUnit 2 [0x33, 0x47]) (unitBytes [.tick1 0x12]) 2 ∧ nib ((afterUnit 2 [0x33, 0x47]).getD 10 0) = some 3
      ∧ nib ((afterUnit 2 [0x33, 0x47]).getD 11 0) = none
      ∧ RegionStarts (afterUnit 2 [0x30, 0x30]) (unitBytes [.tick1 0x12]) 2
      ∧ RegionStarts (afterUnit 3 [0x30, 0x30, 0x47, 0x47]) (unitBytes [.tick1 0x12]) 3 ∧ 3 < 1 + 3
      ∧ nib ((afterUnit 3 [0x30, 0x30, 0x47, 0x47]).getD 10 0) = some 0
      ∧ nib ((afterUnit 3 [0x30, 0x30, 0x47, 0x47]).getD 11 0) = some 0
      ∧ RegionStarts (afterUnit 4 [0x30, 0x30, 0x47, 0x30, 0x30, 0x30]) (unitBytes [.tick1 0x12]) 4 ∧ 1 + 3 ≤ 4
      ∧ nib ((afterUnit 4 [0x30, 0x30, 0x47, 0x30, 0x30, 0x30]).getD 12 0) = none
      ∧ RegionStarts (afterUnit 4 [0x30, 0x30, 0x30, 0x30, 0x30, 0x47]) (unitBytes [.tick1 0x12]) 4
      ∧ nib ((afterUnit 4 [0x30, 0x30, 0x30, 0x30, 0x30, 0x47]).getD 15 0) = none
      ∧ (∀ j, 2 ≤ j → j < 5 → nib ((afterUnit 4 [0x30, 0x30, 0x30, 0x30, 0x30, 0x47]).getD (10 + j) 0) ≠ none)
      ∧ HexIs (loaded (afterUnit 4 [0x30, 0x30, 0x30, 0x30, 0x30, 0x47]) [] []) (afterUnit 4 [0x30, 0x30, 0x30, 0x30, 0x30, 0x47]) := by
  refine ⟨by simp [HaveTicks, unitTicks], by decide, afterUnit_starts ?_ ?_ ?_ ?_, by decide, afterUnit_starts ?_ ?_ ?_ ?_,
    by decide, by decide, afterUnit_starts ?_ ?_ ?_ ?_, afterUnit_starts ?_ ?_ ?_ ?_, by decide, by decide, by decide,
    afterUnit_starts ?_ ?_ ?_ ?_, by decide, by decide, afterUnit_starts ?_ ?_ ?_ ?_, by decide, fun j h2 h5 => ?_,
    hexIs_loaded _ _ (by decide)⟩
  case refine_25 =>
    have : j = 2 ∨ j = 3 ∨ j = 4 := by omega
    rcases this with rfl | rfl | rfl <;> decide
  all_goals decide

/-- V40 through the command: the bad character of a data byte is reported by its index. -/
theorem test_decode_v40 :
    seeDur (exec .decode (loaded (hexText [0x26, 0, 4, 0, 0x12, 0] ++ bytes [0x5A, 0x5A, 0x31, 0x32]) [] []))
      = some (0x307, 12, []) := by decide +kernel

/-- V33: the least count out of range, after a unit that fits. -/
theorem witness_DurOvfChoices :
    (hexText [0x26, 0, 4, 0, 0x68, 0, 0x08, 0x68]).length
        = (loaded (hexText [0x26, 0, 4, 0, 0x68, 0, 0x08, 0x68]) [] []).hexlen.toNat
      ∧ IsCapture (hexText [0x26, 0, 4, 0, 0x68, 0, 0x08, 0x68]) (unitBytes [.tick1 0x68, .tick3 0x08 0x68])
      ∧ HaveTicks [.tick1 0x68, .tick3 0x08 0x68] [104, 2152]
      ∧ [Instr.tick1 0x68, .tick3 0x08 0x68] = [.tick1 0x68] ++ .tick3 0x08 0x68 :: []
      ∧ unitTicks (.tick3 0x08 0x68) = some 2152 ∧ unitTicks (.tick1 0x68) = some 104 ∧ (104 : Nat) ≤ 2151 :=
  ⟨by decide,
    ⟨hexText [0x26, 0], hexText [4, 0], hexText [0x68, 0, 0x08, 0x68], [], 4, 0, by decide, by decide, by decide, by decide,
      by decide⟩,
    by simp [HaveTicks, unitTicks], rfl, rfl, rfl, by decide⟩

/-- V25. -/
theorem witness_DecodeFaultLeavesNoResult :
    State.reset.status = 0 ∧ ∃ t, exec .decode State.reset = .next t ∧ (t.status != 0) = true :=
  ⟨rfl, exists_next (by decide)⟩

/-- The longest region a string holds, and one byte more than it holds. -/
theorem witness_FrameHeaderSetsDeclen :
    ({ State.reset with hexlen := 131078 } : State).inFault = false
      ∧ 8 + 2 * ((0xFF : Byte).toNat + 256 * (0xFF : Byte).toNat) ≤ (131078 : Word).toNat
      ∧ (8 : Word).toNat < 8 + 2 * ((1 : Byte).toNat + 256 * (0 : Byte).toNat) ∧ 8 ≤ (8 : Word).toNat := by decide

theorem witness_Tick1Decodes :
    State.reset.inFault = false ∧ (1 : Byte) ≠ 0 ∧ (0xFF : Byte) ≠ 0
      ∧ ({ State.reset with work := { Work.reset with durIdx := 65534 } } : State).work.durIdx < 65535 := by decide

/-- The three cases at their ends: a region one byte short, and counts 2151 and 2152 in a region just long enough. -/
theorem witness_Tick3Decodes :
    State.reset.inFault = false ∧ State.reset.work.durIdx < 65535
      ∧ ({ Work.reset with declen := 2 } : Work).declen < ({ Work.reset with declen := 2 } : Work).cur + 3
      ∧ ¬ ({ Work.reset with declen := 3 } : Work).declen < ({ Work.reset with declen := 3 } : Work).cur + 3
      ∧ (0x08 : Byte).toNat * 256 + (0x67 : Byte).toNat = 2151 ∧ (0x08 : Byte).toNat * 256 + (0x68 : Byte).toNat = 2152 := by
  decide

theorem witness_FilterDropsSentinels :
    (loaded [] (durations [549, 65535, 1584]) []).status = 0
      ∧ (loaded [] (durations [549, 65535, 1584]) []).durlen.toNat ≤ 65535
      ∧ DurIs (loaded [] (durations [549, 65535, 1584]) []) (durations [549, 65535, 1584]) :=
  ⟨rfl, by decide, durIs_loaded _ _ (by decide)⟩

theorem witness_FilterTwiceIsOnce :
    Inv (loaded [] (durations [549, 65535]) [])
      ∧ ∃ t, exec .filter (loaded [] (durations [549, 65535]) []) = .next t ∧ (t.status == 0 && t.durlen == 1) = true :=
  ⟨⟨by decide, .inl rfl, fun _ => rfl⟩, exists_next (by decide +kernel)⟩

theorem witness_PackWritesLittleEndian :
    (loaded [] (durations [0, 65534]) []).status = 0 ∧ (loaded [] (durations [0, 65534]) []).durlen.toNat ≤ 65535
      ∧ DurIs (loaded [] (durations [0, 65534]) []) (durations [0, 65534]) ∧ 65535 ∉ durations [0, 65534] :=
  ⟨rfl, by decide, durIs_loaded _ _ (by decide), by decide⟩

/-- A sentinel first, and last after one Duration. -/
theorem witness_PackSentinelFaults :
    65535 ∉ durations [] ∧ 65535 ∉ durations [549]
      ∧ DurIs (loaded [] (durations [] ++ 65535 :: durations [7]) []) (durations [] ++ 65535 :: durations [7])
      ∧ DurIs (loaded [] (durations [549] ++ 65535 :: []) []) (durations [549] ++ 65535 :: []) :=
  ⟨by decide, by decide, durIs_loaded _ _ (by decide), durIs_loaded _ _ (by decide)⟩

/-- The last pair of cells that every `NMAX` has. -/
theorem witness_PaydurStores :
    State.reset.inFault = false ∧ (Instr.paydur 0xFE 0xFF).wf = true ∧ 2 * 65534 + 1 < Config.nmax := by
  have := nmax_range
  exact ⟨by decide, by decide, by omega⟩

/-- A piece of one byte and of 32, the latter in the last cells of `OUT`. -/
theorem witness_LitAppendsPiece :
    State.reset.inFault = false ∧ (Instr.lit [0]).wf = true ∧ (Instr.lit (List.replicate 32 0)).wf = true
      ∧ (lenWord (Config.outCap - 33)).toNat + (List.replicate 32 (0 : Byte)).length + 1 ≤ Config.outCap := by
  have := nmax_range
  have low : 33 ≤ Config.outCap := by
    simp only [Config.outCap]
    omega
  refine ⟨by decide, by decide, by decide, ?_⟩
  rw [toNat_lenWord (by have := outCap_lt; omega), List.length_replicate]
  omega

/-- Both kinds of block, in the last cells of `OUT`: two of them for the short form, three for the long one. -/
theorem witness_MatchAppendsBlock :
    State.reset.inFault = false ∧ (lenWord (Config.outCap - 3)).toNat + [224 + 31, 0xFF, 0xFF].length ≤ Config.outCap
      ∧ (lenWord (Config.outCap - 2)).toNat + [6 * 32 + 31, 0xFF].length ≤ Config.outCap
      ∧ (Instr.matchs 6 31 0xFF).wf = true ∧ (Instr.matchl 31 0xFF 0xFF).wf = true := by
  have := nmax_range
  have low : 3 ≤ Config.outCap := by
    simp only [Config.outCap]
    omega
  refine ⟨by decide, ?_, ?_, by decide, by decide⟩
  · rw [toNat_lenWord (by have := outCap_lt; omega)]
    simp only [List.length_cons, List.length_nil]
    omega
  · rw [toNat_lenWord (by have := outCap_lt; omega)]
    simp only [List.length_cons, List.length_nil]
    omega

/-- A payload for `CompressCoversPayload` and `Level0Layout`. -/
theorem witness_CompressCoversPayload :
    (loaded [] [] (bytes [7, 7, 7, 7])).status = 0 ∧ (loaded [] [] (bytes [7, 7, 7, 7])).paylen.toNat ≤ Config.nmax
      ∧ PayIs (loaded [] [] (bytes [7, 7, 7, 7])) (bytes [7, 7, 7, 7]) :=
  ⟨rfl, pay_within _ _ (by decide), payIs_loaded _ _ (by decide)⟩

/-- A last piece of one byte, and of 32. -/
theorem witness_Level0Layout :
    PayIs (loaded [] [] (List.replicate 33 5)) (List.replicate 33 5) ∧ 32 * 1 < (List.replicate 33 (5 : Byte)).length
      ∧ PayIs (loaded [] [] (List.replicate 32 5)) (List.replicate 32 5)
      ∧ (List.replicate 33 (5 : Byte))[32]? = some 5 ∧ (loaded [] [] (List.replicate 33 5)).paylen.toNat ≤ Config.nmax :=
  ⟨payIs_loaded _ _ (by decide), by decide, payIs_loaded _ _ (by decide), by decide, pay_within _ _ (by decide)⟩

theorem witness_LevelsNeverExceedLevel0 :
    (loaded [] [] (bytes [7, 7, 7, 7])).status = 0
      ∧ ∃ t, exec .compressL1 (loaded [] [] (bytes [7, 7, 7, 7])) = .next t ∧ (t.outlen == 4) = true :=
  ⟨rfl, exists_next (by decide +kernel)⟩

/-- V121: level 2 gives 9 bytes, level 3 gives 8. -/
theorem witness_Level3NotLongerThanLevel2 :
    (loaded [] [] (bytes [0x62, 0x61, 0x61, 0x61, 0x62, 0x61, 0x61, 0x62])).status = 0
      ∧ (∃ a, exec .compressL2 (loaded [] [] (bytes [0x62, 0x61, 0x61, 0x61, 0x62, 0x61, 0x61, 0x62])) = .next a
        ∧ (a.outlen == 9) = true)
      ∧ ∃ b, exec .compressL3 (loaded [] [] (bytes [0x62, 0x61, 0x61, 0x61, 0x62, 0x61, 0x61, 0x62])) = .next b
        ∧ (b.outlen == 8) = true :=
  ⟨rfl, exists_next (by decide +kernel), exists_next (by decide +kernel)⟩

/-- V111: the match at position 1 is the candidate of both searches. -/
theorem witness_GreedyLevelsTakeCandidates :
    (loaded [] [] (bytes [7, 7, 7, 7])).status = 0 ∧ (loaded [] [] (bytes [7, 7, 7, 7])).paylen.toNat ≤ Config.nmax
      ∧ PayIs (loaded [] [] (bytes [7, 7, 7, 7])) (bytes [7, 7, 7, 7])
      ∧ nearestCandidate (bytes [7, 7, 7, 7]) 1 = (3, 1) ∧ indexCandidate (bytes [7, 7, 7, 7]) 1 = (3, 1) :=
  ⟨rfl, pay_within _ _ (by decide), payIs_loaded _ _ (by decide), by decide, by decide⟩

/-- No byte, and three. -/
theorem witness_SmallestPayloads :
    PayIs (loaded [] [] []) [] ∧ PayIs (loaded [] [] (bytes [7, 7, 7])) (bytes [7, 7, 7]) ∧ (bytes [7, 7, 7]).length ≤ 3
      ∧ (loaded [] [] (bytes [7, 7, 7])).status = 0 :=
  ⟨payIs_loaded _ _ (by decide), payIs_loaded _ _ (by decide), by decide, rfl⟩

/-- Both searches find a match of length 3 at position 1 of V111, which ends with the payload. -/
theorem witness_SearchesFindTrueMatches :
    ({ sufInit Work.reset with pos := 1 } : Work).pos < (bytes [7, 7, 7, 7]).length
      ∧ (firstMatch (bytes [7, 7, 7, 7]) { sufInit Work.reset with pos := 1 }).cdist = 1
      ∧ (firstMatch (bytes [7, 7, 7, 7]) { sufInit Work.reset with pos := 1 }).clen = 3
      ∧ (bestMatch (bytes [7, 7, 7, 7]) { sufInit Work.reset with pos := 1 }).cdist = 1
      ∧ (bestMatch (bytes [7, 7, 7, 7]) { sufInit Work.reset with pos := 1 }).clen = 3 := by decide

/-- The two other ends of a match, by hand from R170: a byte that differs after 3 at position 4, and 264 bytes with one more
equal byte after them. -/
theorem witness_SearchesFindTrueMatches_ends :
    (firstMatch (bytes [1, 2, 3, 9, 1, 2, 3, 8]) { Work.reset with pos := 4 }).clen = 3
      ∧ (firstMatch (bytes [1, 2, 3, 9, 1, 2, 3, 8]) { Work.reset with pos := 4 }).cdist = 4
      ∧ (firstMatch (List.replicate 266 7) { Work.reset with pos := 1 }).clen = 264
      ∧ (firstMatch (List.replicate 266 7) { Work.reset with pos := 1 }).cdist = 1 := by decide +kernel

/-- A position with no match (V94) and one with a match (V93). -/
theorem witness_FirstMatchTakesNearest :
    (firstMatch (bytes [7, 7, 7]) { Work.reset with pos := 1 }).cdist = 0
      ∧ (firstMatch (bytes [7, 7, 7, 7]) { Work.reset with pos := 1 }).cdist ≠ 0 := by decide

/-- A cursor with no neighbour, at position 0, and one with a neighbour, at position 1 of V104, from the empty index. -/
theorem witness_BestMatchTakesBetterNeighbor :
    IndexInv (bytes [0x61, 0x61, 0x61, 0x61]) (sufInit Work.reset) ∧ (sufInit Work.reset).next ≤ (sufInit Work.reset).pos + 1
      ∧ (∀ q, ¬ IsNeighbor (bytes [0x61, 0x61, 0x61, 0x61]) 0 q)
      ∧ IndexInv (bytes [0x61, 0x61, 0x61, 0x61]) { sufInit Work.reset with pos := 1 }
      ∧ IsNeighbor (bytes [0x61, 0x61, 0x61, 0x61]) 1 0 := by
  refine ⟨⟨by decide, by decide, by decide, fun p => ?_⟩, by decide, ?_, ⟨by decide, by decide, by decide, fun p => ?_⟩, ?_⟩
  · simp [sufInit, Work.entries]
  · rintro q (⟨window, -, -⟩ | ⟨window, -, -⟩) <;> exact absurd window.2 (by omega)
  · simp [sufInit, Work.entries]
  · refine .inl ⟨by simp [InWindow], by decide, fun r window _ => .inl ?_⟩
    have := window.2
    omega

/-- V104: shorter suffixes first. -/
theorem witness_SuffixOrderIsStrictTotal :
    sufLess (bytes [0x61, 0x61, 0x61, 0x61]) 3 2 = true ∧ sufLess (bytes [0x61, 0x61, 0x61, 0x61]) 2 1 = true
      ∧ (3 : Nat) ≠ 2 ∧ 3 < (bytes [0x61, 0x61, 0x61, 0x61]).length := by decide

theorem witness_SuffixIndexInvariants :
    IndexInv (bytes [7]) (sufInit Work.reset) ∧ (sufInit Work.reset).next < (bytes [7]).length := by
  refine ⟨⟨by decide, by decide, by decide, fun p => ?_⟩, by decide⟩
  simp [sufInit, Work.entries]

theorem witness_IndexLevelsStayBelowWindow :
    (loaded [] [] (bytes [7, 7, 7, 7])).status = 0 ∧ (loaded [] [] (bytes [7, 7, 7, 7])).paylen.toNat ≤ Config.nmax
      ∧ (∃ t, exec .compressL2 (loaded [] [] (bytes [7, 7, 7, 7])) = .next t ∧ (t.outlen == 4) = true)
      ∧ ∃ t, exec .compressL3 (loaded [] [] (bytes [7, 7, 7, 7])) = .next t ∧ (t.outlen == 4) = true :=
  ⟨rfl, pay_within _ _ (by decide), exists_next (by decide +kernel), exists_next (by decide +kernel)⟩

/-- Both ends of the reached positions, and the empty payload. -/
theorem witness_ForwardPassReachesAndCosts : 1 ≤ 1 ∧ 1 ≤ (bytes [7]).length ∧ ¬ 1 ≤ (bytes []).length := by decide

/-- The table of the example of R227, the cursor at position 1. -/
def relaxing : Work :=
  { Work.reset with
    pos := 1, dp := [some { cost := 0, len := 0, dist := 0 }, some { cost := 2, len := 1, dist := 0 }, none,
      some { cost := 4, len := 3, dist := 0 }] }

/-- `RELAX` offers 5, then 4, then 3 to a record of 4: dearer (the example of R227), as cheap and cheaper; and an edge to an
empty record. -/
theorem witness_ForwardPassReachesAndCosts_relax :
    relaxing.dpAt relaxing.pos = some { cost := 2, len := 1, dist := 0 } ∧ relaxing.pos + 2 < relaxing.dp.length
      ∧ relaxing.dpAt (relaxing.pos + 2) = some { cost := 4, len := 3, dist := 0 }
      ∧ 4 ≤ 2 + 3 ∧ 4 ≤ 2 + 2 ∧ 2 + 1 < 4 ∧ relaxing.dpAt (relaxing.pos + 1) = none
      ∧ relax relaxing { cost := 2, len := 2, dist := 0 } = relaxing
      ∧ (relax relaxing { cost := 1, len := 2, dist := 0 }).dpAt 3 = some { cost := 3, len := 2, dist := 0 } := by
  decide

/-- Ten equal bytes: the path of a literal and a match of 9, and one of a literal of 2 and a match of 8, cost 5 each; the
table keeps the first. -/
theorem witness_ForwardPassReachesAndCosts_paths :
    PathTo (List.replicate 10 7) 10 5 ∧ IsEdge (List.replicate 10 7) 2 { cost := 2, len := 8, dist := 1 }
      ∧ (dpForward (List.replicate 10 7) (sufInit Work.reset)).dpAt 2 = some { cost := 3, len := 2, dist := 0 }
      ∧ (dpForward (List.replicate 10 7) (sufInit Work.reset)).dpAt 10 = some { cost := 5, len := 9, dist := 1 } := by
  have literal : IsEdge (List.replicate 10 7) 0 { cost := 2, len := 1, dist := 0 } := by unfold IsEdge; decide +kernel
  have long : IsEdge (List.replicate 10 7) 1 { cost := 3, len := 9, dist := 1 } := by unfold IsEdge; decide +kernel
  exact ⟨.step _ (.step _ .start literal) long, by unfold IsEdge; decide +kernel, by decide +kernel, by decide +kernel⟩

/-- A payload of ten equal bytes that `COMPRESS.L3` can be started on. -/
theorem witness_ForwardPassReachesAndCosts_launch :
    (loaded [] [] (List.replicate 10 7)).status = 0 ∧ (loaded [] [] (List.replicate 10 7)).paylen.toNat ≤ Config.nmax
      ∧ PayIs (loaded [] [] (List.replicate 10 7)) (List.replicate 10 7) :=
  ⟨rfl, pay_within _ _ (by decide), payIs_loaded _ _ (by decide)⟩

/-- Two states the host cannot tell apart. -/
theorem witness_CommandsDependOnlyOnHostView :
    spaceOf .compressL2 = .cmd
      ∧ view State.reset = view { State.reset with work := { Work.reset with sufcnt := 1, suf := [5], pos := 3 }, freeCtr := 4 }
      ∧ State.reset ≠ { State.reset with work := { Work.reset with sufcnt := 1, suf := [5], pos := 3 }, freeCtr := 4 } := by
  decide

theorem witness_ConvertEqualsSequence :
    (loaded capture [] []).status = 0
      ∧ ∃ t, exec .convertL3 (loaded capture [] []) = .next t ∧ (t.status == 0 && t.durlen == 4) = true :=
  ⟨rfl, exists_next (by decide +kernel)⟩

theorem witness_ConvertOfCapture :
    (loaded capture [] []).hexlen.toNat ≤ 131078 ∧ HexIs (loaded capture [] []) capture
      ∧ IsCapture capture (unitBytes units) ∧ HaveTicks units ticks ∧ ∀ t ∈ ticks, t ≤ 2151 :=
  witness_DecodeOfCapture.2

theorem witness_ConvertFaultZeroesLengths :
    (loaded [] [5] [6]).status = 0 ∧ ∃ t, exec .convertL1 (loaded [] [5] [6]) = .next t ∧ (t.status == 0x107) = true :=
  ⟨rfl, exists_next (by decide)⟩

/-- Each of the four clauses, by a command that ends well and by one that faults. -/
theorem witness_CommandsLeaveAlone :
    (∃ t, exec .decode (loaded capture [] []) = .next t ∧ (t.status == 0) = true)
      ∧ (∃ t, exec .filter (loaded [] (durations [7]) []) = .next t ∧ (t.status == 0) = true)
      ∧ (∃ t, exec .pack (loaded [] (durations [65535]) []) = .next t ∧ (t.status == 0x10F) = true)
      ∧ (∃ t, exec .compressL3 (loaded [] [] (bytes [7])) = .next t ∧ (t.status == 0) = true)
      ∧ ∃ t, exec .convertL0 (loaded [] [] []) = .next t ∧ (t.status == 0x107) = true :=
  ⟨exists_next (by decide +kernel), exists_next (by decide +kernel), exists_next (by decide +kernel),
    exists_next (by decide +kernel), exists_next (by decide)⟩

end Sys2Proof.Tests
end

section
/-!
PROOF. Which values written to `CMD` are reserved, and what writing one does (30_encoding.md R93, 47_commands.md R245).
-/

namespace Sys2Proof.Proofs

open Sys2Proof.Machine

/-! ## Reserved values -/

/-- The value of a field of a command word, by division and remainder. -/
theorem toNat_wordField (w : Word) (start len : Nat) :
    (w.extractLsb' start len).toNat = w.toNat / 2 ^ start % 2 ^ len := by
  rw [BitVec.extractLsb'_toNat, Nat.shiftRight_eq_div_pow]

/-- A field of a command word is not clear exactly when its value is not 0. -/
theorem wordField_ne_zero_iff (w : Word) (start len : Nat) :
    (w.extractLsb' start len != 0) = true ↔ w.toNat / 2 ^ start % 2 ^ len ≠ 0 := by
  rw [bne_iff_ne, ← toNat_wordField, ← BitVec.toNat_ne_iff_ne]
  simp

/-- The reserved values by number: the four reasons of 30_encoding.md R93. -/
theorem isReserved_iff (w : Word) :
    isReserved w = true ↔ w.toNat / 16 % 16 ≥ 6 ∨ w.toNat / 4 % 4 ≠ 0 ∨ (w.toNat / 16 % 16 ≤ 3 ∧ w.toNat % 4 ≠ 0)
      ∨ w.toNat / 256 ≠ 0 := by
  have bits : w.toNat < 2 ^ 32 := w.isLt
  simp only [isReserved, Bool.or_eq_true, Bool.and_eq_true, decide_eq_true_eq, wordField_ne_zero_iff, toNat_wordField]
  omega

/-! ## Decoding -/

/-- A reserved value decodes as reserved. -/
theorem decodeCmd_of_isReserved {w : Word} (h : isReserved w = true) : decodeCmd w = .cmdReserved w := by
  simp [decodeCmd, h]

/-- A value that is not reserved has one of the operation codes 0 to 5. -/
theorem opCode_lt_six_of_not_isReserved {w : Word} (h : isReserved w = false) : (w.extractLsb' 4 4).toNat < 6 := by
  have notReserved := mt (isReserved_iff w).2 (by simp [h])
  rw [toNat_wordField]
  omega

/-- A value that is not reserved decodes as one of the twelve commands: the last row of the decoder is never reached. -/
theorem decodeCmd_ne_cmdReserved {w : Word} (h : isReserved w = false) (v : Word) : decodeCmd w ≠ .cmdReserved v := by
  have op := opCode_lt_six_of_not_isReserved h
  simp only [decodeCmd, h, Bool.false_eq_true, if_false]
  split
  case h_13 => simp only [imp_false] at *; omega
  all_goals exact Instr.noConfusion

/-- The decoder gives the reserved command on the reserved values only, and with the value as its operand. -/
theorem decodeCmd_eq_cmdReserved_iff (w v : Word) : decodeCmd w = .cmdReserved v ↔ isReserved w = true ∧ v = w := by
  cases h : isReserved w with
  | true => simp [decodeCmd_of_isReserved h, eq_comm]
  | false => simp [decodeCmd_ne_cmdReserved h]

/-! ## Meaning -/

/-- The dispatch of a reserved word. -/
theorem exec_cmdReserved (w : Word) (s : State) : exec (.cmdReserved w) s = execCmdReserved w s := rfl

/-- `STATUS` after `CmdError(ILLEGAL_CMD, _)` (60_exceptions.md R271). -/
theorem faultStatus_illegalCmd : faultStatus .illegalCmd = 0x113 := by decide

/-- Outside `FAULT` a reserved word records `ILLEGAL_CMD` with the word as offset, and no length is written. -/
theorem execCmdReserved_of_not_inFault {s : State} (h : s.inFault = false) (w : Word) :
    execCmdReserved w s = .next { s with status := 0x00000113, erroff := w } := by
  simp only [execCmdReserved, h, Bool.false_eq_true, if_false, faultEntry_none, State.recordFault,
    faultStatus_illegalCmd, BitVec.ofNat_toNat, BitVec.setWidth_eq]

/-- Settles O3: the reserved values by number are those the decoder keeps as reserved, and a reserved word outside `FAULT`
is a recorded `ILLEGAL_CMD`. -/
theorem reservedWordsRaiseIllegalCmd : Obligations.ReservedWordsRaiseIllegalCmd := by
  unfold Obligations.ReservedWordsRaiseIllegalCmd
  intro w
  constructor
  · rw [← isReserved_iff, decodeCmd_eq_cmdReserved_iff]
    simp
  · intro reserved s ready
    rw [reserved, exec_cmdReserved, execCmdReserved_of_not_inFault ready]

end Sys2Proof.Proofs
end

section
/-!
PROOF. What `DECODE` leaves when it faults, and the exact conversion of tick counts (40_timing_decoder.md R123, R126).
-/

namespace Sys2Proof.Proofs

open Sys2Proof.Machine

/-! ## The conversion -/

/-- `TICK_TO_DUR` and multiplication by `269 / 8192` are adjoint, which is what a ceiling is (40_timing_decoder.md R123). -/
theorem tickToDur_le_iff (t v : Nat) : tickToDur t ≤ v ↔ t * 8192 ≤ v * 269 := by
  simp only [tickToDur, Config.unitDen, Config.unitNum]
  omega

/-- Settles O26: the two halves of the adjunction. -/
theorem tickToDurIsCeiling : Obligations.TickToDurIsCeiling := by
  unfold Obligations.TickToDurIsCeiling
  intro t
  exact ⟨(tickToDur_le_iff t _).1 le_rfl, fun v => (tickToDur_le_iff t v).2⟩

/-! ## The body of `DECODE` -/

/-- The dispatch of `DECODE`. -/
theorem exec_decode (s : State) : exec .decode s = runCommand .decode decodeCommand s := rfl

/-- Everything `DECODE` can do once launched: refuse an unwritten character; raise, with `DURLEN` cleared and nothing else
changed but cells of `DUR`; or complete, with nothing changed but cells of `DUR` and `DURLEN`. -/
theorem decodeCommand_cases (s : State) :
    (∃ i, decodeCommand s = .unwritten .hex i)
    ∨ (∃ r dur, decodeCommand s = .raised r { s with mem := { s.mem with dur := dur }, durlen := 0 })
    ∨ (∃ durs dur n, decodeCommand s = .done durs { s with mem := { s.mem with dur := dur }, durlen := n }) := by
  cases read : cellsRead s.mem.hex 0 s.hexlen.toNat with
  | error i => exact .inl ⟨i, by simp [decodeCommand, read]⟩
  | ok hex =>
    have body : decodeCommand s = decodeBody Config.durOvf hex s := by simp [decodeCommand, read]
    rw [body]
    obtain ⟨r, _, raised⟩ | ⟨_, durs, r, _, _, raised⟩ | ⟨_, durs, _, _, done⟩ := decodeBody_cases Config.durOvf hex s
    · exact .inr (.inl ⟨r, s.mem.dur, raised⟩)
    · exact .inr (.inl ⟨r, cellsWrite s.mem.dur 0 durs, raised⟩)
    · exact .inr (.inr ⟨durs, cellsWrite s.mem.dur 0 durs, lenWord durs.length, done⟩)

/-! ## The command -/

/-- The state in which a `DECODE` launched in `s` leaves the machine when it raises `r` with the cells `dur` in `DUR`. -/
def decodeFaulted (s : State) (r : Raise) (dur : Cells 16) : State :=
  { s with
    status := faultStatus r.cause
    erroff := BitVec.ofNat 32 r.off
    mem := { s.mem with dur := dur }
    durlen := 0
    work := leftover s.freeCtr
    freeCtr := s.freeCtr + 1 }

/-- Fault entry and the end of the call, over a body that has changed `STATUS.STATE`, `DUR` cells and `DURLEN` only. -/
theorem endCall_faultEntry_decode (s : State) (r : Raise) (dur : Cells 16) (durlen : Word) :
    (faultEntry (some .decode) r
      { s.setState stBusy with mem := { s.mem with dur := dur }, durlen := durlen }).endCall .decode
        = decodeFaulted s r dur := rfl

/-- Outside `FAULT` a `DECODE` that has a next state either goes back to `READY` or records a fault with no result. -/
theorem exec_decode_cases {s t : State} (ready : s.inFault = false) (run : exec .decode s = .next t) :
    t.status = withStatusState s.status stReady ∨ ∃ r dur, t = decodeFaulted s r dur := by
  rw [exec_decode] at run
  cases len : checkLen .decode s with
  | some r =>
    rw [runCommand_len ready len] at run
    cases run
    exact .inr ⟨r, s.mem.dur, endCall_faultEntry_decode s r s.mem.dur s.durlen⟩
  | none =>
    obtain ⟨i, body⟩ | ⟨r, dur, body⟩ | ⟨durs, dur, n, body⟩ := decodeCommand_cases (s.setState stBusy)
    · rw [runCommand_unwritten ready len body] at run
      cases run
    · rw [runCommand_raised ready len body] at run
      cases run
      exact .inr ⟨r, dur, endCall_faultEntry_decode s r dur 0⟩
    · rw [runCommand_done ready len body] at run
      cases run
      exact .inl (withStatusState_idem s.status stBusy stReady)

/-- Settles O32: a `STATUS` other than 0 rules out the way back to `READY`, and the other way leaves no result. -/
theorem decodeFaultLeavesNoResult : Obligations.DecodeFaultLeavesNoResult := by
  unfold Obligations.DecodeFaultLeavesNoResult
  intro s t clear run faulted
  obtain completed | ⟨r, dur, rfl⟩ := exec_decode_cases (State.inFault_of_status_zero clear) run
  · exact absurd (by rw [completed, clear, withStatusState_zero_ready]) faulted
  · exact ⟨by simp [decodeFaulted, State.inFault], rfl, rfl⟩

end Sys2Proof.Proofs
end

section
/-!
PROOF. What `FILTER` does to the duration sequence, and what it leaves alone (41_filter_pack.md R140).
-/

namespace Sys2Proof.Proofs

open Sys2Proof.Machine Sys2Proof.Safety

/-! ## The body of `FILTER` -/

/-- The dispatch of `FILTER`. -/
theorem exec_filter (s : State) : exec .filter s = runCommand .filter filterCommand s := rfl

/-- The kept durations, with the sentinel by its value. -/
theorem keepDurations_eq_filter (durs : List Half) : keepDurations durs = durs.filter (· ≠ 65535) :=
  List.filter_congr fun v _ => by simp [Config.sentinel, bne, beq_eq_decide]

/-- With its input written, `FILTER` runs its body over the whole of it. -/
theorem filterCommand_of_durIs {s : State} {durs : List Half} (input : DurIs s durs) :
    filterCommand s = filterBody durs s := by
  rw [DurIs] at input
  simp only [filterCommand, input]

/-- The length check lets a duration sequence within `DURCAP` through (47_commands.md R249). -/
theorem checkLen_filter_of_le {s : State} (fits : s.durlen.toNat ≤ 65535) : checkLen .filter s = none := by
  rw [checkLen_eq]
  exact if_neg (Nat.not_lt.2 fits)

/-! ## The command -/

/-- The state in which a `FILTER` launched in `s` over the durations `durs` leaves the machine. -/
def filterDone (s : State) (durs : List Half) : State :=
  { s with
    status := withStatusState s.status stReady
    mem := { s.mem with dur := cellsWrite s.mem.dur 0 (keepDurations durs) }
    durlen := lenWord (keepDurations durs).length
    work := leftover s.freeCtr
    freeCtr := s.freeCtr + 1 }

/-- The end of the call, over what the body of `FILTER` leaves. -/
theorem endCall_filterBody (s : State) (durs : List Half) :
    State.endCall .filter
      (({ (s.setState stBusy).writeDur 0 (keepDurations durs) with
            durlen := lenWord (keepDurations durs).length } : State).setState stReady)
      = filterDone s durs :=
  State.eq_of_fields (withStatusState_idem s.status stBusy stReady) rfl rfl rfl rfl rfl rfl rfl rfl rfl rfl rfl

/-- `FILTER` outside `FAULT`, its length in range and its input written, completes. -/
theorem exec_filter_eq_next {s : State} {durs : List Half} (ready : s.inFault = false)
    (fits : s.durlen.toNat ≤ 65535) (input : DurIs s durs) : exec .filter s = .next (filterDone s durs) := by
  rw [exec_filter, runCommand_done ready (checkLen_filter_of_le fits)
    (filterCommand_of_durIs (s := s.setState stBusy) input), endCall_filterBody]

/-- `DURLEN` then counts the kept durations: they are no more than there were, so their number fits it. -/
theorem toNat_durlen_filterDone {s : State} {durs : List Half} (input : DurIs s durs) :
    (filterDone s durs).durlen.toNat = (keepDurations durs).length := by
  have counted : durs.length = s.durlen.toNat := cellsRead_length input
  have kept := keepDurations_length_le durs
  have fits := s.durlen.isLt
  exact toNat_lenWord (by omega)

/-- After `FILTER` the duration sequence is the kept durations: they are the block that `FILTER` wrote. -/
theorem durIs_filterDone {s : State} {durs : List Half} (input : DurIs s durs) :
    DurIs (filterDone s durs) (keepDurations durs) := by
  rw [DurIs, toNat_durlen_filterDone input]
  exact cellsRead_cellsWrite s.mem.dur 0 (keepDurations durs)

/-- `FILTER` writes no cell from the number of kept durations on. -/
theorem cellRead_dur_filterDone {s : State} {durs : List Half} {i : Nat} (above : (keepDurations durs).length ≤ i) :
    cellRead (filterDone s durs).mem.dur i = cellRead s.mem.dur i :=
  cellRead_cellsWrite_outside (.inr (by omega))

/-- Over a clear `STATUS`, `FILTER` changes only `DUR`, `DURLEN` and what every call leaves unspecified. -/
theorem filterDone_frame {s : State} (clear : s.status = 0) (durs : List Half) :
    filterDone s durs
      = { s with
          mem := { s.mem with dur := (filterDone s durs).mem.dur }
          durlen := (filterDone s durs).durlen
          work := (filterDone s durs).work
          freeCtr := (filterDone s durs).freeCtr } := by
  have status : withStatusState s.status stReady = s.status := by rw [clear, withStatusState_zero_ready]
  exact State.eq_of_fields status rfl rfl rfl rfl rfl rfl rfl rfl rfl rfl rfl

/-- Settles O36: `FILTER` completes in `filterDone`, whose sequence, cells above it and frame are those claimed. -/
theorem filterDropsSentinels : Obligations.FilterDropsSentinels := by
  unfold Obligations.FilterDropsSentinels
  intro s durs clear fits input
  have length := toNat_durlen_filterDone input
  rw [← keepDurations_eq_filter]
  exact ⟨filterDone s durs, exec_filter_eq_next (State.inFault_of_status_zero clear) fits input,
    durIs_filterDone input, length, fun i above => cellRead_dur_filterDone (length ▸ above),
    filterDone_frame clear durs⟩

end Sys2Proof.Proofs
end

section
/-!
PROOF. The bytes of a match block, and the two faults of `EMIT_MATCH` in their order (42_block_emitter.md R152).
-/

namespace Sys2Proof.Proofs

open Sys2Proof.Machine

/-! ## Match blocks by number -/

/-- A match header by number: three bits of form or length above five bits of distance (30_encoding.md R101, R102). -/
theorem toNat_matchHeader (l : BitVec 3) (h : BitVec 5) : (l ++ h : Byte).toNat = l.toNat * 32 + h.toNat := by
  rw [BitVec.toNat_append, ← Nat.shiftLeft_add_eq_or_of_lt h.isLt, Nat.shiftLeft_eq]

/-- The bytes of a short match block, by number. -/
theorem encode_matchs_toNat (l : BitVec 3) (h : BitVec 5) (e : Byte) :
    (encode (.matchs l h e)).map BitVec.toNat = [l.toNat * 32 + h.toNat, e.toNat] := by
  simp only [encode, List.map_cons, List.map_nil, toNat_matchHeader]

/-- The bytes of a long match block, by number: its header has 7 in place of a length. -/
theorem encode_matchl_toNat (h : BitVec 5) (c e : Byte) :
    (encode (.matchl h c e)).map BitVec.toNat = [7 * 32 + h.toNat, c.toNat, e.toNat] := by
  simp only [encode, List.map_cons, List.map_nil, toNat_matchHeader]
  rfl

/-! ## The block of a length and a distance -/

/-- A distance splits into the header's five bits and the low byte. -/
theorem matchDist_split {h : BitVec 5} {e : Byte} {dist : Nat} (carried : matchDist h e = dist) :
    h.toNat = (dist - 1) / 256 ∧ e.toNat = (dist - 1) % 256 := by
  have low : e.toNat < 2 ^ 8 := e.isLt
  simp only [matchDist] at carried
  omega

/-- The block of a length from 3 to 8: no continuation byte, and the length in the header (42_block_emitter.md R152). -/
theorem encode_matchRecord_short {len dist : Nat} (len3 : 3 ≤ len) (len8 : len ≤ 8) (d1 : 1 ≤ dist) (d : dist ≤ 8192) :
    (encode (matchRecord len dist)).map BitVec.toNat = [(len - 2) * 32 + (dist - 1) / 256, (dist - 1) % 256] := by
  obtain ⟨l, h, e, record, _, length, distance⟩ := matchRecord_short len3 len8 d1 d
  obtain ⟨high, low⟩ := matchDist_split distance
  have field : l.toNat = len - 2 := by
    simp only [matchsLen] at length
    omega
  rw [record, encode_matchs_toNat, field, high, low]

/-- The block of a length from 9 on: the continuation byte holds the length less 9 (42_block_emitter.md R152). -/
theorem encode_matchRecord_long {len dist : Nat} (len9 : 9 ≤ len) (len264 : len ≤ 264) (d1 : 1 ≤ dist)
    (d : dist ≤ 8192) :
    (encode (matchRecord len dist)).map BitVec.toNat
      = [7 * 32 + (dist - 1) / 256, len - 9, (dist - 1) % 256] := by
  obtain ⟨h, c, e, record, length, distance⟩ := matchRecord_long len9 len264 d1 d
  obtain ⟨high, low⟩ := matchDist_split distance
  have continuation : c.toNat = len - 9 := by
    simp only [matchlLen] at length
    omega
  rw [record, encode_matchl_toNat, continuation, high, low]

/-- Settles O6: the three outcomes of `EMIT_MATCH`, and of a block both forms. -/
theorem emitMatchBytes : Obligations.EmitMatchBytes := by
  unfold Obligations.EmitMatchBytes
  intro len dist p
  obtain ⟨d1, d, len3, len264, emitted⟩ | ⟨badDist, raised⟩ | ⟨d1, d, badLen, raised⟩ := emitMatch_cases len dist p
  · rw [if_neg (by omega), if_neg (by omega)]
    refine ⟨_, emitted, ?_⟩
    split_ifs with short
    · exact encode_matchRecord_short len3 (by omega) d1 d
    · exact encode_matchRecord_long (by omega) len264 d1 d
  · rwa [if_pos (by omega)]
  · rwa [if_neg (by omega), if_pos (by omega)]

end Sys2Proof.Proofs
end

section
/-!
PROOF. `FIRST_MATCH` takes the nearest distance that gives a match of at least 3 (43_match_finder.md R171).
-/

namespace Sys2Proof.Proofs

open Sys2Proof.Machine

/-- What the scan of the distances from 1 up to `n` can do: since they rise by 1, the ones tried before the one taken are
all the nearer ones. -/
theorem scanDistances_range'_cases (pay : List Byte) (pos n : Nat) :
    (scanDistances pay pos (List.range' 1 n) = (0, 0) ∧ ∀ d, 1 ≤ d → d ≤ n → matchLen pay pos (pos - d) < 3)
    ∨ ∃ dist, 1 ≤ dist ∧ dist ≤ n ∧ 3 ≤ matchLen pay pos (pos - dist)
        ∧ (∀ d, 1 ≤ d → d < dist → matchLen pay pos (pos - d) < 3)
        ∧ scanDistances pay pos (List.range' 1 n) = (matchLen pay pos (pos - dist), dist) := by
  obtain ⟨run, short⟩ | ⟨before, dist, after, distances, short, long, run⟩ :=
    scanDistances_cases pay pos (List.range' 1 n)
  · exact .inl ⟨run, fun d one le => short d (List.mem_range'_1.2 ⟨one, by omega⟩)⟩
  · obtain ⟨k, _, nearer, rest⟩ := List.range'_eq_append_iff.1 distances
    obtain ⟨first, nonempty, _⟩ := List.range'_eq_cons_iff.1 rest.symm
    refine .inr ⟨dist, by omega, by omega, long, fun d one lt => short d ?_, run⟩
    rw [nearer]
    exact List.mem_range'_1.2 ⟨one, by omega⟩

/-- What `FIRST_MATCH` can do: it writes the candidate registers only, and leaves no candidate when no distance in range
gives a match of at least 3, or else the nearest one that does (43_match_finder.md R171). -/
theorem firstMatch_cases (pay : List Byte) (w : Work) :
    (firstMatch pay w = { w with clen := 0, cdist := 0 }
      ∧ ∀ d, 1 ≤ d → d ≤ min w.pos 8192 → matchLen pay w.pos (w.pos - d) < 3)
    ∨ ∃ dist, 1 ≤ dist ∧ dist ≤ min w.pos 8192 ∧ 3 ≤ matchLen pay w.pos (w.pos - dist)
        ∧ (∀ d, 1 ≤ d → d < dist → matchLen pay w.pos (w.pos - d) < 3)
        ∧ firstMatch pay w = { w with clen := matchLen pay w.pos (w.pos - dist), cdist := dist } := by
  have written : firstMatch pay w =
      { w with clen := (scanDistances pay w.pos (List.range' 1 (min w.pos 8192))).1,
               cdist := (scanDistances pay w.pos (List.range' 1 (min w.pos 8192))).2 } := rfl
  obtain ⟨run, short⟩ | ⟨dist, one, inRange, long, short, run⟩ :=
    scanDistances_range'_cases pay w.pos (min w.pos 8192)
  · exact .inl ⟨by rw [written, run], short⟩
  · exact .inr ⟨dist, one, inRange, long, short, by rw [written, run]⟩

/-- Settles O49: no candidate and the nearest candidate are the two outcomes of the scan, and a distance of 0 tells them
apart because the scan starts at 1. -/
theorem firstMatchTakesNearest : Obligations.FirstMatchTakesNearest := by
  unfold Obligations.FirstMatchTakesNearest
  intro pay w
  obtain ⟨absent, short⟩ | ⟨dist, one, inRange, long, short, found⟩ := firstMatch_cases pay w
  · rw [absent]
    exact ⟨rfl, fun _ => ⟨rfl, short⟩, fun nonzero => absurd rfl nonzero⟩
  · rw [found]
    exact ⟨rfl, fun (zero : dist = 0) => by omega, fun _ => ⟨inRange, rfl, long, short⟩⟩

end Sys2Proof.Proofs
end

section
/-!
PROOF. The layout of `COMPRESS.L0`: one literal run in pieces of 32 bytes, a header before each (45_greedy_compress.md R206,
42_block_emitter.md R151).
-/

namespace Sys2Proof.Proofs

open Sys2Proof.Machine Sys2Proof.Safety

/-! ## The bytes of a literal run -/

section litRun

variable {pay : List Byte} {n a b : Nat}

/-- A run that is not empty is its first piece, a header and the bytes, and the run of the rest. -/
theorem emitLitRun_succ (more : a < b) (inside : b ≤ pay.length) :
    (emitLitRun pay (n + 1) a b).1
      = BitVec.ofNat 8 (min 32 (b - a) - 1) :: (pay.drop a).take (min 32 (b - a))
          ++ (emitLitRun pay n (a + min 32 (b - a)) b).1 := by
  rw [emitLitRun, if_pos more, Config.litMax, emitLitPiece_ok (by omega) (by omega) (by omega)]

/-- Past a full piece, which takes 33 bytes, a run goes on as the run of the rest. -/
theorem emitLitRun_getElem?_full (full : a + 32 ≤ b) (inside : b ≤ pay.length) (i : Nat) :
    (emitLitRun pay (n + 1) a b).1[33 + i]? = (emitLitRun pay n (a + 32) b).1[i]? := by
  have first : ((pay.drop a).take 32).length = 32 := by
    rw [List.length_take, List.length_drop]
    omega
  rw [emitLitRun_succ (by omega) inside, show min 32 (b - a) = 32 by omega,
    List.getElem?_append_right (by rw [List.length_cons, first]; omega), List.length_cons, first,
    Nat.add_sub_cancel_left]

/-- Every 33rd byte of a run is a header: the length of its piece less 1. -/
theorem emitLitRun_header {k : Nat} (fuel : b - a ≤ n) (inside : b ≤ pay.length) (starts : a + 32 * k < b) :
    (emitLitRun pay n a b).1[33 * k]? = some (BitVec.ofNat 8 (min 32 (b - a - 32 * k) - 1)) := by
  induction n generalizing a k with
  | zero => omega
  | succ n ih =>
    cases k with
    | zero =>
      rw [emitLitRun_succ (by omega) inside]
      rfl
    | succ k =>
      rw [show 33 * (k + 1) = 33 + 33 * k by omega, emitLitRun_getElem?_full (by omega) inside,
        ih (by omega) (by omega), show b - (a + 32) - 32 * k = b - a - 32 * (k + 1) by omega]

/-- Byte `j` of a run stands after the `j` bytes and the `j / 32 + 1` headers before it. -/
theorem emitLitRun_data {j : Nat} (fuel : b - a ≤ n) (inside : b ≤ pay.length) (within : a + j < b) :
    (emitLitRun pay n a b).1[j + j / 32 + 1]? = pay[a + j]? := by
  induction n generalizing a j with
  | zero => omega
  | succ n ih =>
    by_cases first : j < 32
    · have short : j < ((pay.drop a).take (min 32 (b - a))).length := by
        rw [List.length_take, List.length_drop]
        omega
      rw [Nat.div_eq_of_lt first, emitLitRun_succ (by omega) inside, List.cons_append, List.getElem?_cons_succ,
        List.getElem?_append_left short, List.getElem?_take_of_lt (by omega), List.getElem?_drop]
    · obtain ⟨i, rfl⟩ : ∃ i, j = 32 + i := ⟨j - 32, by omega⟩
      rw [show 32 + i + (32 + i) / 32 + 1 = 33 + (i + i / 32 + 1) by omega,
        emitLitRun_getElem?_full (by omega) inside, ih (by omega) (by omega), Nat.add_assoc]

end litRun

/-- The stream of level 0. -/
def level0Stream (pay : List Byte) : List Byte := (emitLitRun pay pay.length 0 pay.length).1

/-- The parse of level 0 emits its stream, and never raises. -/
theorem emitCalls_parseL0 (pay : List Byte) (w : Work) :
    emitCalls pay (parseL0 pay w) = (level0Stream pay, none) := by
  have completes := (emitLitRun_ok (n := pay.length) (Nat.sub_le _ 0) (Nat.zero_le _) (Nat.le_refl pay.length)).1
  simp [emitCalls, parseL0, emitCall, completes, level0Stream]

/-- A header for each 32 bytes begun. -/
theorem level0Stream_length (pay : List Byte) :
    (level0Stream pay).length = pay.length + (pay.length + 31) / 32 :=
  (emitLitRun_ok (Nat.sub_le _ 0) (Nat.zero_le _) (Nat.le_refl pay.length)).2

theorem level0Stream_header {pay : List Byte} {k : Nat} (starts : 32 * k < pay.length) :
    (level0Stream pay)[33 * k]? = some (BitVec.ofNat 8 (min 32 (pay.length - 32 * k) - 1)) :=
  emitLitRun_header (a := 0) (Nat.sub_le _ 0) (Nat.le_refl _) (by omega)

theorem level0Stream_data {pay : List Byte} {j : Nat} (within : j < pay.length) :
    (level0Stream pay)[j + j / 32 + 1]? = pay[j]? := by
  have data := emitLitRun_data (a := 0) (Nat.sub_le _ 0) (Nat.le_refl pay.length) (by omega : 0 + j < pay.length)
  rwa [Nat.zero_add] at data

/-! ## The command -/

/-- The length check lets a payload within `NMAX` through (47_commands.md R249). -/
theorem checkLen_compress_of_le {s : State} (fits : s.paylen.toNat ≤ Config.nmax) : checkLen .compress s = none := by
  rw [checkLen_eq]
  exact if_neg (Nat.not_lt.2 fits)

/-- The state in which a `COMPRESS` of any level, launched in `s`, leaves the machine when its parse emits `out`. -/
def compressDone (s : State) (out : List Byte) : State :=
  { s with
    status := withStatusState s.status stReady
    mem := { s.mem with out := cellsWrite s.mem.out 0 out }
    outlen := lenWord out.length
    work := leftover s.freeCtr
    freeCtr := s.freeCtr + 1
    outDraw := s.freeCtr + 1 }

/-- With its input written, a `COMPRESS` whose parse raises nothing appends what the parse emits to an empty `OUT`. -/
theorem compressCommand_of_payIs {v : BitVec 2} {parse : List Byte → Work → List EmitCall} {s : State}
    {pay out : List Byte} (input : PayIs s pay)
    (emitted : emitCalls pay (parse pay { s.work with level := v }) = (out, none)) :
    compressCommand v parse s
      = .done () (({ s with work := { s.work with level := v }, outlen := 0 } : State).appendOut out) := by
  rw [PayIs] at input
  simp only [compressCommand, input, compressBody, emitted]

/-- The end of the call, over what the body of `COMPRESS` leaves. -/
theorem endCall_compressBody (s : State) (v : BitVec 2) (out : List Byte) :
    State.endCall .compress
      ((({ s.setState stBusy with work := { s.work with level := v }, outlen := 0 } : State).appendOut out).setState
        stReady)
      = compressDone s out :=
  State.eq_of_fields (withStatusState_idem s.status stBusy stReady) rfl rfl rfl rfl (BitVec.zero_add _) rfl rfl rfl rfl
    rfl rfl

/-- `COMPRESS` outside `FAULT`, its length in range, its input written and its parse raising nothing, completes. -/
theorem runCommand_compress_eq_next {v : BitVec 2} {parse : List Byte → Work → List EmitCall} {s : State}
    {pay out : List Byte} (ready : s.inFault = false) (fits : s.paylen.toNat ≤ Config.nmax) (input : PayIs s pay)
    (emitted : emitCalls pay (parse pay { s.work with level := v }) = (out, none)) :
    runCommand .compress (compressCommand v parse) s = .next (compressDone s out) := by
  rw [runCommand_done ready (checkLen_compress_of_le fits)
    (compressCommand_of_payIs (s := s.setState stBusy) input emitted), State.setState_work, endCall_compressBody]

/-- `OUTLEN` then counts the bytes emitted. -/
theorem toNat_outlen_compressDone {out : List Byte} (room : out.length ≤ Config.outCap) (s : State) :
    (compressDone s out).outlen.toNat = out.length :=
  toNat_lenWord (Nat.lt_of_le_of_lt room outCap_lt)

/-- A byte of the stream stands in `OUT` at its own index. -/
theorem cellRead_out_compressDone {out : List Byte} {i : Nat} {b : Byte} (emitted : out[i]? = some b) (s : State) :
    cellRead (compressDone s out).mem.out i = some b := by
  obtain ⟨below, _⟩ := List.getElem?_eq_some_iff.1 emitted
  have written := cellRead_cellsWrite s.mem.out 0 i out
  rwa [if_pos (by omega), Nat.sub_zero, emitted] at written

/-- The dispatch of `COMPRESS.L0`. -/
theorem exec_compressL0 (s : State) : exec .compressL0 s = runCommand .compress (compressCommand 0 parseL0) s := rfl

/-- Settles O44: the command completes with `level0Stream` in `OUT`, whose length, headers and data are those claimed. -/
theorem level0Layout : Obligations.Level0Layout := by
  unfold Obligations.Level0Layout
  intro s pay clear fits input
  have counted : pay.length = s.paylen.toNat := cellsRead_length input
  have length := level0Stream_length pay
  have room : (level0Stream pay).length ≤ Config.outCap := length ▸ level0_fits (counted ▸ fits)
  refine ⟨compressDone s (level0Stream pay), ?_, ?_, ?_, ?_⟩
  · rw [exec_compressL0,
      runCommand_compress_eq_next (State.inFault_of_status_zero clear) fits input (emitCalls_parseL0 pay _)]
  · rw [toNat_outlen_compressDone room, length]
  · exact fun k starts => cellRead_out_compressDone (level0Stream_header starts) s
  · intro j b byte
    obtain ⟨within, _⟩ := List.getElem?_eq_some_iff.1 byte
    exact cellRead_out_compressDone ((level0Stream_data within).trans byte) s

end Sys2Proof.Proofs
end

section
/-!
PROOF. In `FAULT` every instruction but `CLEAR` is ignored (47_commands.md R245, R246).
-/

namespace Sys2Proof.Proofs

open Sys2Proof.Machine

/-- The dispatch of `CLEAR`. -/
theorem exec_clear (s : State) : exec .clear s = .next s.clearFault := rfl

/-- In `FAULT` a reserved word records nothing: the fault that is recorded stays. -/
theorem execCmdReserved_of_inFault {s : State} (h : s.inFault = true) (w : Word) : execCmdReserved w s = .next s :=
  if_pos h

/-- In `FAULT` a record handed alone changes nothing. -/
theorem runRecord_inFault {c : Running} {op : State → RecordStep} {s : State} (h : s.inFault = true) :
    runRecord c op s = .next s :=
  if_pos h

/-- In `FAULT` an instruction other than `CLEAR` changes nothing: a reserved word by its own test, the commands by the
frame they run in, the records by theirs. -/
theorem exec_of_inFault {i : Instr} {s : State} (h : s.inFault = true) (notClear : i ≠ .clear) :
    exec i s = .next s := by
  cases i with
  | clear => exact absurd rfl notClear
  | cmdReserved w => exact execCmdReserved_of_inFault h w
  | decode | filter | pack | compressL0 | compressL1 | compressL2 | compressL3 | convertL0 | convertL1 | convertL2
  | convertL3 => exact runCommand_inFault h
  | frameHdr | tick1 | tick3 | paydur | lit | matchs | matchl =>
    simp only [exec, execFrameHdr, execTick1, execTick3, execPaydur, execLit, execMatchs, execMatchl,
      runRecord_inFault h]

/-- Settles O19: `CLEAR` is `clearFault`, and `FAULT` ignores what any other word decodes to. -/
theorem clearAcknowledges : Obligations.ClearAcknowledges := by
  unfold Obligations.ClearAcknowledges
  exact fun s => ⟨exec_clear s, fun _ => exec_of_inFault⟩

end Sys2Proof.Proofs
end

section
/-!
PROOF. `CHECK_LEN`, said once for all commands: the register it reads, the capacity it compares with, and the fault of a
length above it (47_commands.md R249).
-/

namespace Sys2Proof.Proofs

open Sys2Proof.Machine Sys2Proof.Safety

/-! ## The check -/

/-- The input length register of a command (47_commands.md R249). -/
def inputLen : Running → State → Word
  | .decode, s | .convert, s => s.hexlen
  | .filter, s | .pack, s => s.durlen
  | .compress, s => s.paylen

/-- The capacity of a command's input buffer (20_memory.md R60). -/
def inputCap : Running → Nat
  | .decode | .convert => Config.hexCap
  | .filter | .pack => Config.durCap
  | .compress => Config.nmax

/-- `CHECK_LEN` compares the input length with the input's capacity, whatever the command. -/
theorem checkLen_eq_ite (c : Running) (s : State) :
    checkLen c s =
      if inputCap c < (inputLen c s).toNat then some { cause := .lenRange, off := (inputLen c s).toNat } else none := by
  rw [checkLen_eq]
  cases c <;> rfl

/-- An input length up to the capacity, itself included, is legal. -/
theorem checkLen_of_le {c : Running} {s : State} (fits : (inputLen c s).toNat ≤ inputCap c) : checkLen c s = none := by
  rw [checkLen_eq_ite, if_neg (Nat.not_lt.2 fits)]

/-- An input length above the capacity is out of range, and the offset is that length. -/
theorem checkLen_of_lt {c : Running} {s : State} (tooLong : inputCap c < (inputLen c s).toNat) :
    checkLen c s = some { cause := .lenRange, off := (inputLen c s).toNat } := by
  rw [checkLen_eq_ite, if_pos tooLong]

/-! ## The fault -/

/-- `STATUS` after `CmdError(LEN_RANGE, _)` (60_exceptions.md R271). -/
theorem faultStatus_lenRange : faultStatus .lenRange = 0x213 := by decide

/-- Clearing the output lengths and writing `STATUS.STATE` do not touch each other. -/
theorem zeroOutputs_setState (c : Running) (s : State) (v : BitVec 2) :
    zeroOutputs c (s.setState v) = (zeroOutputs c s).setState v := by
  cases c <;> rfl

/-- What the host sees when a command ends by a `raise` right after it became `BUSY`: the output lengths cleared and the
record of the fault, over what it saw before. -/
theorem view_endCall_faultEntry_setState (c : Running) (r : Raise) (s : State) (v : BitVec 2) :
    view ((faultEntry (some c) r (s.setState v)).endCall c)
      = { view (zeroOutputs c s) with status := faultStatus r.cause, erroff := BitVec.ofNat 32 r.off } := by
  rw [faultEntry_some, zeroOutputs_setState]
  rfl

/-- A command outside `FAULT` whose input length is above the capacity ends with `LEN_RANGE` recorded at that length,
its output lengths cleared, and nothing else the host sees changed. -/
theorem runCommand_overlong {α : Type} {s : State} (ready : s.inFault = false) (c : Running) (body : State → Body α)
    (tooLong : inputCap c < (inputLen c s).toNat) :
    ∃ t, runCommand c body s = .next t
      ∧ view t = { view (zeroOutputs c s) with status := 0x213, erroff := inputLen c s } := by
  refine ⟨_, runCommand_len ready (checkLen_of_lt tooLong), ?_⟩
  rw [view_endCall_faultEntry_setState, faultStatus_lenRange, BitVec.ofNat_toNat, BitVec.setWidth_eq]

/-! ## The commands -/

/-- The dispatch of `PACK`. -/
theorem exec_pack (s : State) : exec .pack s = runCommand .pack packCommand s := rfl

/-- The dispatch of `COMPRESS`, of any level. -/
theorem exec_compress {i : Instr} (h : i ∈ [Instr.compressL0, .compressL1, .compressL2, .compressL3]) :
    ∃ v parse, ∀ s, exec i s = runCommand .compress (compressCommand v parse) s := by
  simp only [List.mem_cons, List.not_mem_nil, or_false] at h
  obtain rfl | rfl | rfl | rfl := h <;> exact ⟨_, _, fun _ => rfl⟩

/-- The dispatch of `CONVERT`, of any level. -/
theorem exec_convert {i : Instr} (h : i ∈ [Instr.convertL0, .convertL1, .convertL2, .convertL3]) :
    ∃ v parse, ∀ s, exec i s = runCommand .convert (convertCommand v parse) s := by
  simp only [List.mem_cons, List.not_mem_nil, or_false] at h
  obtain rfl | rfl | rfl | rfl := h <;> exact ⟨_, _, fun _ => rfl⟩

/-- Settles O22: the two outcomes of `CHECK_LEN`, for the register, the capacity and the output lengths of each
command. -/
theorem lengthCheckFaults : Obligations.LengthCheckFaults := by
  unfold Obligations.LengthCheckFaults
  intro s clear
  have ready : s.inFault = false := State.inFault_of_status_zero clear
  refine ⟨fun fits => ⟨checkLen_of_le fits, checkLen_of_le fits⟩,
    fun fits => ⟨checkLen_of_le fits, checkLen_of_le fits⟩, fun fits => checkLen_of_le fits,
    fun tooLong => ?decode, fun tooLong i level => ?convert, fun tooLong => ?filter, fun tooLong => ?pack,
    fun tooLong i level => ?compress⟩
  case decode => exact runCommand_overlong ready .decode decodeCommand tooLong
  case convert =>
    obtain ⟨v, parse, dispatch⟩ := exec_convert level
    rw [dispatch]
    exact runCommand_overlong ready .convert (convertCommand v parse) tooLong
  case filter => exact runCommand_overlong ready .filter filterCommand tooLong
  case pack => exact runCommand_overlong ready .pack packCommand tooLong
  case compress =>
    obtain ⟨v, parse, dispatch⟩ := exec_compress level
    rw [dispatch]
    exact runCommand_overlong ready .compress (compressCommand v parse) tooLong

end Sys2Proof.Proofs
end

section
/-!
PROOF. Fault entry in numbers, and the ways out of `FAULT` (60_exceptions.md R270 to R272).
-/

namespace Sys2Proof.Proofs

open Sys2Proof.Machine

/-! ## Fault entry -/

/-- `STATUS` after a fault as a number: the cause above bit 8, the kind above bit 2, `STATE` = 3 (60_exceptions.md R271). -/
theorem faultStatus_eq_ofNat (c : Cause) :
    faultStatus c = BitVec.ofNat 32 ((causeNumber c).toNat * 256 + (kindNumber (causeKind c)).toNat * 4 + 3) := by
  cases c <;> rfl

/-- The output lengths of a running command: `DURLEN` of `DECODE` and `FILTER`, `PAYLEN` of `PACK`, `OUTLEN` of
`COMPRESS`, all three of `CONVERT` (60_exceptions.md R270). -/
theorem zeroOutputs_eq (c : Running) (s : State) :
    zeroOutputs c s = { s with
      durlen := if c = .decode ∨ c = .filter ∨ c = .convert then 0 else s.durlen
      paylen := if c = .pack ∨ c = .convert then 0 else s.paylen
      outlen := if c = .compress ∨ c = .convert then 0 else s.outlen } := by
  cases c <;> rfl

/-- Settles O17: fault entry clears the output lengths of the running command, where there is one, and makes the record;
`STATUS` by its number. -/
theorem faultEntryRecords : Obligations.FaultEntryRecords := by
  unfold Obligations.FaultEntryRecords
  intro c r s
  rw [← faultStatus_eq_ofNat]
  refine ⟨faultEntry_none r s, ?_⟩
  rw [faultEntry_some, zeroOutputs_eq]
  rfl

/-! ## What decodes as `CLEAR` -/

/-- A value written to `CMD` is `CLEAR` when it is 0 and at no other value: the operation code 0 has no level bits, and
every bit outside code and level makes a value reserved (30_encoding.md R92, R93). -/
theorem decodeCmd_eq_clear_iff (w : Word) : decodeCmd w = .clear ↔ w = 0 := by
  refine ⟨fun clear => ?_, fun zero => zero ▸ rfl⟩
  cases reserved : isReserved w with
  | true => simp [decodeCmd_of_isReserved reserved] at clear
  | false =>
    have notReserved := mt (isReserved_iff w).2 (by simp [reserved])
    have code : (w.extractLsb' 4 4).toNat = 0 := by
      simp only [decodeCmd, reserved, Bool.false_eq_true, if_false] at clear
      split at clear
      case h_1 code => exact code
      all_goals cases clear
    rw [toNat_wordField] at code
    exact BitVec.eq_of_toNat_eq (by simp; omega)

/-- A unit of the pulse data decodes as a tick unit. -/
theorem spaceOf_of_decodeUnit {bs rest : List Byte} {i : Instr} (h : decodeUnit bs = some (i, rest)) :
    spaceOf i = .unit := by
  unfold decodeUnit at h
  split at h
  · cases h
  · split at h
    · split at h <;> cases h
      rfl
    · cases h
      rfl

/-- An element of the payload decodes as a Duration. -/
theorem spaceOf_of_decodePaydur {bs rest : List Byte} {i : Instr} (h : decodePaydur bs = some (i, rest)) :
    spaceOf i = .payload := by
  unfold decodePaydur at h
  split at h
  · split at h <;> cases h
    rfl
  · cases h

/-- A block of the stream decodes as a literal or a match. -/
theorem spaceOf_of_decodeBlock {bs rest : List Byte} {i : Instr} (h : decodeBlock bs = some (i, rest)) :
    spaceOf i = .stream := by
  unfold decodeBlock at h
  split at h
  · cases h
  · dsimp only at h
    split_ifs at h
    case pos =>
      cases h
      rfl
    all_goals
      split at h <;> cases h
      rfl

/-- Bytes of a space other than `CMD` decode as an instruction of that space, so never as a command. -/
theorem spaceOf_of_decode {sp : Space} {bs rest : List Byte} {i : Instr} (record : sp ≠ .cmd)
    (h : decode sp bs = some (i, rest)) : spaceOf i = sp := by
  cases sp with
  | cmd => exact absurd rfl record
  | header =>
    rcases bs with _ | ⟨_, _ | ⟨_, _ | ⟨_, _ | ⟨_, _⟩⟩⟩⟩ <;> cases h
    rfl
  | unit => exact spaceOf_of_decodeUnit h
  | payload => exact spaceOf_of_decodePaydur h
  | stream => exact spaceOf_of_decodeBlock h

/-! ## Accesses in `FAULT` -/

/-- Whether the block is in `FAULT` is read off `STATUS` alone. -/
theorem inFault_of_status_eq {s t : State} (h : s.inFault = true) (status : t.status = s.status) : t.inFault = true := by
  rw [State.inFault, status]
  exact h

/-- In `FAULT` the bytes of a record change nothing: they hold no `CLEAR`. -/
theorem runRecordBytes_of_inFault {sp : Space} {bytes : List Byte} {s t : State} (h : s.inFault = true)
    (run : runRecordBytes sp bytes s = .next t) : t = s := by
  unfold runRecordBytes at run
  split at run
  case isTrue => cases run
  case isFalse record =>
    split at run
    case h_1 i rest decoded =>
      have notClear : i ≠ .clear := by
        rintro rfl
        exact record (spaceOf_of_decode record decoded).symm
      rw [exec_of_inFault h notClear] at run
      cases run
      rfl
    case h_2 => cases run

/-- In `FAULT` no access but the write of 0 to `CMD` and the reset event touches the record of the fault or `OUTLEN`. -/
theorem access_keeps_fault_record {a : Access} {s t : State} (h : s.inFault = true) (notClear : a ≠ .writeReg 0 0)
    (notReset : a ≠ .reset) (run : access a s = .next t) :
    t.status = s.status ∧ t.erroff = s.erroff ∧ t.outlen = s.outlen := by
  cases a with
  | writeReg n v =>
    by_cases cmd : n = 0
    · subst cmd
      have word : decodeCmd v ≠ .clear := fun clear => notClear (by rw [(decodeCmd_eq_clear_iff v).1 clear])
      rw [access, if_pos rfl, exec_of_inFault h word] at run
      cases run
      exact ⟨rfl, rfl, rfl⟩
    · rw [access, if_neg cmd] at run
      cases run
      simp
  | readReg n =>
    cases run
    simp
  | writeHex | writeDur | writePay =>
    obtain ⟨_, rfl⟩ := hostWrite_cases run
    exact ⟨rfl, rfl, rfl⟩
  | writeOut i b =>
    cases run
    exact ⟨rfl, rfl, rfl⟩
  | readCell buf i =>
    obtain ⟨_, ⟨_, _, rfl⟩ | ⟨_, _, _, rfl⟩⟩ := hostReadCell_cases run <;> simp
  | reset => exact absurd rfl notReset
  | record sp bytes =>
    obtain rfl := runRecordBytes_of_inFault h run
    exact ⟨rfl, rfl, rfl⟩

/-- Settles O21: `CLEAR` is `clearFault`, the reset event writes the reset values, and every other access keeps the
record, from which `FAULT` is read. -/
theorem onlyClearOrResetLeavesFault : Obligations.OnlyClearOrResetLeavesFault := by
  unfold Obligations.OnlyClearOrResetLeavesFault
  intro s a rest fault pending
  rw [step_access pending]
  refine ⟨?clear, ?reset, ?other⟩
  case clear =>
    rintro rfl
    exact exec_clear { s with inbox := rest }
  case reset =>
    rintro rfl
    exact ⟨State.afterReset { s with inbox := rest }, rfl, rfl, rfl⟩
  case other =>
    intro notClear notReset t run
    obtain ⟨status, erroff, outlen⟩ :=
      access_keeps_fault_record (s := { s with inbox := rest }) fault notClear notReset run
    exact ⟨inFault_of_status_eq fault status, status, erroff, outlen⟩

end Sys2Proof.Proofs
end

section
/-!
PROOF. The encoder and the decoder undo each other, the header bytes of the stream, and the words of the opcode table
(30_encoding.md).
-/

namespace Sys2Proof.Proofs

open Sys2Proof.Machine

/-! ## Command words -/

/-- The four bytes of a command word, high byte in front, are the word (log entry 14). -/
theorem wordBytes_joined (w : Word) :
    w.extractLsb' 24 8 ++ w.extractLsb' 16 8 ++ w.extractLsb' 8 8 ++ w.extractLsb' 0 8 = w := by
  ext i hi
  simp only [BitVec.getElem_append, BitVec.getElem_extractLsb']
  split_ifs <;> rw [← BitVec.getLsbD_eq_getElem] <;> congr 1 <;> omega

/-- The bytes of a command word are read back as the command it decodes to. -/
theorem decode_wordBytes (w : Word) (rest : List Byte) :
    decode .cmd (wordBytes w ++ rest) = some (decodeCmd w, rest) := by
  simp only [wordBytes, List.cons_append, List.nil_append, decode, wordBytes_joined]

/-- Settles O2: the twelve rows of 30_encoding.md R92. -/
theorem commandWordsDecode : Obligations.CommandWordsDecode := by
  unfold Obligations.CommandWordsDecode
  decide

/-! ## Stream headers (30_encoding.md R103) -/

/-- The form bits of a stream header, by number. -/
theorem toNat_headerTop (b : Byte) : (b.extractLsb' 5 3).toNat = b.toNat / 32 := by
  have := b.isLt
  rw [BitVec.extractLsb'_toNat, Nat.shiftRight_eq_div_pow]
  omega

/-- The low bits of a stream header, by number. -/
theorem toNat_headerLow (b : Byte) : (b.extractLsb' 0 5).toNat = b.toNat % 32 := by
  rw [BitVec.extractLsb'_toNat, Nat.shiftRight_zero]

/-- The form bits are told by the number of the header. -/
theorem headerTop_eq_iff (b : Byte) (v : BitVec 3) : b.extractLsb' 5 3 = v ↔ b.toNat / 32 = v.toNat := by
  rw [← BitVec.toNat_inj, toNat_headerTop]

/-- A header below `0x20` starts a literal of one byte more than its value. -/
theorem decodeBlock_lit {b : Byte} {rest : List Byte} (header : b.toNat < 32) (there : b.toNat + 1 ≤ rest.length) :
    decodeBlock (b :: rest) = some (.lit (rest.take (b.toNat + 1)), rest.drop (b.toNat + 1)) := by
  have top : b.extractLsb' 5 3 = 0 := (headerTop_eq_iff b 0).2 (Nat.div_eq_of_lt header)
  simp only [decodeBlock, top, if_true, if_pos there]

/-- A header from `0x20` to `0xDF` starts a short match. -/
theorem decodeBlock_matchs {b : Byte} (low : 32 ≤ b.toNat) (high : b.toNat < 224) (e : Byte) (rest : List Byte) :
    decodeBlock (b :: e :: rest) = some (.matchs (b.extractLsb' 5 3) (b.extractLsb' 0 5) e, rest) := by
  have not0 : ¬ b.extractLsb' 5 3 = 0 := fun h => by
    have : b.toNat / 32 = 0 := (headerTop_eq_iff b 0).1 h
    omega
  have not7 : ¬ b.extractLsb' 5 3 = 7 := fun h => by
    have : b.toNat / 32 = 7 := (headerTop_eq_iff b 7).1 h
    omega
  simp only [decodeBlock, if_neg not0, if_neg not7]

/-- A header from `0xE0` on starts a long match. -/
theorem decodeBlock_matchl {b : Byte} (low : 224 ≤ b.toNat) (c e : Byte) (rest : List Byte) :
    decodeBlock (b :: c :: e :: rest) = some (.matchl (b.extractLsb' 0 5) c e, rest) := by
  have bits := b.isLt
  have top : b.extractLsb' 5 3 = 7 := (headerTop_eq_iff b 7).2 (show b.toNat / 32 = 7 by omega)
  simp only [decodeBlock, top, if_true, show ¬ ((7 : BitVec 3) = 0) by decide, if_false]

/-- Settles O5: the three ranges of the header byte are the three values of its form bits. -/
theorem streamHeaderPartition : Obligations.StreamHeaderPartition := by
  unfold Obligations.StreamHeaderPartition
  intro b rest there
  have shape : ∃ x y more, rest = x :: y :: more := by
    match rest, there with
    | x :: y :: more, _ => exact ⟨x, y, more, rfl⟩
  obtain ⟨x, y, more, rfl⟩ := shape
  refine ⟨fun literal => ?lit, fun low high => ?short, fun low => ?long⟩
  case lit =>
    have room : b.toNat + 1 ≤ (x :: y :: more).length := by omega
    exact ⟨_, _, decodeBlock_lit literal room, List.length_take_of_le room, (List.take_append_drop _ _).symm⟩
  case short =>
    exact ⟨_, _, x, y :: more, decodeBlock_matchs low high x _, toNat_headerTop b, toNat_headerLow b, rfl⟩
  case long => exact ⟨_, x, y, more, decodeBlock_matchl low x y more, toNat_headerLow b, rfl⟩

/-! ## Reading back what the encoder writes -/

/-- The header of a match gives its form bits and its distance bits back. -/
theorem matchHeader_fields (l : BitVec 3) (h : BitVec 5) :
    (l ++ h : Byte).extractLsb' 5 3 = l ∧ (l ++ h : Byte).extractLsb' 0 5 = h := by
  have high : h.toNat < 2 ^ 5 := h.isLt
  constructor
  · rw [← BitVec.toNat_inj, toNat_headerTop, toNat_matchHeader]
    omega
  · rw [← BitVec.toNat_inj, toNat_headerLow, toNat_matchHeader]
    omega

/-- A well-formed literal block is read back. -/
theorem decodeBlock_encode_lit {data : List Byte} (wf : (Instr.lit data).wf = true) (rest : List Byte) :
    decodeBlock (encode (.lit data) ++ rest) = some (.lit data, rest) := by
  simp only [Instr.wf, Bool.and_eq_true, decide_eq_true_eq] at wf
  have header : (BitVec.ofNat 8 (data.length - 1)).toNat + 1 = data.length := by
    rw [BitVec.toNat_ofNat]
    omega
  have block := decodeBlock_lit (b := BitVec.ofNat 8 (data.length - 1)) (rest := data ++ rest) (by omega)
    (by rw [header, List.length_append]; omega)
  rw [header, List.take_left, List.drop_left] at block
  exact block

/-- A well-formed short match block is read back: its form bits are neither those of a literal nor of a long match. -/
theorem decodeBlock_encode_matchs {l : BitVec 3} {h : BitVec 5} {e : Byte} (wf : (Instr.matchs l h e).wf = true)
    (rest : List Byte) : decodeBlock (encode (.matchs l h e) ++ rest) = some (.matchs l h e, rest) := by
  simp only [Instr.wf, Bool.and_eq_true, bne_iff_ne, ne_eq, ← BitVec.toNat_inj] at wf
  have l0 : l.toNat ≠ 0 := wf.1
  have l7 : l.toNat ≠ 7 := wf.2
  have high : l.toNat < 2 ^ 3 := l.isLt
  have low : h.toNat < 2 ^ 5 := h.isLt
  have header := toNat_matchHeader l h
  have block := decodeBlock_matchs (b := l ++ h) (by omega) (by omega) e rest
  rw [(matchHeader_fields l h).1, (matchHeader_fields l h).2] at block
  exact block

/-- A long match block is read back. -/
theorem decodeBlock_encode_matchl (h : BitVec 5) (c e : Byte) (rest : List Byte) :
    decodeBlock (encode (.matchl h c e) ++ rest) = some (.matchl h c e, rest) := by
  have header : ((7 : BitVec 3) ++ h : Byte).toNat = 7 * 32 + h.toNat := toNat_matchHeader 7 h
  have block := decodeBlock_matchl (b := (7 : BitVec 3) ++ h) (by omega) c e rest
  rw [(matchHeader_fields 7 h).2] at block
  exact block

/-- A well-formed block of the stream is read back from its bytes. -/
theorem decodeBlock_encode {i : Instr} (stream : spaceOf i = .stream) (wf : i.wf = true) (rest : List Byte) :
    decodeBlock (encode i ++ rest) = some (i, rest) := by
  cases i with
  | lit data => exact decodeBlock_encode_lit wf rest
  | matchs l h e => exact decodeBlock_encode_matchs wf rest
  | matchl h c e => exact decodeBlock_encode_matchl h c e rest
  | _ => cases stream

/-- Settles O1: the commands by their words, the records by their formats. -/
theorem decodeReadsBackEncode : Obligations.DecodeReadsBackEncode := by
  unfold Obligations.DecodeReadsBackEncode
  intro i rest wf
  cases i with
  | cmdReserved w => exact (decode_wordBytes w rest).trans (by rw [decodeCmd_of_isReserved wf])
  | frameHdr l h => rfl
  | tick1 t =>
    have nonzero : ¬ t = 0 := by simpa [Instr.wf] using wf
    exact if_neg nonzero
  | tick3 h l => rfl
  | paydur l h =>
    have notSentinel : ¬ (l = 0xFF ∧ h = 0xFF) := by
      rintro ⟨rfl, rfl⟩
      cases wf
    exact if_neg notSentinel
  | lit | matchs | matchl => exact decodeBlock_encode rfl wf rest
  | _ => exact decode_wordBytes _ rest

/-! ## Words of the opcode table -/

/-- The first four bytes of a 32-bit table word, high byte in front, are the word. -/
theorem tableBytes_joined (w : Nat) :
    (BitVec.ofNat 8 (w % 2 ^ 32 / 256 ^ 3) ++ BitVec.ofNat 8 (w % 2 ^ 32 / 256 ^ 2) ++
      BitVec.ofNat 8 (w % 2 ^ 32 / 256 ^ 1) ++ BitVec.ofNat 8 (w % 2 ^ 32 / 256 ^ 0) : Word) = BitVec.ofNat 32 w := by
  have field : ∀ k, (BitVec.ofNat 32 w).extractLsb' (8 * k) 8 = BitVec.ofNat 8 (w % 2 ^ 32 / 256 ^ k) := fun k => by
    rw [← BitVec.toNat_inj, BitVec.extractLsb'_toNat, Nat.shiftRight_eq_div_pow, BitVec.toNat_ofNat, BitVec.toNat_ofNat,
      Nat.pow_mul]
  rw [← field 0, ← field 1, ← field 2, ← field 3]
  exact wordBytes_joined _

/-- What a reading of a table word in the spaces tried says: the space that reads it is one of them, and reads it so. -/
theorem decode_of_firstReading {nbits : Nat} {bytes : List Byte} {spaces : List Space} {sp : Space} {i : Instr}
    (h : firstReading nbits bytes spaces = some (sp, i)) : sp ∈ spaces ∧ ∃ rest, decode sp bytes = some (i, rest) := by
  induction spaces with
  | nil => cases h
  | cons first spaces ih =>
    simp only [firstReading] at h
    split at h
    case h_1 j rest read =>
      split_ifs at h
      · cases h
        exact ⟨List.mem_cons_self, rest, read⟩
      · exact (ih h).imp_left (List.mem_cons_of_mem _)
    case h_2 => exact (ih h).imp_left (List.mem_cons_of_mem _)

/-- Only 32-bit table words are read as commands. -/
theorem nbits_of_cmd_mem_tableSpaces {nbits : Nat} (h : Space.cmd ∈ tableSpaces nbits) : nbits = 32 := by
  unfold tableSpaces at h
  split_ifs at h <;> simp_all

/-- The command read from a 32-bit table word is the command of its value. -/
theorem decode_cmd_tableBytes (w : Nat) :
    ∃ rest, decode .cmd (tableBytes 32 w) = some (decodeCmd (BitVec.ofNat 32 w), rest) := by
  refine ⟨(tableBytes 32 w).drop 4, ?_⟩
  rw [← tableBytes_joined]
  rfl

/-- Settles O12: a command word comes to `CMD` whole, and a record's bytes are read again as they were. -/
theorem fetchWordRunsInstruction : Obligations.FetchWordRunsInstruction := by
  unfold Obligations.FetchWordRunsInstruction
  intro s nbits w i table
  rw [step_access (State.withFetchWord_inbox s nbits w)]
  show access (tableAccess nbits w) s = exec i s
  simp only [decodeTableWord, Option.map_eq_some_iff, Prod.exists, exists_eq_right] at table
  obtain ⟨sp, reading⟩ := table
  obtain ⟨tried, rest, read⟩ := decode_of_firstReading reading
  by_cases command : sp = .cmd
  · subst command
    obtain rfl := nbits_of_cmd_mem_tableSpaces tried
    obtain ⟨_, word⟩ := decode_cmd_tableBytes w
    cases read.symm.trans word
    simp only [tableAccess, reading, access, if_true]
  · have port : tableAccess nbits w = .record sp (tableBytes nbits w) := by simp only [tableAccess, reading]
    rw [port, access, runRecordBytes, if_neg command, read]

end Sys2Proof.Proofs
end

section
/-!
PROOF. The accesses of the host one by one: the register map, the buffers, the reset event, and what a word written to `CMD`
does in `FAULT` (10_state.md R22, 20_memory.md R60 to R73, 47_commands.md R245, 70_reset_and_hazards.md R290).
-/

namespace Sys2Proof.Proofs

open Sys2Proof.Machine Sys2Proof.Safety

/-! ## Words written to `CMD` -/

/-- Settles O4: the two branches of `execCmdReserved`. -/
theorem reservedWordMeaning : Obligations.ReservedWordMeaning := by
  unfold Obligations.ReservedWordMeaning
  intro w s
  rw [exec_cmdReserved]
  cases fault : s.inFault with
  | true => exact execCmdReserved_of_inFault fault w
  | false => exact execCmdReserved_of_not_inFault fault w

/-- Settles O20: in `FAULT` the word 0 is the one word that decodes as `CLEAR`, and every other command is ignored. -/
theorem faultIgnoresCommands : Obligations.FaultIgnoresCommands := by
  unfold Obligations.FaultIgnoresCommands
  intro s w fault
  by_cases zero : w = 0
  · rw [if_pos zero, (decodeCmd_eq_clear_iff w).2 zero]
    exact exec_clear s
  · rw [if_neg zero]
    exact exec_of_inFault fault (mt (decodeCmd_eq_clear_iff w).1 zero)

/-- Settles O18: the table of 95_test_vectors.md section 2.11, row by row. -/
theorem faultStatusValues : Obligations.FaultStatusValues := by
  unfold Obligations.FaultStatusValues
  decide

/-! ## Reset -/

/-- After reset a read of any register returns 0. -/
theorem readReg_reset (n : Nat) : State.reset.readReg n = 0 := by
  unfold State.readReg
  split <;> rfl

/-- After reset no buffer has a cell that was written. -/
theorem readCell_reset (buf : Buffer) (i : Nat) : State.reset.mem.readCell buf i = none := by
  cases buf <;> rfl

/-- Settles O7: the registers and the buffers of the state after reset. -/
theorem resetLeavesRegistersZero : Obligations.ResetLeavesRegistersZero :=
  ⟨readReg_reset, readCell_reset, statusState_zero⟩

/-- Settles O8: after reset `STATUS` and `ERROFF` are 0 and the buffers are empty. -/
theorem resetMeetsInvariant : Obligations.ResetMeetsInvariant := by
  unfold Obligations.ResetMeetsInvariant
  have noCell : ∀ {w n : Nat} (c : Nat × BitVec w), c ∈ ([] : Cells w) → c.1 < n := fun _ h => absurd h List.not_mem_nil
  exact ⟨⟨State.reset_mem_wf, .inl rfl, fun _ => rfl⟩, noCell, noCell, noCell, noCell⟩

/-- Settles O16: `afterReset` takes every host-visible field from the state after reset. -/
theorem resetEventRestoresReset : Obligations.ResetEventRestoresReset := by
  unfold Obligations.ResetEventRestoresReset
  intro s rest pending
  exact ⟨State.afterReset { s with inbox := rest }, step_access pending, rfl, rfl⟩

/-! ## Steps -/

/-- Settles O11: the front of the inbox is a value for `CMD` or the bytes of a record. -/
theorem stepRunsDecodedInstruction : Obligations.StepRunsDecodedInstruction := by
  unfold Obligations.StepRunsDecodedInstruction
  intro s
  refine ⟨step_idle, fun w rest pending => step_access pending, ?record⟩
  intro sp bytes rest i more pending notCmd read
  rw [step_access pending, access, runRecordBytes, if_neg notCmd, read]

/-! ## Registers -/

/-- A host read of a register by its number. -/
theorem readReg_eq (s : State) (n : Nat) :
    s.readReg n = if n = 1 then s.status else if n = 2 then s.erroff else if n = 3 then s.hexlen
      else if n = 4 then s.durlen else if n = 5 then s.paylen else if n = 6 then s.outlen else 0 := by
  unfold State.readReg
  split <;> simp_all

/-- A host write of a register by its number: only 3, 4 and 5 take the value. -/
theorem writeReg_eq (s : State) (n : Nat) (v : Word) :
    s.writeReg n v = { s with
      hexlen := if n = 3 then v else s.hexlen
      durlen := if n = 4 then v else s.durlen
      paylen := if n = 5 then v else s.paylen } := by
  apply State.eq_of_fields <;> simp

/-- Settles O13: the map of reads and of writes, and register 0 apart. -/
theorem hostRegisterMap : Obligations.HostRegisterMap := by
  unfold Obligations.HostRegisterMap
  intro s rest n
  refine ⟨fun v pending => step_access pending, fun pending => ?read, fun v pending other => ?write⟩
  case read => rw [step_access pending, access, readReg_eq, State.returned]
  case write => rw [step_access pending, access, if_neg other, writeReg_eq]

/-! ## Buffers -/

/-- A host write of a cell below the capacity. -/
theorem hostWrite_of_lt {buf : Buffer} {i : Nat} (inside : i < capacity buf) (m : Memory) (s : State) :
    hostWrite buf i m s = .next { s with mem := m } :=
  if_pos ((inCapacity_iff buf i).2 inside)

/-- A host read of a cell at or past the capacity. -/
theorem hostReadCell_of_le {buf : Buffer} {i : Nat} (outside : capacity buf ≤ i) (s : State) :
    hostReadCell buf i s = .fault (.noSuchCell buf i) :=
  if_neg (mt (inCapacity_iff buf i).1 (Nat.not_lt.2 outside))

/-- A host read of a cell that holds an element returns it. -/
theorem hostReadCell_of_some {buf : Buffer} {i : Nat} {s : State} {v : Word} (inside : i < capacity buf)
    (valid : ¬ (buf = .out ∧ s.outlen.toNat ≤ i)) (there : s.mem.readCell buf i = some v) :
    hostReadCell buf i s = .next (s.returned v) := by
  rw [hostReadCell, if_pos ((inCapacity_iff buf i).2 inside), if_neg valid, there]

/-- A host read of a cell that nothing has written is refused, unless `OUTLEN` leaves the cell free. -/
theorem hostReadCell_of_none {buf : Buffer} {i : Nat} {s : State} (inside : i < capacity buf)
    (valid : ¬ (buf = .out ∧ s.outlen.toNat ≤ i)) (unwritten : s.mem.readCell buf i = none) :
    hostReadCell buf i s = .refused (.unwrittenCell buf i) := by
  rw [hostReadCell, if_pos ((inCapacity_iff buf i).2 inside), if_neg valid, unwritten]

/-- A host read of an `OUT` cell at or above `OUTLEN` returns that cell's free value. -/
theorem hostReadCell_free {i : Nat} {s : State} (inside : i < capacity .out) (above : s.outlen.toNat ≤ i) :
    hostReadCell .out i s = .next (s.returned ((Config.freeOut i s.outDraw).setWidth 32)) := by
  rw [hostReadCell, if_pos ((inCapacity_iff .out i).2 inside), if_pos ⟨rfl, above⟩]

/-- Settles O15: past the capacity, never written, and free. -/
theorem hostReadStops : Obligations.HostReadStops := by
  unfold Obligations.HostReadStops
  intro s rest buf i pending
  rw [step_access pending]
  refine ⟨fun outside => hostReadCell_of_le outside _, fun inside valid unwritten => ?_, fun inside out above => ?_⟩
  · exact hostReadCell_of_none (s := { s with inbox := rest }) inside valid unwritten
  · subst out
    exact ⟨_, hostReadCell_free (s := { s with inbox := rest }) inside above⟩

/-- A host write of one cell, by a memory that holds the new element there, and the host's read of that cell right
after. -/
theorem step_write_then_read {s : State} {a : Access} {rest : List Access} {buf : Buffer} {i : Nat} {m : Memory} {v : Word}
    (pending : s.inbox = a :: .readCell buf i :: rest) (write : ∀ u, u.mem = s.mem → access a u = hostWrite buf i m u)
    (inside : i < capacity buf) (notOut : buf ≠ .out) (there : m.readCell buf i = some v) :
    ∃ t u, step s = .next t ∧ step t = .next u ∧ u.hostRead = v ∧ t.mem = m
      ∧ u = { s with mem := m, inbox := rest, hostRead := v } := by
  refine ⟨{ s with inbox := .readCell buf i :: rest, mem := m }, _, ?_, ?_, rfl, rfl, rfl⟩
  · rw [step_access pending]
    exact (write { s with inbox := .readCell buf i :: rest } rfl).trans (hostWrite_of_lt inside _ _)
  · rw [step_access rfl]
    exact hostReadCell_of_some inside (fun h => notOut h.1) there

/-- A host read that is answered, and the same read again: only what the host has read changes, and it reads the same. -/
theorem step_read_twice {s t : State} {buf : Buffer} {i : Nat} {rest : List Access}
    (pending : s.inbox = .readCell buf i :: .readCell buf i :: rest) (run : step s = .next t) :
    t = { s with inbox := .readCell buf i :: rest, hostRead := t.hostRead } ∧ step t = .next { t with inbox := rest } := by
  rw [step_access pending] at run
  obtain ⟨inside, ⟨rfl, above, rfl⟩ | ⟨valid, v, there, rfl⟩⟩ := hostReadCell_cases run
  · refine ⟨rfl, ?_⟩
    rw [step_access rfl]
    exact hostReadCell_free inside above
  · refine ⟨rfl, ?_⟩
    rw [step_access rfl]
    exact hostReadCell_of_some inside valid there

/-- Settles O14: a write of each host buffer, the write of `OUT`, a read of `OUT`, and a read repeated. -/
theorem hostBufferAccess : Obligations.HostBufferAccess := by
  unfold Obligations.HostBufferAccess
  intro s rest i
  refine ⟨fun c pending inside => ?hex, fun v pending inside => ?dur, fun b pending inside => ?pay,
    fun b pending => step_access pending, fun b pending inside below there => ?out, fun buf t => step_read_twice⟩
  case hex =>
    obtain ⟨t, u, first, second, read, mem, after⟩ :=
      step_write_then_read (buf := .hex) (m := { s.mem with hex := cellWrite s.mem.hex i c }) (v := c.setWidth 32) pending
        (fun u same => by rw [← same]; rfl) inside (by decide) (by simp [Memory.readCell])
    exact ⟨t, u, first, second, read, by rw [read, mem]; exact after,
      fun j other => by rw [mem]; exact cellRead_cellWrite_ne _ _ other⟩
  case dur =>
    obtain ⟨t, u, first, second, read, mem, after⟩ :=
      step_write_then_read (buf := .dur) (m := { s.mem with dur := cellWrite s.mem.dur i v }) (v := v.setWidth 32) pending
        (fun u same => by rw [← same]; rfl) inside (by decide) (by simp [Memory.readCell])
    exact ⟨t, u, first, second, read, by rw [read, mem]; exact after,
      fun j other => by rw [mem]; exact cellRead_cellWrite_ne _ _ other⟩
  case pay =>
    obtain ⟨t, u, first, second, read, mem, after⟩ :=
      step_write_then_read (buf := .pay) (m := { s.mem with pay := cellWrite s.mem.pay i b }) (v := b.setWidth 32) pending
        (fun u same => by rw [← same]; rfl) inside (by decide) (by simp [Memory.readCell])
    exact ⟨t, u, first, second, read, by rw [read, mem]; exact after,
      fun j other => by rw [mem]; exact cellRead_cellWrite_ne _ _ other⟩
  case out =>
    rw [step_access pending]
    exact hostReadCell_of_some (s := { s with inbox := rest }) inside (fun h => absurd h.2 (Nat.not_le.2 below))
      (by simp [Memory.readCell, there])

end Sys2Proof.Proofs
end

section
/-!
PROOF. The ranges of the conversion, and the records handed alone (40_timing_decoder.md R121 to R124, 41_filter_pack.md R141,
42_block_emitter.md R150 to R152; log entries 10 to 12).
-/

namespace Sys2Proof.Proofs

open Sys2Proof.Machine Sys2Proof.Safety

/-! ## Sixteen bits from two bytes -/

/-- A 16-bit quantity from its high and low byte, by number. -/
theorem toNat_half (h l : Byte) : (half h l).toNat = h.toNat * 256 + l.toNat := by
  rw [half, BitVec.toNat_append, ← Nat.shiftLeft_add_eq_or_of_lt l.isLt, Nat.shiftLeft_eq]

/-- The low byte of a 16-bit quantity, by number. -/
theorem toNat_lowByte (v : Half) : (lowByte v).toNat = v.toNat % 256 := by
  rw [lowByte, BitVec.extractLsb'_toNat, Nat.shiftRight_zero]

/-- The high byte of a 16-bit quantity, by number. -/
theorem toNat_highByte (v : Half) : (highByte v).toNat = v.toNat / 256 := by
  have := v.isLt
  rw [highByte, BitVec.extractLsb'_toNat, Nat.shiftRight_eq_div_pow]
  omega

/-- The low byte of a half is its low byte. -/
@[simp] theorem lowByte_half (h l : Byte) : lowByte (half h l) = l := by
  have := l.isLt
  rw [← BitVec.toNat_inj, toNat_lowByte, toNat_half]
  omega

/-- The high byte of a half is its high byte. -/
@[simp] theorem highByte_half (h l : Byte) : highByte (half h l) = h := by
  have := l.isLt
  rw [← BitVec.toNat_inj, toNat_highByte, toNat_half]
  omega

/-- The low byte of a Duration is its number cut to 8 bits. -/
theorem lowByte_eq_ofNat (v : Half) : lowByte v = BitVec.ofNat 8 v.toNat := by
  rw [← BitVec.toNat_inj, toNat_lowByte, BitVec.toNat_ofNat]

/-- The high byte of a Duration is its number over 256. -/
theorem highByte_eq_ofNat (v : Half) : highByte v = BitVec.ofNat 8 (v.toNat / 256) := by
  have := v.isLt
  rw [← BitVec.toNat_inj, toNat_highByte, BitVec.toNat_ofNat]
  omega

/-! ## The ranges of the conversion (40_timing_decoder.md R123, R124, R128) -/

/-- A longer count gives no shorter Duration. -/
theorem tickToDur_mono {t u : Nat} (h : t ≤ u) : tickToDur t ≤ tickToDur u :=
  (tickToDur_le_iff t _).2 (le_trans (Nat.mul_le_mul_right 8192 h) ((tickToDur_le_iff u _).1 le_rfl))

/-- A Duration fits 16 bits exactly up to count 2151. -/
theorem tickToDur_le_65535_iff (t : Nat) : tickToDur t ≤ 65535 ↔ t ≤ 2151 := by
  rw [tickToDur_le_iff]
  omega

/-- A Duration up to 65535 is below it: the multiples of `8192 / 269` pass over the sentinel. -/
theorem tickToDur_ne_65535 (t : Nat) : tickToDur t ≠ 65535 := by
  have below := tickToDur_le_iff t 65535
  have below' := tickToDur_le_iff t 65534
  omega

/-- The Duration of a count, by the name the statements give it. -/
theorem ofNat_tickToDur (t : Nat) : BitVec.ofNat 16 (tickToDur t) = durationOf t := rfl

/-- A count up to 2151 is converted, whatever `DUR_OVF` is. -/
theorem unitDur_of_le {t : Nat} (fits : t ≤ 2151) (ovf : Config.DurOvf) (cur : Nat) :
    unitDur ovf cur t = .ok (durationOf t) := by
  have small := (tickToDur_le_65535_iff t).2 fits
  exact if_neg (Nat.not_lt.2 small)

/-- Under `SATURATE` a greater count becomes the sentinel. -/
theorem unitDur_saturate {t : Nat} (large : 2152 ≤ t) (cur : Nat) : unitDur .saturate cur t = .ok 65535 := by
  have above := mt (tickToDur_le_65535_iff t).1 (by omega)
  exact if_pos (Nat.not_le.1 above)

/-- Under `FAULT` a greater count raises `DUR_RANGE` at its unit. -/
theorem unitDur_fault {t : Nat} (large : 2152 ≤ t) (cur : Nat) :
    unitDur .fault cur t = .error { cause := .durRange, off := 2 * (4 + cur) } := by
  have above := mt (tickToDur_le_65535_iff t).1 (by omega)
  exact if_pos (Nat.not_le.1 above)

/-- A Duration converted from a count up to 2151 is no sentinel. -/
theorem durationOf_ne_sentinel {t : Nat} (fits : t ≤ 2151) : durationOf t ≠ 65535 := by
  have small := (tickToDur_le_65535_iff t).2 fits
  have other := tickToDur_ne_65535 t
  rw [← ofNat_tickToDur, ne_eq, ← BitVec.toNat_inj, BitVec.toNat_ofNat]
  show ¬ tickToDur t % 65536 = 65535
  omega

/-- Settles O27: monotonicity, the range of 16 bits, the sentinel avoided, the named values, and both values of
`DUR_OVF`. -/
theorem tickToDurRanges : Obligations.TickToDurRanges := by
  unfold Obligations.TickToDurRanges
  refine ⟨fun t u => tickToDur_mono, tickToDur_le_65535_iff, tickToDur_ne_65535, rfl, rfl, rfl, rfl, rfl,
    fun cur t => ?fault, fun cur t => ?saturate⟩
  case fault =>
    by_cases fits : t ≤ 2151
    · rw [unitDur_of_le fits]
      exact fun h => durationOf_ne_sentinel fits (Except.ok.inj h)
    · rw [unitDur_fault (by omega)]
      exact nofun
  case saturate =>
    refine ⟨fun h => ?_, fun large => unitDur_saturate large cur⟩
    by_contra small
    rw [unitDur_of_le (by omega)] at h
    exact durationOf_ne_sentinel (by omega) (Except.ok.inj h)

/-! ## Records -/

/-- The dispatch of the records of a capture and of the payload. -/
theorem exec_frameHdr (l h : Byte) (s : State) : exec (.frameHdr l h) s = execFrameHdr l h s := rfl
theorem exec_tick1 (t : Byte) (s : State) :
    exec (.tick1 t) s = runRecord .decode (placeUnit Config.durOvf (tick1Count t) 1) s := rfl
theorem exec_tick3 (h l : Byte) (s : State) : exec (.tick3 h l) s = execTick3 h l s := rfl
theorem exec_paydur (l h : Byte) (s : State) : exec (.paydur l h) s = execPaydur l h s := rfl

/-- What a record does depends on its operation on the state at hand only. -/
theorem runRecord_congr {c : Running} {op op' : State → RecordStep} {s : State} (h : op s = op' s) :
    runRecord c op s = runRecord c op' s := by
  rw [runRecord, runRecord, h]

/-- What the host sees when a record raises: the output lengths of its command cleared and the record of the fault. -/
theorem view_endCall_faultEntry (c : Running) (r : Raise) (s : State) :
    view ((faultEntry (some c) r s).endCall c)
      = { view (zeroOutputs c s) with status := faultStatus r.cause, erroff := BitVec.ofNat 32 r.off } := rfl

/-- A record of `DECODE` that raises outside `FAULT`, as the host sees it. -/
theorem runRecord_decode_raised {op : State → RecordStep} {s : State} {cause : Cause} {off : Nat} {status : Word}
    (ready : s.inFault = false) (raised : op s = .raised { cause := cause, off := off })
    (number : faultStatus cause = status) :
    ∃ t, runRecord .decode op s = .next t
      ∧ view t = { view s with status := status, erroff := BitVec.ofNat 32 off, durlen := 0 } := by
  refine ⟨_, runRecord_raised ready raised, ?_⟩
  rw [view_endCall_faultEntry, number]
  rfl

/-! ## `FRAMEHDR` -/

/-- The region length of a header, by number. -/
theorem headerLen_eq (l h : Byte) : headerLen l h = l.toNat + 256 * h.toNat := by
  rw [headerLen, toNat_half]
  omega

/-- Settles O33: the two outcomes of the check of the region against the string. -/
theorem frameHeaderSetsDeclen : Obligations.FrameHeaderSetsDeclen := by
  unfold Obligations.FrameHeaderSetsDeclen
  intro s l h ready long
  have short : ¬ s.hexlen.toNat < 8 := by omega
  have header := headerLen_eq l h
  constructor
  · intro fits
    rw [exec_frameHdr, execFrameHdr]
    exact runRecord_done ready
      (by simp only [if_neg short, headerDeclen, header, if_neg (Nat.not_lt.2 fits)])
  · intro overrun
    have raised : ∃ t, exec (.frameHdr l h) s = .next t
        ∧ view t = { view s with status := 0x207, erroff := BitVec.ofNat 32 s.hexlen.toNat, durlen := 0 } := by
      rw [exec_frameHdr, execFrameHdr]
      exact runRecord_decode_raised ready (by simp only [if_neg short, headerDeclen, header, if_pos overrun])
        (by decide : faultStatus .lenOverrun = 0x207)
    rwa [BitVec.ofNat_toNat, BitVec.setWidth_eq] at raised

/-! ## `TICK1` and `TICK3` -/

/-- A unit handed alone whose count has a Duration: it goes to `DUR[n]`, and the cursor and `n` advance. -/
theorem placeUnit_of_ok {ovf : Config.DurOvf} {t used : Nat} {s : State} {v : Half}
    (converted : unitDur ovf s.work.cur t = .ok v) (room : s.work.durIdx < 65535) :
    placeUnit ovf t used s = .done { s.writeDur s.work.durIdx [v] with
      work := { s.work with cur := s.work.cur + used, durIdx := s.work.durIdx + 1 } } := by
  simp only [placeUnit, converted]
  exact if_pos ((inCapacity_iff .dur _).2 room)

/-- A unit handed alone whose count has no Duration. -/
theorem placeUnit_of_error {ovf : Config.DurOvf} {t used : Nat} {s : State} {r : Raise}
    (raised : unitDur ovf s.work.cur t = .error r) : placeUnit ovf t used s = .raised r := by
  simp only [placeUnit, raised]

/-- A record that is a unit with a Duration: the cell of `DUR` it writes, the cells it leaves alone, and its frame. -/
theorem runRecord_placeUnit {ovf : Config.DurOvf} {t : Nat} {s : State} {v : Half} (ready : s.inFault = false)
    (room : s.work.durIdx < 65535) (converted : unitDur ovf s.work.cur t = .ok v) (used : Nat) :
    ∃ u, runRecord .decode (placeUnit ovf t used) s = .next u ∧ cellRead u.mem.dur s.work.durIdx = some v
      ∧ (∀ i, i ≠ s.work.durIdx → cellRead u.mem.dur i = cellRead s.mem.dur i)
      ∧ u = { s with
          mem := { s.mem with dur := u.mem.dur }
          work := { s.work with cur := s.work.cur + used, durIdx := s.work.durIdx + 1 } } :=
  ⟨_, runRecord_done ready (placeUnit_of_ok converted room), cellRead_cellWrite_self _ _ _,
    fun _ other => cellRead_cellWrite_ne _ _ other, rfl⟩

/-- Settles O34: a one-byte count always has a Duration. -/
theorem tick1Decodes : Obligations.Tick1Decodes := by
  unfold Obligations.Tick1Decodes
  intro s t ready _ room
  have small : t.toNat < 2 ^ 8 := t.isLt
  have fits : t.toNat ≤ 2151 := by omega
  rw [exec_tick1]
  exact runRecord_placeUnit ready room (unitDur_of_le fits Config.durOvf s.work.cur) 1

/-- The count of an escaped unit, by number. -/
theorem tick3Count_eq (h l : Byte) : tick3Count h l = h.toNat * 256 + l.toNat := toNat_half h l

/-- An escaped unit that the region does not hold raises at its marker. -/
theorem exec_tick3_truncated {s : State} (truncated : s.work.declen < s.work.cur + 3) (h l : Byte) :
    exec (.tick3 h l) s
      = runRecord .decode (fun s => .raised { cause := .truncEscape, off := 2 * (4 + s.work.cur) }) s :=
  (exec_tick3 h l s).trans (runRecord_congr (by simp only [escapeCheck, if_pos truncated]))

/-- An escaped unit that the region holds is placed. -/
theorem exec_tick3_inside {s : State} (inside : ¬ s.work.declen < s.work.cur + 3) (h l : Byte) :
    exec (.tick3 h l) s = runRecord .decode (placeUnit Config.durOvf (tick3Count h l) 3) s :=
  (exec_tick3 h l s).trans (runRecord_congr (by simp only [escapeCheck, if_neg inside]))

/-- Settles O35: the check of the marker first, then the two ranges of the count, the upper one by `DUR_OVF`. -/
theorem tick3Decodes : Obligations.Tick3Decodes := by
  unfold Obligations.Tick3Decodes
  intro s h l ready room
  rw [← tick3Count_eq]
  split_ifs with truncated fits
  · rw [exec_tick3_truncated truncated]
    exact runRecord_decode_raised ready rfl (by decide : faultStatus .truncEscape = 0x407)
  · rw [exec_tick3_inside truncated]
    exact runRecord_placeUnit ready room (unitDur_of_le fits Config.durOvf s.work.cur) 3
  · rw [exec_tick3_inside truncated]
    split
    · rename_i ovf
      rw [ovf]
      exact runRecord_decode_raised ready (placeUnit_of_error (unitDur_fault (by omega) s.work.cur))
        (by decide : faultStatus .durRange = 0x507)
    · rename_i ovf
      rw [ovf]
      exact runRecord_placeUnit ready room (unitDur_saturate (by omega) s.work.cur) 3

/-! ## `PAYDUR` -/

/-- A well-formed payload element is no sentinel. -/
theorem paydurValue_ne_sentinel {l h : Byte} (wf : (Instr.paydur l h).wf = true) : paydurValue l h ≠ 65535 := by
  intro sentinel
  have low : lowByte (paydurValue l h) = l := lowByte_half h l
  have high : highByte (paydurValue l h) = h := highByte_half h l
  rw [sentinel] at low high
  subst low high
  cases wf

/-- Settles O40: two cells written one after the other. -/
theorem paydurStores : Obligations.PaydurStores := by
  unfold Obligations.PaydurStores
  intro s l h ready wf room
  have bytes : packDuration s.work.packIdx (paydurValue l h) = .ok [l, h] := by
    rw [packDuration_eq, if_neg (paydurValue_ne_sentinel wf), paydurValue, lowByte_half, highByte_half]
  have inside : inCapacity .pay (2 * s.work.packIdx + 1) = true := (inCapacity_iff .pay _).2 room
  have run : exec (.paydur l h) s = .next { s.writePay (2 * s.work.packIdx) [l, h] with
      work := { s.work with packIdx := s.work.packIdx + 1 } } := by
    rw [exec_paydur, execPaydur]
    exact runRecord_done ready (by simp only [bytes, if_pos inside])
  refine ⟨_, run, ?low, ?high, fun i notLow notHigh => ?other, rfl⟩
  case low => simp [cellRead_cellsWrite]
  case high => simp [cellRead_cellsWrite]
  case other => exact cellRead_cellsWrite_outside (by simp only [List.length_cons, List.length_nil]; omega)

/-! ## `LIT`, `MATCHS` and `MATCHL` -/

/-- A block handed alone that fits `OUT`: its bytes at the old `OUTLEN`, the other cells, and its frame. -/
theorem runRecord_appendBlock {op : State → RecordStep} {s : State} {bs : List Byte} (ready : s.inFault = false)
    (block : op s = appendBlock (.ok bs) s) (room : s.outlen.toNat + bs.length ≤ Config.outCap) :
    ∃ t, runRecord .compress op s = .next t ∧ t.outlen.toNat = s.outlen.toNat + bs.length
      ∧ cellsRead t.mem.out s.outlen.toNat bs.length = .ok bs
      ∧ (∀ i, i < s.outlen.toNat ∨ t.outlen.toNat ≤ i → cellRead t.mem.out i = cellRead s.mem.out i)
      ∧ t = { s with mem := { s.mem with out := t.mem.out }, outlen := t.outlen } := by
  have appended : op s = .done (s.appendOut bs) := block.trans (if_pos ((outFits_iff _).2 room))
  have length := toNat_appendOut (Nat.lt_of_le_of_lt room outCap_lt)
  refine ⟨_, runRecord_done ready appended, length, cellsRead_cellsWrite _ _ _, fun i outside => ?_, rfl⟩
  exact cellRead_cellsWrite_outside (length ▸ outside)

/-- Settles O41: the block of a piece in range is its header and its data. -/
theorem litAppendsPiece : Obligations.LitAppendsPiece := by
  unfold Obligations.LitAppendsPiece
  intro s data ready wf room
  simp only [Instr.wf, Bool.and_eq_true, decide_eq_true_eq] at wf
  obtain ⟨t, run, length, stored, kept, frame⟩ := runRecord_appendBlock (op := fun s =>
    appendBlock (literalBytes data s.work.bstart) s) (bs := BitVec.ofNat 8 (data.length - 1) :: data) ready
    (by simp only [literalBytes_eq, if_pos wf]) (by simpa [Nat.add_assoc] using room)
  exact ⟨t, run, by rw [length, List.length_cons, Nat.add_assoc], stored, kept, frame⟩

/-- `EMIT_MATCH` of what a well-formed match record carries emits that record. -/
theorem emitMatch_matchs {l : BitVec 3} {h : BitVec 5} {e : Byte} (wf : (Instr.matchs l h e).wf = true) (p : Nat) :
    emitMatch (matchsLen l) (matchDist h e) p = .ok (encode (.matchs l h e)) := by
  simp only [Instr.wf, Bool.and_eq_true, bne_iff_ne, ne_eq, ← BitVec.toNat_inj] at wf
  have l0 : l.toNat ≠ 0 := wf.1
  have l7 : l.toNat ≠ 7 := wf.2
  have bits : l.toNat < 2 ^ 3 ∧ h.toNat < 2 ^ 5 ∧ e.toNat < 2 ^ 8 := ⟨l.isLt, h.isLt, e.isLt⟩
  have record : matchRecord (matchsLen l) (matchDist h e) = .matchs l h e := by
    have short : ¬ 7 ≤ matchsLen l - 2 := by simp only [matchsLen]; omega
    rw [matchRecord, if_neg short]
    congr 1 <;> rw [← BitVec.toNat_inj, BitVec.toNat_ofNat] <;> simp only [matchsLen, matchDist] <;> omega
  obtain ⟨_, _, _, _, emitted⟩ | ⟨bad, _⟩ | ⟨_, _, bad, _⟩ := emitMatch_cases (matchsLen l) (matchDist h e) p
  · rw [emitted, record]
  · simp only [matchDist] at bad
    omega
  · simp only [matchsLen] at bad
    omega

/-- `EMIT_MATCH` of what a long match record carries emits that record. -/
theorem emitMatch_matchl (h : BitVec 5) (c e : Byte) (p : Nat) :
    emitMatch (matchlLen c) (matchDist h e) p = .ok (encode (.matchl h c e)) := by
  have bits : c.toNat < 2 ^ 8 ∧ h.toNat < 2 ^ 5 ∧ e.toNat < 2 ^ 8 := ⟨c.isLt, h.isLt, e.isLt⟩
  have record : matchRecord (matchlLen c) (matchDist h e) = .matchl h c e := by
    have long : 7 ≤ matchlLen c - 2 := by simp only [matchlLen]; omega
    rw [matchRecord, if_pos long]
    congr 1 <;> rw [← BitVec.toNat_inj, BitVec.toNat_ofNat] <;> simp only [matchlLen, matchDist] <;> omega
  obtain ⟨_, _, _, _, emitted⟩ | ⟨bad, _⟩ | ⟨_, _, bad, _⟩ := emitMatch_cases (matchlLen c) (matchDist h e) p
  · rw [emitted, record]
  · simp only [matchDist] at bad
    omega
  · simp only [matchlLen] at bad
    omega

/-- Bytes with given numbers are the bytes of those numbers. -/
theorem eq_map_ofNat_of_map_toNat {bs : List Byte} {ns : List Nat} (h : bs.map BitVec.toNat = ns) :
    bs = ns.map (BitVec.ofNat 8) := by
  simp [← h, Function.comp_def]

/-- Settles O42: either form emits the bytes of its own record, whose numbers are those given. -/
theorem matchAppendsBlock : Obligations.MatchAppendsBlock := by
  unfold Obligations.MatchAppendsBlock
  intro s i bytes ready wf room form
  have emits : ∃ len dist, (exec i s = runRecord .compress (fun s => appendBlock (emitMatch len dist s.work.pos) s) s)
      ∧ emitMatch len dist s.work.pos = .ok (bytes.map (BitVec.ofNat 8)) := by
    obtain ⟨l, h, e, rfl, rfl⟩ | ⟨h, c, e, rfl, rfl⟩ := form
    · exact ⟨matchsLen l, matchDist h e, rfl, (emitMatch_matchs wf _).trans
        (congrArg _ (eq_map_ofNat_of_map_toNat (encode_matchs_toNat l h e)))⟩
    · exact ⟨matchlLen c, matchDist h e, rfl, (emitMatch_matchl h c e _).trans
        (congrArg _ (eq_map_ofNat_of_map_toNat (encode_matchl_toNat h c e)))⟩
  obtain ⟨len, dist, dispatch, emitted⟩ := emits
  have appended := runRecord_appendBlock (op := fun s => appendBlock (emitMatch len dist s.work.pos) s)
    (bs := bytes.map (BitVec.ofNat 8)) ready (by simp only [emitted]) (by rwa [List.length_map])
  rwa [← dispatch, List.length_map] at appended

end Sys2Proof.Proofs
end

section
/-!
PROOF. `DECODE` over a string: what a capture gives, and every fault with its place (40_timing_decoder.md R120 to R129,
60_exceptions.md R267). All of it is said about `decodeOutcome`, the durations and the `raise` as a function of the characters.
-/

namespace Sys2Proof.Proofs

open Sys2Proof.Machine Sys2Proof.Safety

/-! ## The durations and the `raise` of a string -/

/-- The durations that `DECODE` produces from a string, and the `raise` that ends it if one does. -/
def decodeOutcome (ovf : Config.DurOvf) (hex : List Byte) (hexlen : Nat) : List Half × Option Raise :=
  match decHeader hex hexlen with
  | .error r => ([], some r)
  | .ok n => decLoop ovf hex n { Work.reset with declen := n, cur := 0, durIdx := 0 }

/-- One unit at a cursor: its Duration and the bytes it takes, or the `raise`. -/
def unitAt (ovf : Config.DurOvf) (hex : List Byte) (cur declen : Nat) : Except Raise (Half × Nat) :=
  match unitCount hex cur declen with
  | .error r => .error r
  | .ok (t, used) =>
    match unitDur ovf cur t with
    | .error r => .error r
    | .ok v => .ok (v, used)

/-- The loop of `DECODE` ends where the region does. -/
theorem decLoop_end (ovf : Config.DurOvf) (hex : List Byte) (n : Nat) {w : Work} (atEnd : w.declen ≤ w.cur) :
    decLoop ovf hex n w = ([], none) := by
  cases n with
  | zero => rfl
  | succ n => exact if_neg (Nat.not_lt.2 atEnd)

/-- The loop of `DECODE` ends at a unit that raises. -/
theorem decLoop_raised {ovf : Config.DurOvf} {hex : List Byte} {w : Work} {r : Raise} (n : Nat) (more : w.cur < w.declen)
    (raised : unitAt ovf hex w.cur w.declen = .error r) : decLoop ovf hex (n + 1) w = ([], some r) := by
  cases count : unitCount hex w.cur w.declen with
  | error q =>
    simp only [unitAt, count, Except.error.injEq] at raised
    simp only [decLoop, if_pos more, decUnit, count, raised]
  | ok unit =>
    cases dur : unitDur ovf w.cur unit.1 with
    | error q =>
      simp only [unitAt, count, dur, Except.error.injEq] at raised
      simp only [decLoop, if_pos more, decUnit, count, dur, raised]
    | ok v =>
      simp only [unitAt, count, dur] at raised
      cases raised

/-- The loop of `DECODE` goes on past a unit that is decoded. -/
theorem decLoop_unit {ovf : Config.DurOvf} {hex : List Byte} {w : Work} {v : Half} {used : Nat} (n : Nat)
    (more : w.cur < w.declen) (unit : unitAt ovf hex w.cur w.declen = .ok (v, used)) :
    decLoop ovf hex (n + 1) w
      = (v :: (decLoop ovf hex n { w with cur := w.cur + used, durIdx := w.durIdx + 1 }).1,
          (decLoop ovf hex n { w with cur := w.cur + used, durIdx := w.durIdx + 1 }).2) := by
  cases count : unitCount hex w.cur w.declen with
  | error q =>
    simp only [unitAt, count] at unit
    cases unit
  | ok taken =>
    cases dur : unitDur ovf w.cur taken.1 with
    | error q =>
      simp only [unitAt, count, dur] at unit
      cases unit
    | ok u =>
      simp only [unitAt, count, dur] at unit
      cases unit
      simp only [decLoop, if_pos more, decUnit, count, dur]

/-- The loop of `DECODE` looks at the cursor and at the region's length only. -/
theorem decLoop_congr (ovf : Config.DurOvf) (hex : List Byte) (n : Nat) {w u : Work} (cur : w.cur = u.cur)
    (declen : w.declen = u.declen) : decLoop ovf hex n w = decLoop ovf hex n u := by
  induction n generalizing w u with
  | zero => rfl
  | succ n ih =>
    by_cases more : w.cur < w.declen
    · cases unit : unitAt ovf hex w.cur w.declen with
      | error r =>
        rw [decLoop_raised n more unit, decLoop_raised n (cur ▸ declen ▸ more) (cur ▸ declen ▸ unit)]
      | ok unitUsed =>
        obtain ⟨v, used⟩ := unitUsed
        rw [decLoop_unit n more unit, decLoop_unit n (cur ▸ declen ▸ more) (cur ▸ declen ▸ unit),
          ih (w := { w with cur := w.cur + used, durIdx := w.durIdx + 1 })
            (u := { u with cur := u.cur + used, durIdx := u.durIdx + 1 }) (congrArg (· + used) cur) declen]
    · rw [decLoop_end ovf hex (n + 1) (Nat.not_lt.1 more),
        decLoop_end ovf hex (n + 1) (cur ▸ declen ▸ Nat.not_lt.1 more)]

/-- So the per-call state that an earlier command left does not matter to it. -/
theorem decLoop_workOf (w : Work) (ovf : Config.DurOvf) (hex : List Byte) (n declen : Nat) :
    decLoop ovf hex n { w with declen := declen, cur := 0, durIdx := 0 }
      = decLoop ovf hex n { Work.reset with declen := declen, cur := 0, durIdx := 0 } :=
  decLoop_congr ovf hex n rfl rfl

/-- The body of `DECODE` on a string that raises nothing. -/
theorem decodeBody_of_done {ovf : Config.DurOvf} {hex : List Byte} {s : State} {durs : List Half}
    (outcome : decodeOutcome ovf hex s.hexlen.toNat = (durs, none)) :
    decodeBody ovf hex s
      = .done durs { s with mem := { s.mem with dur := cellsWrite s.mem.dur 0 durs }, durlen := lenWord durs.length } := by
  cases head : decHeader hex s.hexlen.toNat with
  | error r =>
    simp only [decodeOutcome, head] at outcome
    cases outcome
  | ok n =>
    simp only [decodeOutcome, head] at outcome
    simp only [decodeBody, head, decLoop_workOf s.work, outcome]
    rfl

/-- The body of `DECODE` on a string that raises. -/
theorem decodeBody_of_raised {ovf : Config.DurOvf} {hex : List Byte} {s : State} {durs : List Half} {r : Raise}
    (outcome : decodeOutcome ovf hex s.hexlen.toNat = (durs, some r)) :
    decodeBody ovf hex s
      = .raised r { s with mem := { s.mem with dur := cellsWrite s.mem.dur 0 durs }, durlen := 0 } := by
  cases head : decHeader hex s.hexlen.toNat with
  | error q =>
    simp only [decodeOutcome, head] at outcome
    cases outcome
    simp only [decodeBody, head]
    rfl
  | ok n =>
    simp only [decodeOutcome, head] at outcome
    simp only [decodeBody, head, decLoop_workOf s.work, outcome]
    rfl

/-- A string gives at most one Duration for each byte of a region, and so no more than `DUR` holds. -/
theorem decodeOutcome_length_le {ovf : Config.DurOvf} {hex : List Byte} {hexlen : Nat} {durs : List Half}
    {r : Option Raise} (outcome : decodeOutcome ovf hex hexlen = (durs, r)) : durs.length ≤ 65535 := by
  obtain rfl : (decodeOutcome ovf hex hexlen).1 = durs := congrArg Prod.fst outcome
  unfold decodeOutcome
  split <;> rename_i head
  · exact Nat.zero_le _
  · obtain ⟨_, l, h, _, _, rfl, _⟩ := decHeader_ok head
    have bound := decLoop_length ovf hex (headerLen l h)
      { Work.reset with declen := headerLen l h, cur := 0, durIdx := 0 }
    have := headerLen_lt l h
    exact le_trans bound (Nat.le_pred_of_lt this)

/-! ## The command -/

/-- The state in which a `DECODE` launched in `s` leaves the machine when it produces the durations `durs`. -/
def decodeDone (s : State) (durs : List Half) : State :=
  { s with
    status := withStatusState s.status stReady
    mem := { s.mem with dur := cellsWrite s.mem.dur 0 durs }
    durlen := lenWord durs.length
    work := leftover s.freeCtr
    freeCtr := s.freeCtr + 1 }

/-- With its input written, `DECODE` runs its body over the whole of it. -/
theorem decodeCommand_of_hexIs {s : State} {hex : List Byte} (input : HexIs s hex) :
    decodeCommand s = decodeBody Config.durOvf hex s := by
  rw [HexIs] at input
  simp only [decodeCommand, input]

section command

variable {s : State} {hex : List Byte} {durs : List Half}

/-- `DECODE` outside `FAULT`, its length in range and its input written, on a string that raises nothing. -/
theorem exec_decode_eq_done (ready : s.inFault = false) (fits : s.hexlen.toNat ≤ 131078) (input : HexIs s hex)
    (outcome : decodeOutcome Config.durOvf hex s.hexlen.toNat = (durs, none)) :
    exec .decode s = .next (decodeDone s durs) := by
  have body := (decodeCommand_of_hexIs (s := s.setState stBusy) input).trans (decodeBody_of_done outcome)
  rw [exec_decode, runCommand_done ready (checkLen_of_le (c := .decode) fits) body]
  exact congrArg _ (State.eq_of_fields (withStatusState_idem s.status stBusy stReady) rfl rfl rfl rfl rfl rfl rfl rfl rfl
    rfl rfl)

/-- `DECODE` outside `FAULT`, its length in range and its input written, on a string that raises. -/
theorem exec_decode_eq_faulted {r : Raise} (ready : s.inFault = false) (fits : s.hexlen.toNat ≤ 131078)
    (input : HexIs s hex) (outcome : decodeOutcome Config.durOvf hex s.hexlen.toNat = (durs, some r)) :
    exec .decode s = .next (decodeFaulted s r (cellsWrite s.mem.dur 0 durs)) := by
  have body := (decodeCommand_of_hexIs (s := s.setState stBusy) input).trans (decodeBody_of_raised outcome)
  rw [exec_decode, runCommand_raised ready (checkLen_of_le (c := .decode) fits) body]
  exact congrArg _ (endCall_faultEntry_decode s r (cellsWrite s.mem.dur 0 durs) 0)

end command

/-- Over a clear `STATUS`, `DECODE` changes only `DUR`, `DURLEN` and what every call leaves unspecified. -/
theorem decodeDone_frame {s : State} (clear : s.status = 0) (durs : List Half) :
    decodeDone s durs
      = { s with
          mem := { s.mem with dur := (decodeDone s durs).mem.dur }
          durlen := (decodeDone s durs).durlen
          work := (decodeDone s durs).work
          freeCtr := (decodeDone s durs).freeCtr } := by
  have status : withStatusState s.status stReady = s.status := by rw [clear, withStatusState_zero_ready]
  exact State.eq_of_fields status rfl rfl rfl rfl rfl rfl rfl rfl rfl rfl rfl

/-! ## Reading frame bytes -/

/-- The frame bytes from number `n` on read as a list of bytes. -/
def FrameReads (hex : List Byte) (n : Nat) (bs : List Byte) : Prop := ∀ i b, bs[i]? = some b → fbyte hex (n + i) = .ok b

/-- A frame byte whose two characters are its nibbles. -/
theorem fbyte_of_nibs {hex : List Byte} {i : Nat} {b : Byte} (high : nib (hex.getD (2 * i) 0) = some (b.extractLsb' 4 4))
    (low : nib (hex.getD (2 * i + 1) 0) = some (b.extractLsb' 0 4)) : fbyte hex i = .ok b := by
  refine (fbyte_ok_iff hex i b).2 ⟨_, _, high, low, ?_⟩
  rw [← BitVec.toNat_inj, BitVec.toNat_append, ← Nat.shiftLeft_add_eq_or_of_lt (BitVec.isLt _), Nat.shiftLeft_eq,
    BitVec.extractLsb'_toNat, BitVec.extractLsb'_toNat, Nat.shiftRight_eq_div_pow, Nat.shiftRight_zero]
  have := b.isLt
  omega

/-- Characters that spell a list of bytes spell the first with two of them. -/
theorem spells_cons {chars bs : List Byte} {x : Byte} (spelt : spells chars (x :: bs) = true) :
    ∃ c d more, chars = c :: d :: more ∧ nib c = some (x.extractLsb' 4 4) ∧ nib d = some (x.extractLsb' 0 4)
      ∧ spells more bs = true := by
  match chars with
  | [] => cases spelt
  | [_] => cases spelt
  | c :: d :: more =>
    simp only [spells, Bool.and_eq_true, beq_iff_eq] at spelt
    exact ⟨c, d, more, rfl, spelt.1.1, spelt.1.2, spelt.2⟩

/-- No characters spell no bytes, and nothing else does. -/
theorem spells_nil {chars : List Byte} (spelt : spells chars [] = true) : chars = [] := by
  match chars with
  | [] => rfl
  | [_] => cases spelt
  | _ :: _ :: _ => cases spelt

/-- Characters that spell a list of bytes are read as those bytes, wherever in the string they stand. -/
theorem frameReads_of_spells {pre chars rest bs : List Byte} {n : Nat} (spelt : spells chars bs = true)
    (place : pre.length = 2 * n) : FrameReads (pre ++ chars ++ rest) n bs := by
  induction bs generalizing pre chars n with
  | nil => exact fun i b there => by simp at there
  | cons x bs ih =>
    obtain ⟨c, d, more, rfl, high, low, others⟩ := spells_cons spelt
    intro i b there
    cases i with
    | zero =>
      obtain rfl : x = b := by simpa using there
      apply fbyte_of_nibs
      · simpa [List.getD_eq_getElem?_getD, List.getElem?_append, place] using high
      · simpa [List.getD_eq_getElem?_getD, List.getElem?_append, place] using low
    | succ i =>
      have next := ih (pre := pre ++ [c, d]) (n := n + 1) others (by simp [place]; omega) i b (by simpa using there)
      rw [List.append_assoc pre [c, d]] at next
      rw [show n + (i + 1) = n + 1 + i by omega]
      exact next

/-- Characters that spell a list of bytes are two a byte. -/
theorem spells_length {chars bs : List Byte} (spelt : spells chars bs = true) : chars.length = 2 * bs.length := by
  induction bs generalizing chars with
  | nil => rw [spells_nil spelt]; rfl
  | cons x bs ih =>
    obtain ⟨c, d, more, rfl, _, _, others⟩ := spells_cons spelt
    simp only [List.length_cons, ih others]
    omega

/-- The characters of the bytes that begin a list spell them. -/
theorem spells_take {chars xs ys : List Byte} (spelt : spells chars (xs ++ ys) = true) :
    spells (chars.take (2 * xs.length)) xs = true := by
  induction xs generalizing chars with
  | nil => rfl
  | cons x xs ih =>
    obtain ⟨c, d, more, rfl, high, low, others⟩ := spells_cons spelt
    simp [spells, high, low, ih others, Nat.mul_add]

/-- A part of what is read. -/
theorem FrameReads.append_left {hex : List Byte} {n : Nat} {xs ys : List Byte} (reads : FrameReads hex n (xs ++ ys)) :
    FrameReads hex n xs :=
  fun i b there => reads i b (by
    rw [List.getElem?_append_left (List.getElem?_eq_some_iff.1 there).1, there])

theorem FrameReads.append_right {hex : List Byte} {n : Nat} {xs ys : List Byte} (reads : FrameReads hex n (xs ++ ys)) :
    FrameReads hex (n + xs.length) ys :=
  fun i b there => by
    have := reads (xs.length + i) b (by rw [List.getElem?_append_right (by omega), Nat.add_sub_cancel_left, there])
    rwa [← Nat.add_assoc] at this

/-! ## Characters that are not hexadecimal -/

/-- The first character of a frame byte that is not hexadecimal is where it raises (40_timing_decoder.md R125). -/
theorem fbyte_first_bad {hex : List Byte} {i k : Nat} (low : 2 * i ≤ k) (high : k < 2 * i + 2)
    (bad : nib (hex.getD k 0) = none) (good : ∀ j, 2 * i ≤ j → j < k → nib (hex.getD j 0) ≠ none) :
    fbyte hex i = .error { cause := .badHex, off := k } := by
  obtain rfl | rfl : k = 2 * i ∨ k = 2 * i + 1 := by omega
  · simp only [fbyte, bad]
  · obtain ⟨a, first⟩ := Option.ne_none_iff_exists'.1 (good (2 * i) (by omega) (by omega))
    simp only [fbyte, first, bad]

/-- A frame byte of two hexadecimal characters is read. -/
theorem fbyte_good {hex : List Byte} {i : Nat} (good : ∀ j, 2 * i ≤ j → j < 2 * i + 2 → nib (hex.getD j 0) ≠ none) :
    ∃ b, fbyte hex i = .ok b := by
  obtain ⟨a, first⟩ := Option.ne_none_iff_exists'.1 (good (2 * i) (by omega) (by omega))
  obtain ⟨b, second⟩ := Option.ne_none_iff_exists'.1 (good (2 * i + 1) (by omega) (by omega))
  exact ⟨_, (fbyte_ok_iff hex i _).2 ⟨a, b, first, second, rfl⟩⟩

/-! ## The header -/

/-- A header that is read, its region inside the string or not. -/
theorem decHeader_of_reads {hex : List Byte} {hexlen : Nat} {l h : Byte} (long : 8 ≤ hexlen)
    (reads : FrameReads hex 2 [l, h]) : decHeader hex hexlen = headerDeclen hexlen l h := by
  have low : fbyte hex 2 = .ok l := reads 0 l rfl
  have high : fbyte hex 3 = .ok h := reads 1 h rfl
  rw [decHeader, if_neg (by omega), low, high]

/-- What the header raises, the string raises. -/
theorem decodeOutcome_of_header_raised {hex : List Byte} {hexlen : Nat} {r : Raise}
    (raised : decHeader hex hexlen = .error r) (ovf : Config.DurOvf) : decodeOutcome ovf hex hexlen = ([], some r) := by
  rw [decodeOutcome, raised]

/-- `DECODE` of a string whose header raises, as the host sees it. -/
theorem exec_decode_header_raised {s : State} {hex : List Byte} {cause : Cause} {off : Nat} {status : Word}
    (clear : s.status = 0) (fits : s.hexlen.toNat ≤ 131078) (input : HexIs s hex)
    (raised : decHeader hex s.hexlen.toNat = .error { cause := cause, off := off }) (number : faultStatus cause = status) :
    ∃ t, exec .decode s = .next t
      ∧ view t = { view s with status := status, erroff := BitVec.ofNat 32 off, durlen := 0 } := by
  refine ⟨_, exec_decode_eq_faulted (State.inFault_of_status_zero clear) fits input
    (decodeOutcome_of_header_raised raised _), ?_⟩
  rw [← number]
  rfl

/-- Settles O29: the three checks of `DEC_HEADER` in their order. -/
theorem decodeHeaderFaults : Obligations.DecodeHeaderFaults := by
  unfold Obligations.DecodeHeaderFaults
  intro s hex clear fits input
  have length : hex.length = s.hexlen.toNat := cellsRead_length input
  have sameWord : BitVec.ofNat 32 s.hexlen.toNat = s.hexlen := by rw [BitVec.ofNat_toNat, BitVec.setWidth_eq]
  rw [length]
  refine ⟨fun short => ?short, fun long k four eight bad first => ?badHex, fun long l h spelt overrun => ?overrun⟩
  case short =>
    have raised := exec_decode_header_raised clear fits input (by rw [decHeader, if_pos short])
      (by decide : faultStatus .shortFrame = 0x107)
    rwa [sameWord] at raised
  case badHex =>
    refine exec_decode_header_raised clear fits input ?_ (by decide : faultStatus .badHex = 0x307)
    rw [decHeader, if_neg (by omega)]
    by_cases low : k < 6
    · rw [fbyte_first_bad (i := 2) four low bad first]
    · obtain ⟨l, good⟩ := fbyte_good (hex := hex) (i := 2) fun j from4 to6 => first j from4 (by omega)
      rw [good, fbyte_first_bad (i := 3) (by omega) eight bad fun j from6 => first j (by omega)]
  case overrun =>
    have reads : FrameReads hex 2 [l, h] := by
      have parts := frameReads_of_spells (pre := hex.take 4) (rest := (hex.drop 4).drop 4) (n := 2) spelt
        (by rw [List.length_take]; omega)
      rwa [List.append_assoc, List.take_append_drop, List.take_append_drop] at parts
    have raised := exec_decode_header_raised clear fits input
      (by rw [decHeader_of_reads long reads, headerDeclen, headerLen_eq, if_pos overrun])
      (by decide : faultStatus .lenOverrun = 0x207)
    rwa [sameWord] at raised

/-! ## Units -/

/-- A unit that stands at the cursor inside the region is counted, and takes its own bytes. -/
theorem unitCount_of_reads {hex : List Byte} {cur declen n : Nat} {u : Instr} (ticks : unitTicks u = some n)
    (reads : FrameReads hex (4 + cur) (encode u)) (inside : cur + (encode u).length ≤ declen) :
    unitCount hex cur declen = .ok (n, (encode u).length) := by
  cases u with
  | tick1 t =>
    have first : fbyte hex (4 + cur) = .ok t := reads 0 t rfl
    simp only [unitTicks] at ticks
    split_ifs at ticks with zero
    cases ticks
    rw [unitCount, first]
    exact if_neg zero
  | tick3 h l =>
    have marker : fbyte hex (4 + cur) = .ok 0 := reads 0 0 rfl
    have high : fbyte hex (4 + cur + 1) = .ok h := reads 1 h rfl
    have low : fbyte hex (4 + cur + 2) = .ok l := reads 2 l rfl
    have room : ¬ declen < cur + 3 := Nat.not_lt.2 inside
    cases ticks
    simp only [unitCount, marker, if_true, escapeCheck, if_neg room, high, low, tick3Count_eq]
    rfl
  | _ => cases ticks

/-- A unit whose count has a Duration. -/
theorem unitAt_of_ok {ovf : Config.DurOvf} {hex : List Byte} {cur declen t used : Nat} {v : Half}
    (count : unitCount hex cur declen = .ok (t, used)) (dur : unitDur ovf cur t = .ok v) :
    unitAt ovf hex cur declen = .ok (v, used) := by
  simp only [unitAt, count, dur]

/-- A unit whose count has no Duration. -/
theorem unitAt_of_dur_raised {ovf : Config.DurOvf} {hex : List Byte} {cur declen t used : Nat} {r : Raise}
    (count : unitCount hex cur declen = .ok (t, used)) (raised : unitDur ovf cur t = .error r) :
    unitAt ovf hex cur declen = .error r := by
  simp only [unitAt, count, raised]

/-- A unit that cannot be read. -/
theorem unitAt_of_count_raised {hex : List Byte} {cur declen : Nat} {r : Raise}
    (raised : unitCount hex cur declen = .error r) (ovf : Config.DurOvf) : unitAt ovf hex cur declen = .error r := by
  simp only [unitAt, raised]

/-- What `DUR_OVF` makes of every count: every conversion completes. -/
def Converts (ovf : Config.DurOvf) (ticks : List Nat) (conv : Nat → Half) : Prop :=
  ∀ t ∈ ticks, ∀ cur, unitDur ovf cur t = .ok (conv t)

/-- A unit takes at least one byte. -/
theorem one_le_length_encode {u : Instr} {n : Nat} (ticks : unitTicks u = some n) : 1 ≤ (encode u).length := by
  cases u with
  | tick1 | tick3 => exact Nat.le_add_left _ _
  | _ => cases ticks

/-- Units are at most as many as their bytes. -/
theorem length_le_unitBytes {units : List Instr} {ticks : List Nat} (ticked : HaveTicks units ticks) :
    units.length ≤ (unitBytes units).length := by
  induction units generalizing ticks with
  | nil => exact Nat.le_refl _
  | cons u units ih =>
    match ticks, ticked with
    | t :: ticks, ticked =>
      simp only [HaveTicks, List.map_cons, List.cons.injEq] at ticked
      have := ih ticked.2
      have := one_le_length_encode ticked.1
      simp only [unitBytes, List.flatMap_cons, List.length_append, List.length_cons] at *
      omega

/-- As many units as counts. -/
theorem length_eq_of_haveTicks {units : List Instr} {ticks : List Nat} (ticked : HaveTicks units ticks) :
    units.length = ticks.length := by
  simpa using congrArg List.length ticked

/-- The loop of `DECODE` over a list of units that stand at the cursor: their Durations, then the loop after them. -/
theorem decLoop_units {ovf : Config.DurOvf} {hex : List Byte} {conv : Nat → Half} {units : List Instr} {ticks : List Nat}
    {n : Nat} {w : Work} (ticked : HaveTicks units ticks) (converts : Converts ovf ticks conv)
    (reads : FrameReads hex (4 + w.cur) (unitBytes units)) (inside : w.cur + (unitBytes units).length ≤ w.declen) :
    decLoop ovf hex (units.length + n) w
      = (ticks.map conv
            ++ (decLoop ovf hex n
                { w with cur := w.cur + (unitBytes units).length, durIdx := w.durIdx + units.length }).1,
          (decLoop ovf hex n
            { w with cur := w.cur + (unitBytes units).length, durIdx := w.durIdx + units.length }).2) := by
  induction units generalizing ticks w with
  | nil =>
    match ticks, ticked with
    | [], _ => simp [unitBytes]
  | cons u units ih =>
    match ticks, ticked with
    | t :: ticks, ticked =>
      simp only [HaveTicks, List.map_cons, List.cons.injEq] at ticked
      obtain ⟨here, others⟩ := ticked
      have bytes : unitBytes (u :: units) = encode u ++ unitBytes units := List.flatMap_cons
      rw [bytes] at reads inside
      rw [bytes]
      rw [List.length_append] at inside ⊢
      have one := one_le_length_encode here
      have count := unitCount_of_reads here reads.append_left (declen := w.declen) (by omega)
      have unit := unitAt_of_ok count (converts t List.mem_cons_self w.cur)
      rw [List.length_cons, show units.length + 1 + n = units.length + n + 1 by omega, decLoop_unit _ (by omega) unit,
        ih others (fun t there => converts t (List.mem_cons_of_mem _ there))
          (w := { w with cur := w.cur + (encode u).length, durIdx := w.durIdx + 1 })
          (by rw [← Nat.add_assoc]; exact reads.append_right) (by rw [Nat.add_assoc]; exact inside)]
      simp only [List.map_cons, List.cons_append, Nat.add_assoc, Nat.add_comm 1]

/-! ## Frames -/

/-- A capture is a frame whose region begins with, and is, its bytes. -/
theorem regionStarts_of_isCapture {hex region : List Byte} (capture : IsCapture hex region) :
    RegionStarts hex region region.length := by
  obtain ⟨pre, lenChars, regionChars, rest, l, h, rfl, four, lenSpelt, len, spelt⟩ := capture
  refine ⟨pre, lenChars, regionChars, rest, l, h, rfl, four, lenSpelt, len, spelt, Nat.le_refl _, ?_⟩
  simp only [List.length_append, four, spells_length lenSpelt, spells_length spelt, List.length_cons, List.length_nil]
  omega

/-- What a frame gives: its header reads as the region's length, and the frame bytes from number 4 on as those that begin
the region. -/
theorem reads_of_regionStarts {hex start : List Byte} {declen : Nat} (frame : RegionStarts hex start declen) :
    decHeader hex hex.length = .ok declen ∧ FrameReads hex 4 start ∧ start.length ≤ declen := by
  obtain ⟨pre, lenChars, startChars, rest, l, h, rfl, four, lenSpelt, len, spelt, shorter, fits⟩ := frame
  have header : FrameReads (pre ++ lenChars ++ startChars ++ rest) 2 [l, h] := by
    rw [List.append_assoc (pre ++ lenChars)]
    exact frameReads_of_spells lenSpelt four
  refine ⟨?_, frameReads_of_spells spelt (by rw [List.length_append, four, spells_length lenSpelt]; rfl), shorter⟩
  rw [decHeader_of_reads (by omega) header, headerDeclen, headerLen_eq, len, if_neg (Nat.not_lt.2 fits)]

section frame

variable {ovf : Config.DurOvf} {hex : List Byte} {conv : Nat → Half} {units : List Instr} {ticks : List Nat} {declen : Nat}

/-- A string whose region is a list of units with Durations gives those. -/
theorem decodeOutcome_of_units (frame : RegionStarts hex (unitBytes units) (unitBytes units).length)
    (ticked : HaveTicks units ticks) (converts : Converts ovf ticks conv) :
    decodeOutcome ovf hex hex.length = (ticks.map conv, none) := by
  obtain ⟨header, reads, _⟩ := reads_of_regionStarts frame
  obtain ⟨n, bound⟩ := Nat.exists_eq_add_of_le (length_le_unitBytes ticked)
  simp only [decodeOutcome, header]
  rw [bound, decLoop_units (n := n) ticked converts reads (by simp [← bound]),
    decLoop_end _ _ _ (by simp [← bound])]
  simp

/-- A string whose region begins with a list of units with Durations and goes on with one that raises: the `raise`, and
the Durations before it. -/
theorem decodeOutcome_of_units_raised {r : Raise} (frame : RegionStarts hex (unitBytes units) declen)
    (ticked : HaveTicks units ticks) (converts : Converts ovf ticks conv) (more : (unitBytes units).length < declen)
    (raised : unitAt ovf hex (unitBytes units).length declen = .error r) :
    decodeOutcome ovf hex hex.length = (ticks.map conv, some r) := by
  obtain ⟨header, reads, _⟩ := reads_of_regionStarts frame
  obtain ⟨n, bound⟩ : ∃ n, declen = units.length + (n + 1) :=
    ⟨declen - units.length - 1, by have := length_le_unitBytes ticked; omega⟩
  have stop : ∀ w : Work, w.cur = (unitBytes units).length → w.declen = declen →
      decLoop ovf hex (n + 1) w = ([], some r) := fun w cur len =>
    decLoop_raised n (by omega) (by rw [cur, len, raised])
  simp only [decodeOutcome, header]
  rw [show decLoop ovf hex declen = decLoop ovf hex (units.length + (n + 1)) by rw [← bound],
    decLoop_units ticked converts reads (by simpa using more.le), stop _ (Nat.zero_add _) rfl]
  simp

end frame

/-- Counts up to 2151 have their Durations, whatever `DUR_OVF` is. -/
theorem converts_of_le {ticks : List Nat} (fit : ∀ t ∈ ticks, t ≤ 2151) (ovf : Config.DurOvf) :
    Converts ovf ticks durationOf :=
  fun t there cur => unitDur_of_le (fit t there) ovf cur

/-- Under `SATURATE` every count is converted. -/
theorem converts_saturate (ticks : List Nat) :
    Converts .saturate ticks fun n => if n ≤ 2151 then durationOf n else 65535 := by
  intro t _ cur
  dsimp only
  split_ifs with fits
  · exact unitDur_of_le fits .saturate cur
  · exact unitDur_saturate (by omega) cur

/-! ## The statements -/

/-- Settles O28: the region is a list of units whose counts all have their Durations. -/
theorem decodeOfCapture : Obligations.DecodeOfCapture := by
  unfold Obligations.DecodeOfCapture
  intro s hex units ticks clear fits input capture ticked fit
  have length : hex.length = s.hexlen.toNat := cellsRead_length input
  have outcome := decodeOutcome_of_units (regionStarts_of_isCapture capture) ticked (converts_of_le fit Config.durOvf)
  have count : units.length = (ticks.map durationOf).length := by rw [List.length_map, length_eq_of_haveTicks ticked]
  have bound := decodeOutcome_length_le outcome
  rw [length] at outcome
  rw [count]
  refine ⟨_, exec_decode_eq_done (State.inFault_of_status_zero clear) fits input outcome, toNat_lenWord (by omega),
    cellsRead_cellsWrite _ _ _, fun i above => ?_, decodeDone_frame clear _⟩
  exact cellRead_cellsWrite_outside (.inr (by omega))

/-- A `DECODE` that raises after producing a list of durations. -/
theorem decodeFaults_of_outcome {s : State} {hex : List Byte} {durs : List Half} {cause : Cause} {off : Nat} {status : Word}
    (clear : s.status = 0) (fits : s.hexlen.toNat ≤ 131078) (input : HexIs s hex)
    (outcome : decodeOutcome Config.durOvf hex hex.length = (durs, some { cause := cause, off := off }))
    (number : faultStatus cause = status) : DecodeFaults s durs.length status off := by
  have length : hex.length = s.hexlen.toNat := cellsRead_length input
  rw [length] at outcome
  refine ⟨_, exec_decode_eq_faulted (State.inFault_of_status_zero clear) fits input outcome, number, rfl, rfl,
    fun i above => ?_, rfl⟩
  exact cellRead_cellsWrite_outside (.inr (by omega))

/-- The two characters of a zero byte. -/
theorem fbyte_zero {hex : List Byte} {i : Nat} (high : nib (hex.getD (2 * i) 0) = some 0)
    (low : nib (hex.getD (2 * i + 1) 0) = some 0) : fbyte hex i = .ok 0 :=
  fbyte_of_nibs high low

/-- Settles O30: what the first unit that is not read raises, by the checks of `DEC_UNIT` in their order. -/
theorem decodeTruncatedEscape : Obligations.DecodeTruncatedEscape := by
  unfold Obligations.DecodeTruncatedEscape
  intro s hex units ticks declen start clear fits input frame ticked fit more place
  have stops : ∀ {cause off status}, unitCount hex (unitBytes units).length declen = .error { cause := cause, off := off } →
      faultStatus cause = status → DecodeFaults s units.length status off := by
    intro cause off status raised number
    have outcome := decodeOutcome_of_units_raised frame ticked (converts_of_le fit Config.durOvf) more
      (unitAt_of_count_raised raised _)
    have faults := decodeFaults_of_outcome clear fits input outcome number
    rwa [List.length_map, ← length_eq_of_haveTicks ticked] at faults
  have here : 2 * (4 + (unitBytes units).length) = start := by omega
  have badFirst : ∀ k, start ≤ k → k < start + 2 → nib (hex.getD k 0) = none →
      (∀ j, start ≤ j → j < k → nib (hex.getD j 0) ≠ none) → DecodeFaults s units.length 0x307 k := by
    intro k low high bad good
    refine stops (cause := .badHex) ?_ (by decide)
    rw [unitCount, fbyte_first_bad (k := k) (by omega) (by omega) bad (here ▸ good)]
  refine ⟨fun bad => badFirst start (by omega) (by omega) bad (by omega), fun good bad =>
    badFirst (start + 1) (by omega) (by omega) bad fun j low high => ?_, fun zeroHigh zeroLow => ?_⟩
  · obtain rfl : j = start := by omega
    exact good
  have marker : fbyte hex (4 + (unitBytes units).length) = .ok 0 :=
    fbyte_zero (by rwa [here]) (by rwa [here])
  refine ⟨fun truncated => stops (cause := .truncEscape) ?_ (by decide),
    fun inside k two six bad first => stops (cause := .badHex) ?_ (by decide)⟩
  · simp only [unitCount, marker, if_true, escapeCheck, if_pos truncated, here]
  · simp only [unitCount, marker, if_true, escapeCheck, if_neg (Nat.not_lt.2 inside)]
    have good : ∀ j, start + 2 ≤ j → j < start + k → nib (hex.getD j 0) ≠ none := fun j low high => by
      have := first (j - start) (by omega) (by omega)
      rwa [show start + (j - start) = j by omega] at this
    by_cases second : k < 4
    · rw [fbyte_first_bad (i := 4 + (unitBytes units).length + 1) (k := start + k) (by omega) (by omega) bad
        fun j low => good j (by omega)]
    · obtain ⟨h, high⟩ := fbyte_good (hex := hex) (i := 4 + (unitBytes units).length + 1) fun j low high =>
        good j (by omega) (by omega)
      rw [high, fbyte_first_bad (i := 4 + (unitBytes units).length + 2) (k := start + k) (by omega) (by omega) bad
        fun j low => good j (by omega)]

/-- Units with counts up to 2151 have those counts as a list. -/
theorem exists_haveTicks {units : List Instr} (fit : ∀ v ∈ units, ∃ m, unitTicks v = some m ∧ m ≤ 2151) :
    ∃ ticks, HaveTicks units ticks ∧ ∀ t ∈ ticks, t ≤ 2151 := by
  induction units with
  | nil => exact ⟨[], rfl, by simp⟩
  | cons u units ih =>
    obtain ⟨n, count, small⟩ := fit u List.mem_cons_self
    obtain ⟨ticks, ticked, others⟩ := ih fun v there => fit v (List.mem_cons_of_mem _ there)
    refine ⟨n :: ticks, ?_, List.forall_mem_cons.2 ⟨small, others⟩⟩
    rw [HaveTicks, List.map_cons, List.map_cons, count, ticked]

/-- A region that begins with two lists of bytes begins with the first. -/
theorem regionStarts_append_left {hex xs ys : List Byte} {declen : Nat} (frame : RegionStarts hex (xs ++ ys) declen) :
    RegionStarts hex xs declen := by
  obtain ⟨pre, lenChars, startChars, rest, l, h, rfl, four, lenSpelt, len, spelt, shorter, fits⟩ := frame
  rw [List.length_append] at shorter
  exact ⟨pre, lenChars, startChars.take (2 * xs.length), startChars.drop (2 * xs.length) ++ rest, l, h,
    by simp only [List.append_assoc, List.take_append_drop, ← List.append_assoc (List.take _ _)], four, lenSpelt, len,
    spells_take spelt, by omega, fits⟩

/-- Settles O31: under `SATURATE` every count is converted; under `FAULT` the first count from 2152 on raises. -/
theorem durOvfChoices : Obligations.DurOvfChoices := by
  unfold Obligations.DurOvfChoices
  intro s hex units ticks length capture ticked
  have frame := regionStarts_of_isCapture capture
  constructor
  · have outcome := decodeOutcome_of_units frame ticked (converts_saturate ticks)
    have bound := decodeOutcome_length_le outcome
    rw [length] at outcome
    have count : units.length = (ticks.map fun n => if n ≤ 2151 then durationOf n else 65535).length := by
      rw [List.length_map, length_eq_of_haveTicks ticked]
    have durlen := toNat_lenWord (Nat.lt_of_le_of_lt bound (by decide))
    refine ⟨_, decodeBody_of_done outcome, ?_, durlen.trans count.symm, fun i above => ?_, rfl⟩
    · rw [DurIs, durlen]
      exact cellsRead_cellsWrite _ _ _
    · exact cellRead_cellsWrite_outside (.inr (by omega))
  · rintro before u after n rfl count large fit
    obtain ⟨earlier, haveEarlier, small⟩ := exists_haveTicks fit
    have bytes : unitBytes (before ++ u :: after) = unitBytes before ++ (encode u ++ unitBytes after) := by
      simp only [unitBytes, List.flatMap_append, List.flatMap_cons]
    have one := one_le_length_encode count
    have reads := (reads_of_regionStarts frame).2.1
    rw [bytes] at frame reads
    have unit := unitCount_of_reads count reads.append_right.append_left
      (declen := (unitBytes before ++ (encode u ++ unitBytes after)).length)
      (by simp only [List.length_append]; omega)
    have outcome := decodeOutcome_of_units_raised (regionStarts_append_left frame) haveEarlier (converts_of_le small .fault)
      (by simp only [List.length_append]; omega) (unitAt_of_dur_raised unit (unitDur_fault large _))
    rw [length] at outcome
    refine ⟨_, decodeBody_of_raised outcome, rfl, fun i above => ?_, rfl⟩
    exact cellRead_cellsWrite_outside (.inr (by
      rw [List.length_map, ← length_eq_of_haveTicks haveEarlier]
      omega))

end Sys2Proof.Proofs
end

section
/-!
PROOF. `FILTER` twice, and `PACK` with and without a sentinel in its input (41_filter_pack.md R140, R141).
-/

namespace Sys2Proof.Proofs

open Sys2Proof.Machine Sys2Proof.Safety

/-! ## Commands that end in `READY` -/

/-- The length check lets exactly the lengths up to the capacity through. -/
theorem checkLen_eq_none_iff {c : Running} {s : State} : checkLen c s = none ↔ (inputLen c s).toNat ≤ inputCap c := by
  rw [checkLen_eq_ite]
  split_ifs with tooLong
  · simpa using tooLong
  · simpa using tooLong

/-- A command launched with a clear `STATUS` that ends with a clear `STATUS`: its length is in range and its body
completes. -/
theorem runCommand_completed {α : Type} {c : Running} {body : State → Body α} {s t : State} (clear : s.status = 0)
    (run : runCommand c body s = .next t) (done : t.status = 0) :
    (inputLen c s).toNat ≤ inputCap c
      ∧ ∃ a u, body (s.setState stBusy) = .done a u ∧ t = (u.setState stReady).endCall c := by
  have ready := State.inFault_of_status_zero clear
  obtain ⟨fault, _⟩ | ⟨_, r, _, rfl⟩ | ⟨_, len, completed | ⟨r, u, _, rfl⟩⟩ := runCommand_cases run
  · rw [ready] at fault
    cases fault
  · exact absurd done (faultStatus_ne_zero r.cause)
  · exact ⟨checkLen_eq_none_iff.1 len, completed⟩
  · exact absurd done (faultStatus_ne_zero r.cause)

/-! ## `FILTER` twice -/

/-- A `FILTER` that completes has its input written. -/
theorem filterCommand_done {s u : State} {kept : List Half} (done : filterCommand s = .done kept u) :
    ∃ durs, DurIs s durs := by
  simp only [filterCommand] at done
  split at done <;> rename_i read
  · cases done
  · exact ⟨_, read⟩

/-- What `FILTER` keeps once it keeps again. -/
theorem keepDurations_idem (durs : List Half) : keepDurations (keepDurations durs) = keepDurations durs := by
  simp [keepDurations, List.filter_filter]

/-- After a `FILTER` a second one leaves what the host sees as it is: it writes the durations that are there over
themselves. -/
theorem view_filterDone_twice {s : State} (wf : s.mem.wf) (durs : List Half) :
    view (filterDone (filterDone s durs) (keepDurations durs)) = view (filterDone s durs) := by
  obtain ⟨_, durWf, _⟩ := wf
  have dur : cellsWrite (cellsWrite s.mem.dur 0 (keepDurations durs)) 0 (keepDurations durs)
      = cellsWrite s.mem.dur 0 (keepDurations durs) :=
    cellsWrite_of_read (cellsWrite_wf durWf 0 _) (cellsRead_cellsWrite _ _ _)
  simp only [view, filterDone, withStatusState_idem, keepDurations_idem, dur]

/-- Settles O37: the first `FILTER` leaves `filterDone`, over which the second completes and changes nothing. -/
theorem filterTwiceIsOnce : Obligations.FilterTwiceIsOnce := by
  unfold Obligations.FilterTwiceIsOnce
  intro s t clear inv run done
  obtain ⟨fits, kept, u, body, _⟩ := runCommand_completed clear (exec_filter s ▸ run) done
  obtain ⟨durs, input⟩ : ∃ durs, DurIs s durs := filterCommand_done (s := s.setState stBusy) body
  have length : durs.length = s.durlen.toNat := cellsRead_length input
  rw [exec_filter_eq_next (State.inFault_of_status_zero clear) fits input] at run
  cases run
  have fewer : (filterDone s durs).durlen.toNat ≤ 65535 := by
    rw [toNat_durlen_filterDone input]
    exact (keepDurations_length_le durs).trans (length ▸ fits)
  exact ⟨_, exec_filter_eq_next (State.inFault_of_status_zero done) fewer (durIs_filterDone input),
    view_filterDone_twice inv.1 durs⟩

/-! ## The bytes of a duration list -/

/-- The payload of a duration list: two bytes a Duration, low byte first (41_filter_pack.md R141). -/
def payBytes (durs : List Half) : List Byte := durs.flatMap fun v => [lowByte v, highByte v]

/-- Two bytes a Duration. -/
theorem payBytes_length (durs : List Half) : (payBytes durs).length = 2 * durs.length := by
  simp [payBytes, Nat.mul_comm]

/-- The bytes of Duration `k` stand at `2k` and `2k + 1`. -/
theorem payBytes_getElem? {durs : List Half} {k : Nat} {v : Half} (there : durs[k]? = some v) :
    (payBytes durs)[2 * k]? = some (lowByte v) ∧ (payBytes durs)[2 * k + 1]? = some (highByte v) := by
  induction durs generalizing k with
  | nil => simp at there
  | cons u durs ih =>
    cases k with
    | zero =>
      obtain rfl : u = v := by simpa using there
      exact ⟨rfl, rfl⟩
    | succ k => exact ih (k := k) (by simpa using there)

/-! ## `PACK` -/

/-- With its input written, `PACK` runs its body over the whole of it. -/
theorem packCommand_of_durIs {s : State} {durs : List Half} (input : DurIs s durs) :
    packCommand s = packBody durs s := by
  rw [DurIs] at input
  simp only [packCommand, input]

/-- The body of `PACK` over durations without a sentinel. -/
theorem packBody_of_no_sentinel {durs : List Half} (clean : 65535 ∉ durs) (s : State) :
    packBody durs s
      = .done (payBytes durs) { s with
          mem := { s.mem with pay := cellsWrite s.mem.pay 0 (payBytes durs) }
          paylen := lenWord (2 * durs.length) } := by
  simp only [packBody, packLoop_ok clean 0]
  rfl

/-- The body of `PACK` over durations with a first sentinel. -/
theorem packBody_of_sentinel {before : List Half} (clean : 65535 ∉ before) (after : List Half) (s : State) :
    packBody (before ++ 65535 :: after) s
      = .raised { cause := .packSentinel, off := before.length } { s with
          mem := { s.mem with pay := cellsWrite s.mem.pay 0 (payBytes before) }
          paylen := 0 } := by
  simp only [packBody, packLoop_sentinel clean after 0, Nat.zero_add]
  rfl

/-- The state in which a `PACK` launched in `s` over durations without a sentinel leaves the machine. -/
def packDone (s : State) (durs : List Half) : State :=
  { s with
    status := withStatusState s.status stReady
    mem := { s.mem with pay := cellsWrite s.mem.pay 0 (payBytes durs) }
    paylen := lenWord (2 * durs.length)
    work := leftover s.freeCtr
    freeCtr := s.freeCtr + 1 }

/-- The state in which a `PACK` launched in `s` leaves the machine at a sentinel after the durations `before`. -/
def packFaulted (s : State) (before : List Half) : State :=
  { s with
    status := 0x10F
    erroff := BitVec.ofNat 32 before.length
    mem := { s.mem with pay := cellsWrite s.mem.pay 0 (payBytes before) }
    paylen := 0
    work := leftover s.freeCtr
    freeCtr := s.freeCtr + 1 }

/-- `PACK` outside `FAULT`, its length in range and its input written without a sentinel, completes. -/
theorem exec_pack_eq_done {s : State} {durs : List Half} (ready : s.inFault = false) (fits : s.durlen.toNat ≤ 65535)
    (input : DurIs s durs) (clean : 65535 ∉ durs) : exec .pack s = .next (packDone s durs) := by
  have body := (packCommand_of_durIs (s := s.setState stBusy) input).trans (packBody_of_no_sentinel clean _)
  rw [exec_pack, runCommand_done ready (checkLen_of_le (c := .pack) fits) body]
  exact congrArg _ (State.eq_of_fields (withStatusState_idem s.status stBusy stReady) rfl rfl rfl rfl rfl rfl rfl rfl rfl
    rfl rfl)

/-- `PACK` outside `FAULT`, its length in range and its input written with a sentinel, records `PACK_SENTINEL`. -/
theorem exec_pack_eq_faulted {s : State} {before after : List Half} (ready : s.inFault = false)
    (fits : s.durlen.toNat ≤ 65535) (input : DurIs s (before ++ 65535 :: after)) (clean : 65535 ∉ before) :
    exec .pack s = .next (packFaulted s before) := by
  have body := (packCommand_of_durIs (s := s.setState stBusy) input).trans (packBody_of_sentinel clean after _)
  rw [exec_pack, runCommand_raised ready (checkLen_of_le (c := .pack) fits) body]
  have number : faultStatus .packSentinel = 0x10F := by decide
  exact congrArg _ (State.eq_of_fields number rfl rfl rfl rfl rfl rfl rfl rfl rfl rfl rfl)

/-- Over a clear `STATUS`, `PACK` changes only `PAY`, `PAYLEN` and what every call leaves unspecified. -/
theorem packDone_frame {s : State} (clear : s.status = 0) (durs : List Half) :
    packDone s durs
      = { s with
          mem := { s.mem with pay := (packDone s durs).mem.pay }
          paylen := (packDone s durs).paylen
          work := (packDone s durs).work
          freeCtr := (packDone s durs).freeCtr } := by
  have status : withStatusState s.status stReady = s.status := by rw [clear, withStatusState_zero_ready]
  exact State.eq_of_fields status rfl rfl rfl rfl rfl rfl rfl rfl rfl rfl rfl

/-- `PAYLEN` then is twice the number of Durations. -/
theorem toNat_paylen_packDone {s : State} {durs : List Half} (fits : durs.length ≤ 65535) :
    (packDone s durs).paylen.toNat = 2 * durs.length :=
  toNat_lenWord (by omega)

/-- Settles O38: the bytes of `payBytes` by their places. -/
theorem packWritesLittleEndian : Obligations.PackWritesLittleEndian := by
  unfold Obligations.PackWritesLittleEndian
  intro s durs clear fits input clean
  have length : durs.length = s.durlen.toNat := cellsRead_length input
  refine ⟨_, exec_pack_eq_done (State.inFault_of_status_zero clear) fits input clean,
    toNat_paylen_packDone (length ▸ fits), fun k v there => ?bytes, fun i above => ?above, packDone_frame clear durs⟩
  case bytes =>
    obtain ⟨below, _⟩ := List.getElem?_eq_some_iff.1 there
    obtain ⟨low, high⟩ := payBytes_getElem? there
    have count := payBytes_length durs
    rw [← lowByte_eq_ofNat, ← highByte_eq_ofNat]
    simp only [packDone, cellRead_cellsWrite, Nat.zero_le, Nat.zero_add, Nat.sub_zero, true_and]
    rw [if_pos (by omega), if_pos (by omega)]
    exact ⟨low, high⟩
  case above => exact cellRead_cellsWrite_outside (.inr (by rw [payBytes_length]; omega))

/-- Settles O39: the bytes before the first sentinel are written, and the fault is at its index. -/
theorem packSentinelFaults : Obligations.PackSentinelFaults := by
  unfold Obligations.PackSentinelFaults
  intro s before after clear fits clean input
  refine ⟨_, exec_pack_eq_faulted (State.inFault_of_status_zero clear) fits input clean, rfl, rfl, rfl,
    fun i above => ?_, rfl⟩
  exact cellRead_cellsWrite_outside (.inr (by rw [payBytes_length]; omega))

end Sys2Proof.Proofs
end

section
/-!
PROOF. The suffix order and the invariants of the SuffixIndex (44_suffix_index.md R185 to R192).
-/

namespace Sys2Proof.Proofs

open Sys2Proof.Machine Sys2Proof.Safety

/-! ## The order of byte lists -/

/-- No list sorts before itself. -/
theorem bytesLess_irrefl (xs : List Byte) : bytesLess xs xs = false := by
  induction xs with
  | nil => rfl
  | cons x xs ih => simp [bytesLess, ih]

/-- Of two different lists exactly one sorts before the other. -/
theorem bytesLess_total {xs ys : List Byte} (different : xs ≠ ys) : bytesLess xs ys = !bytesLess ys xs := by
  induction xs generalizing ys with
  | nil =>
    cases ys with
    | nil => exact absurd rfl different
    | cons y ys => rfl
  | cons x xs ih =>
    cases ys with
    | nil => rfl
    | cons y ys =>
      simp only [bytesLess]
      rcases Nat.lt_trichotomy x.toNat y.toNat with lt | eq | lt
      · simp [lt, Nat.lt_asymm lt]
      · obtain rfl := BitVec.eq_of_toNat_eq eq
        simpa using ih fun h => different (by rw [h])
      · simp [lt, Nat.lt_asymm lt]

/-- The order is transitive. -/
theorem bytesLess_trans {xs ys zs : List Byte} (first : bytesLess xs ys = true) (second : bytesLess ys zs = true) :
    bytesLess xs zs = true := by
  induction xs generalizing ys zs with
  | nil =>
    match ys, zs, first, second with
    | _ :: _, _ :: _, _, _ => rfl
  | cons x xs ih =>
    match ys, zs, first, second with
    | y :: ys, z :: zs, first, second =>
      simp only [bytesLess] at first second ⊢
      split_ifs at first with xy yx
      · split_ifs at second with yz zy
        · rw [if_pos (by omega)]
        · rw [if_pos (by omega)]
      · split_ifs at second with yz zy
        · rw [if_pos (by omega)]
        · rw [if_neg (by omega), if_neg (by omega)]
          exact ih first second

/-! ## The suffix order -/

/-- No suffix sorts before itself. -/
theorem sufLess_irrefl (pay : List Byte) (a : Nat) : sufLess pay a a = false := bytesLess_irrefl _

/-- Suffixes of different positions are different: they have different lengths. -/
theorem sufLess_total {pay : List Byte} {a b : Nat} (ha : a < pay.length) (hb : b < pay.length) (different : a ≠ b) :
    sufLess pay a b = !sufLess pay b a := by
  refine bytesLess_total fun same => different ?_
  have := congrArg List.length same
  rw [List.length_drop, List.length_drop] at this
  omega

/-- The suffix order is transitive. -/
theorem sufLess_trans {pay : List Byte} {a b c : Nat} (first : sufLess pay a b = true) (second : sufLess pay b c = true) :
    sufLess pay a c = true :=
  bytesLess_trans first second

/-- Of two suffixes at most one sorts before the other. -/
theorem sufLess_asymm {pay : List Byte} {a b : Nat} (first : sufLess pay a b = true) : sufLess pay b a = false := by
  by_contra second
  have := sufLess_trans first (Bool.not_eq_false _ ▸ second)
  rw [sufLess_irrefl] at this
  cases this

/-- Settles O50: irreflexive, total on positions, transitive. -/
theorem suffixOrderIsStrictTotal : Obligations.SuffixOrderIsStrictTotal := by
  unfold Obligations.SuffixOrderIsStrictTotal
  intro pay a b c ha hb _
  refine ⟨sufLess_irrefl pay a, fun different => ?_, sufLess_trans⟩
  rw [sufLess_total ha hb different, Bool.not_eq_true']

/-! ## Sorted position lists -/

/-- A list of positions in the suffix order. -/
abbrev SufSorted (pay : List Byte) (l : List Nat) : Prop := l.Pairwise fun a b => sufLess pay a b = true

/-- A position that sorts after the first part of a list and not after the rest has as many entries before it. -/
theorem countP_sufLess {pay : List Byte} {p : Nat} {before after : List Nat} (low : ∀ a ∈ before, sufLess pay a p = true)
    (high : ∀ b ∈ after, sufLess pay b p = false) :
    (before ++ after).countP (fun q => sufLess pay q p) = before.length := by
  rw [List.countP_append, List.countP_eq_length.2 low, List.countP_eq_zero.2 (by simpa using high), Nat.add_zero]

/-- A sorted list falls into the positions that sort before a position and those that sort after it. -/
theorem sufSorted_split {pay : List Byte} {l : List Nat} {p : Nat} (sorted : SufSorted pay l)
    (compare : ∀ q ∈ l, sufLess pay q p = true ∨ sufLess pay p q = true) :
    ∃ before after, l = before ++ after ∧ (∀ a ∈ before, sufLess pay a p = true)
      ∧ ∀ b ∈ after, sufLess pay p b = true := by
  induction l with
  | nil => exact ⟨[], [], rfl, by simp, by simp⟩
  | cons q l ih =>
    obtain ⟨first, others⟩ := List.pairwise_cons.1 sorted
    obtain ⟨compareFirst, compareOthers⟩ := List.forall_mem_cons.1 compare
    rcases compareFirst with low | high
    · obtain ⟨before, after, rfl, lower, higher⟩ := ih others compareOthers
      exact ⟨q :: before, after, rfl, List.forall_mem_cons.2 ⟨low, lower⟩, higher⟩
    · exact ⟨[], q :: l, rfl, by simp,
        List.forall_mem_cons.2 ⟨high, fun b there => sufLess_trans high (first b there)⟩⟩

/-- The two sides of an entry of a sorted list. -/
theorem sufSorted_sides {pay : List Byte} {before after : List Nat} {p : Nat} (sorted : SufSorted pay (before ++ p :: after)) :
    (∀ a ∈ before, sufLess pay a p = true) ∧ (∀ b ∈ after, sufLess pay p b = true)
      ∧ SufSorted pay (before ++ after) := by
  obtain ⟨left, right, across⟩ := List.pairwise_append.1 sorted
  obtain ⟨first, others⟩ := List.pairwise_cons.1 right
  exact ⟨fun a there => across a there p List.mem_cons_self, first,
    List.pairwise_append.2 ⟨left, others, fun a ha b hb => across a ha b (List.mem_cons_of_mem _ hb)⟩⟩

/-- A position put between those that sort before it and those that sort after it keeps a list sorted. -/
theorem sufSorted_insert {pay : List Byte} {before after : List Nat} {p : Nat} (sorted : SufSorted pay (before ++ after))
    (low : ∀ a ∈ before, sufLess pay a p = true) (high : ∀ b ∈ after, sufLess pay p b = true) :
    SufSorted pay (before ++ p :: after) := by
  obtain ⟨left, right, across⟩ := List.pairwise_append.1 sorted
  exact List.pairwise_append.2 ⟨left, List.pairwise_cons.2 ⟨high, right⟩, fun a ha b hb =>
    (List.mem_cons.1 hb).elim (fun h => h ▸ low a ha) (across a ha b)⟩

/-- Sorted lists of the same positions are equal. -/
theorem sufSorted_ext {pay : List Byte} {l m : List Nat} (hl : SufSorted pay l) (hm : SufSorted pay m)
    (same : ∀ p, p ∈ l ↔ p ∈ m) : l = m := by
  have : Std.Irrefl fun a b => sufLess pay a b = true := ⟨fun a h => by simp [sufLess_irrefl] at h⟩
  have : Std.Antisymm fun a b => sufLess pay a b = true := ⟨fun a b h k => by simp [sufLess_asymm h] at k⟩
  exact hl.eq_of_mem_iff hm same

/-- An insertion right after the first part of a list. -/
theorem insertIdx_append_length (before after : List Nat) (p : Nat) :
    (before ++ after).insertIdx before.length p = before ++ p :: after := by
  induction before with
  | nil => rfl
  | cons a before ih => simp [ih]

/-- A removal right after the first part of a list. -/
theorem eraseIdx_append_length (before after : List Nat) (p : Nat) :
    (before ++ p :: after).eraseIdx before.length = before ++ after := by
  rw [List.eraseIdx_append_of_length_le (Nat.le_refl _), Nat.sub_self]
  rfl

/-! ## The entries of the index -/

/-- The entries are the positions of a range, in the suffix order (44_suffix_index.md R186 (b) to (d)). -/
structure IndexHolds (pay : List Byte) (w : Work) (lo hi : Nat) : Prop where
  count : w.entries.length = w.sufcnt
  sorted : SufSorted pay w.entries
  mem_iff : ∀ p, p ∈ w.entries ↔ lo ≤ p ∧ p < hi

/-- The invariants are the number of entries and the range they hold. -/
theorem indexInv_iff {pay : List Byte} {w : Work} :
    IndexInv pay w ↔ w.sufcnt = min w.next 8192 ∧ IndexHolds pay w (w.next - 8192) w.next :=
  ⟨fun ⟨cnt, count, sorted, mem_iff⟩ => ⟨cnt, count, sorted, mem_iff⟩,
    fun ⟨cnt, count, sorted, mem_iff⟩ => ⟨cnt, count, sorted, mem_iff⟩⟩

/-- The entries of a range are known. -/
theorem IndexHolds.entries_eq {pay : List Byte} {w u : Work} {lo hi : Nat} (hw : IndexHolds pay w lo hi)
    (hu : IndexHolds pay u lo hi) : w.entries = u.entries :=
  sufSorted_ext hw.sorted hu.sorted fun p => (hw.mem_iff p).trans (hu.mem_iff p).symm

/-- An insertion adds the position above the range. -/
theorem IndexHolds.insert {pay : List Byte} {w : Work} {lo hi : Nat} (holds : IndexHolds pay w lo hi)
    (order : lo ≤ hi) (inside : hi < pay.length) : IndexHolds pay (sufInsert pay w hi) lo (hi + 1) := by
  have compare : ∀ q ∈ w.entries, sufLess pay q hi = true ∨ sufLess pay hi q = true := fun q there => by
    have below := ((holds.mem_iff q).1 there).2
    rw [sufLess_total (by omega) inside (Nat.ne_of_lt below)]
    cases sufLess pay hi q <;> simp
  obtain ⟨before, after, split, low, high⟩ := sufSorted_split holds.sorted compare
  have place : sufFind pay w hi = before.length := by
    rw [sufFind, split]
    exact countP_sufLess low fun b there => sufLess_asymm (high b there)
  have entries : (sufInsert pay w hi).entries = before ++ hi :: after := by
    rw [sufInsert_entries holds.count, place, split, insertIdx_append_length]
  refine ⟨?count, ?sorted, fun p => ?mem⟩
  case count =>
    have length := congrArg List.length split
    rw [holds.count] at length
    rw [entries, sufInsert]
    simp only [List.length_append, List.length_cons] at *
    omega
  case sorted =>
    rw [entries]
    exact sufSorted_insert (split ▸ holds.sorted) low high
  case mem =>
    have old := holds.mem_iff p
    rw [split, List.mem_append] at old
    rw [entries, List.mem_append, List.mem_cons, or_left_comm, old]
    omega

/-- An eviction removes the lowest position of the range. -/
theorem IndexHolds.evict {pay : List Byte} {w : Work} {lo hi : Nat} (holds : IndexHolds pay w lo hi) (order : lo < hi) :
    IndexHolds pay (sufEvict pay w lo) (lo + 1) hi := by
  obtain ⟨before, after, split⟩ := List.append_of_mem ((holds.mem_iff lo).2 ⟨Nat.le_refl _, order⟩)
  obtain ⟨low, high, sorted⟩ := sufSorted_sides (split ▸ holds.sorted)
  have place : sufFind pay w lo = before.length := by
    rw [sufFind, split]
    refine countP_sufLess low (List.forall_mem_cons.2 ⟨sufLess_irrefl pay lo, fun b there => ?_⟩)
    exact sufLess_asymm (high b there)
  have length := congrArg List.length split
  simp only [List.length_append, List.length_cons] at length
  have entries : (sufEvict pay w lo).entries = before ++ after := by
    rw [sufEvict_entries holds.count (by omega), place, split, eraseIdx_append_length]
  refine ⟨?count, by rwa [entries], fun p => ?mem⟩
  case count =>
    have cnt := holds.count
    rw [entries, sufEvict]
    simp only [List.length_append]
    omega
  case mem =>
    have old := holds.mem_iff p
    rw [split, List.mem_append, List.mem_cons] at old
    have gone : p ∈ before ∨ p ∈ after → p ≠ lo := by
      rintro (there | there) rfl
      · simpa [sufLess_irrefl] using low p there
      · simpa [sufLess_irrefl] using high p there
    rw [entries, List.mem_append]
    constructor
    · intro there
      have := gone there
      have := old.1 (there.imp_right .inr)
      omega
    · intro there
      have := old.2 (by omega)
      rcases this with h | h | h
      · exact .inl h
      · omega
      · exact .inr h

/-! ## `SUF_INIT` and `ADVANCE_TO` -/

/-- `SUF_INIT` establishes the invariants. -/
theorem indexInv_sufInit (pay : List Byte) (w : Work) : IndexInv pay (sufInit w) :=
  ⟨rfl, rfl, List.Pairwise.nil, fun p => by simp⟩

/-- The invariants speak of the registers of the index only. -/
theorem indexInv_congr {pay : List Byte} {w u : Work} (entries : u.entries = w.entries) (sufcnt : u.sufcnt = w.sufcnt)
    (next : u.next = w.next) (inv : IndexInv pay w) : IndexInv pay u := by
  rw [IndexInv] at inv ⊢
  rwa [entries, sufcnt, next]

/-- An iteration raises `NEXT` by 1. -/
theorem advanceOne_next (pay : List Byte) (w : Work) : (advanceOne pay w).next = w.next + 1 := by rw [advanceOne_eq]

/-- An iteration on a full index loses the oldest position and inserts the next. -/
theorem advanceOne_full {w : Work} (full : w.sufcnt = Config.window) (pay : List Byte) :
    advanceOne pay w = { sufInsert pay (sufEvict pay w (w.next - 8192)) w.next with next := w.next + 1 } := by
  rw [advanceOne, if_pos full]
  rfl

/-- An iteration on an index that is not full inserts the next position. -/
theorem advanceOne_not_full {w : Work} (room : ¬ w.sufcnt = Config.window) (pay : List Byte) :
    advanceOne pay w = { sufInsert pay w w.next with next := w.next + 1 } := by
  rw [advanceOne, if_neg room]

/-- An iteration keeps the invariants: a full index first loses its oldest position. -/
theorem indexInv_advanceOne {pay : List Byte} {w : Work} (inv : IndexInv pay w) (inside : w.next < pay.length) :
    IndexInv pay (advanceOne pay w) := by
  obtain ⟨cnt, holds⟩ := indexInv_iff.1 inv
  by_cases full : w.sufcnt = 8192
  · have kept := (holds.evict (by omega)).insert (by omega) inside
    rw [advanceOne_full full]
    refine indexInv_iff.2 ⟨?_, kept.count, kept.sorted, ?_⟩
    · show w.sufcnt - 1 + 1 = min (w.next + 1) 8192
      omega
    · show ∀ p, p ∈ (sufInsert pay (sufEvict pay w (w.next - 8192)) w.next).entries ↔ w.next + 1 - 8192 ≤ p ∧ p < w.next + 1
      rw [show w.next + 1 - 8192 = w.next - 8192 + 1 by omega]
      exact kept.mem_iff
  · have kept := holds.insert (Nat.sub_le _ _) inside
    rw [advanceOne_not_full full]
    refine indexInv_iff.2 ⟨?_, kept.count, kept.sorted, ?_⟩
    · show w.sufcnt + 1 = min (w.next + 1) 8192
      omega
    · show ∀ p, p ∈ (sufInsert pay w w.next).entries ↔ w.next + 1 - 8192 ≤ p ∧ p < w.next + 1
      rw [show w.next + 1 - 8192 = w.next - 8192 by omega]
      exact kept.mem_iff

/-- Settles O51: `SUF_INIT` establishes the invariants and an iteration of `ADVANCE_TO` keeps them. -/
theorem suffixIndexInvariants : Obligations.SuffixIndexInvariants := by
  unfold Obligations.SuffixIndexInvariants
  exact fun pay w => ⟨indexInv_sufInit pay w, fun inv inside => ⟨indexInv_advanceOne inv inside, advanceOne_next pay w⟩⟩

/-- Iterations inside the payload keep the invariants. -/
theorem indexInv_advanceTimes {pay : List Byte} {n : Nat} {w : Work} (inv : IndexInv pay w)
    (inside : w.next + n ≤ pay.length) : IndexInv pay (advanceTimes pay n w) := by
  induction n generalizing w with
  | zero => exact inv
  | succ n ih =>
    refine ih (indexInv_advanceOne inv (by omega)) ?_
    rw [advanceOne_next]
    omega

/-- `ADVANCE_TO` a cursor of the payload keeps the invariants. -/
theorem indexInv_advanceTo {pay : List Byte} {pos : Nat} {w : Work} (inv : IndexInv pay w) (behind : w.next ≤ pos + 1)
    (inside : pos < pay.length) : IndexInv pay (advanceTo pay pos w) :=
  indexInv_advanceTimes inv (by omega)

/-- After `ADVANCE_TO` a cursor the index holds the cursor and the 8191 positions before it. -/
theorem indexHolds_advanceTo {pay : List Byte} {pos : Nat} {w : Work} (inv : IndexInv pay w) (behind : w.next ≤ pos + 1)
    (inside : pos < pay.length) : IndexHolds pay (advanceTo pay pos w) (pos - 8191) (pos + 1) := by
  have holds := (indexInv_iff.1 (indexInv_advanceTo inv behind inside)).2
  rw [advanceTo_next, show w.next + (pos + 1 - w.next) = pos + 1 by omega,
    show pos + 1 - 8192 = pos - 8191 by omega] at holds
  exact holds

end Sys2Proof.Proofs
end

section
/-!
PROOF. What `MATCH_LEN` is, what the two searches guarantee, and which neighbour `BEST_MATCH` leaves (43_match_finder.md R170
to R173, 44_suffix_index.md R191).
-/

namespace Sys2Proof.Proofs

open Sys2Proof.Machine Sys2Proof.Safety

/-! ## `MATCH_LEN` -/

/-- `MATCH_LEN` of an earlier position is the greatest agreement within its limits (43_match_finder.md R170). -/
theorem isMatchLen_matchLen {pay : List Byte} {pos q : Nat} (before : q < pos) (inside : pos < pay.length) :
    IsMatchLen pay pos q (matchLen pay pos q) := by
  obtain ⟨short, fits⟩ := matchLen_le pay pos q
  refine ⟨short, by omega, fun k => matchLen_agree, ?_⟩
  by_contra goesOn
  simp only [not_or] at goesOn
  obtain ⟨notLimit, notEnd, agrees⟩ := goesOn
  have stops := commonPrefix_stops (n := min Config.lenMax (pay.length - pos)) (xs := pay.drop pos) (ys := pay.drop q)
  simp only [List.getElem?_drop, List.length_drop] at stops
  refine stops ?_ ?_ ?_ (not_not.1 agrees)
  · show matchLen pay pos q < min 264 (pay.length - pos)
    omega
  · show matchLen pay pos q < _
    omega
  · show matchLen pay pos q < _
    omega

/-! ## Sound candidates -/

/-- A candidate at a position: no match, or the `MATCH_LEN` of a distance in range. -/
def SoundCandidate (pay : List Byte) (pos len dist : Nat) : Prop :=
  (len = 0 ∧ dist = 0) ∨ (1 ≤ dist ∧ dist ≤ min pos 8192 ∧ len = matchLen pay pos (pos - dist))

/-- What `FIRST_MATCH` leaves is sound. -/
theorem soundCandidate_firstMatch (pay : List Byte) (w : Work) :
    SoundCandidate pay w.pos (firstMatch pay w).clen (firstMatch pay w).cdist := by
  obtain ⟨absent, _⟩ | ⟨dist, one, inRange, _, _, found⟩ := firstMatch_cases pay w
  · rw [absent]
    exact .inl ⟨rfl, rfl⟩
  · rw [found]
    exact .inr ⟨one, inRange, rfl⟩

/-- `BEST_MATCH` is `BEST_OF` of the neighbours, after `ADVANCE_TO` (43_match_finder.md R173). -/
theorem bestMatch_eq_bestOf (pay : List Byte) (w : Work) :
    bestMatch pay w = bestOf pay (advanceTo pay w.pos w) (neighbors pay w.pos (advanceTo pay w.pos w)) := by
  rw [bestMatch, advanceTo_pos]

/-- What `BEST_MATCH` leaves is sound, whatever the index holds: distances out of range are no neighbours. -/
theorem soundCandidate_bestMatch (pay : List Byte) (w : Work) :
    SoundCandidate pay w.pos (bestMatch pay w).clen (bestMatch pay w).cdist := by
  have valid : ∀ d ∈ neighbors pay w.pos (advanceTo pay w.pos w), 1 ≤ d ∧ d ≤ 8192 ∧ d ≤ w.pos := fun d there => by
    obtain ⟨one, inRange, p, _, rfl⟩ := mem_neighbors there
    exact ⟨one, inRange, Nat.sub_le _ _⟩
  have outcome := bestOf_cases pay (advanceTo pay w.pos w) _ fun d there => Nat.ne_of_gt (valid d there).1
  rw [← bestMatch_eq_bestOf, advanceTo_pos] at outcome
  obtain ⟨_, len, dist⟩ | ⟨there, len, _⟩ := outcome
  · exact .inl ⟨len, dist⟩
  · obtain ⟨one, inRange, before⟩ := valid _ there
    exact .inr ⟨one, le_min before inRange, len⟩

/-- What a sound candidate that is a match guarantees. -/
theorem SoundCandidate.guarantee {pay : List Byte} {pos len dist : Nat} (sound : SoundCandidate pay pos len dist)
    (inside : pos < pay.length) (found : dist ≠ 0) :
    1 ≤ dist ∧ dist ≤ min pos 8192 ∧ IsMatchLen pay pos (pos - dist) len := by
  obtain ⟨_, absent⟩ | ⟨one, inRange, rfl⟩ := sound
  · exact absurd absent found
  · exact ⟨one, inRange, isMatchLen_matchLen (by omega) inside⟩

/-- Settles O48: the limits of `MATCH_LEN`, and both searches through the soundness of their candidates. -/
theorem searchesFindTrueMatches : Obligations.SearchesFindTrueMatches := by
  unfold Obligations.SearchesFindTrueMatches
  intro pay w inside
  refine ⟨fun q before => isMatchLen_matchLen before inside, fun v search found _ => ?_⟩
  have sound : v.pos = w.pos ∧ SoundCandidate pay w.pos v.clen v.cdist := by
    simp only [List.mem_cons, List.not_mem_nil, or_false] at search
    obtain rfl | rfl := search
    · exact ⟨rfl, soundCandidate_firstMatch pay w⟩
    · exact ⟨bestMatch_pos pay w, soundCandidate_bestMatch pay w⟩
  obtain ⟨one, inRange, short, fits, agree, stops⟩ := sound.2.guarantee inside found
  exact ⟨sound.1, short, one, inRange, fits, agree, stops⟩

/-! ## `BEST_OF` -/

/-- A candidate is at least as good as another: a longer match, or as long and not farther (43_match_finder.md R172). -/
def AtLeastAsGood (len dist len' dist' : Nat) : Prop := len' < len ∨ (len' = len ∧ dist ≤ dist')

/-- The candidate that `BEST_OF` ends with is at least as good as every one it has seen. -/
theorem foldl_betterOf_best {pay : List Byte} (cands : List Nat) {u : Work} (valid : ∀ d ∈ cands, d ≠ 0)
    (found : u.cdist ≠ 0) :
    AtLeastAsGood (cands.foldl (betterOf pay) u).clen (cands.foldl (betterOf pay) u).cdist u.clen u.cdist
      ∧ ∀ d ∈ cands, AtLeastAsGood (cands.foldl (betterOf pay) u).clen (cands.foldl (betterOf pay) u).cdist
          (matchLen pay u.pos (u.pos - d)) d := by
  unfold AtLeastAsGood
  induction cands generalizing u with
  | nil => simp
  | cons c cands ih =>
    obtain ⟨nonzero, others⟩ := List.forall_mem_cons.1 valid
    rw [List.foldl_cons, betterOf]
    split_ifs with better
    · obtain ⟨first, rest⟩ := ih (u := { u with clen := matchLen pay u.pos (u.pos - c), cdist := c }) others nonzero
      refine ⟨?_, List.forall_mem_cons.2 ⟨first, rest⟩⟩
      dsimp only at first
      omega
    · obtain ⟨first, rest⟩ := ih others found
      refine ⟨first, List.forall_mem_cons.2 ⟨?_, rest⟩⟩
      omega

/-- The candidate that `BEST_OF` leaves is at least as good as every one given. -/
theorem bestOf_best {pay : List Byte} {w : Work} {cands : List Nat} (valid : ∀ d ∈ cands, d ≠ 0) :
    ∀ d ∈ cands, AtLeastAsGood (bestOf pay w cands).clen (bestOf pay w cands).cdist
      (matchLen pay w.pos (w.pos - d)) d := by
  cases cands with
  | nil => simp
  | cons c cands =>
    obtain ⟨nonzero, others⟩ := List.forall_mem_cons.1 valid
    obtain ⟨first, rest⟩ := foldl_betterOf_best (pay := pay)
      (u := { w with clen := matchLen pay w.pos (w.pos - c), cdist := c }) cands others nonzero
    exact List.forall_mem_cons.2 ⟨first, rest⟩

/-- `BEST_OF` looks at the cursor and the candidates only. -/
theorem bestOf_congr {pay : List Byte} {w u : Work} (pos : w.pos = u.pos) (cands : List Nat) :
    (bestOf pay w cands).clen = (bestOf pay u cands).clen ∧ (bestOf pay w cands).cdist = (bestOf pay u cands).cdist := by
  have fold : ∀ (cs : List Nat) (a b : Work), a.pos = b.pos → a.clen = b.clen → a.cdist = b.cdist →
      (cs.foldl (betterOf pay) a).clen = (cs.foldl (betterOf pay) b).clen
        ∧ (cs.foldl (betterOf pay) a).cdist = (cs.foldl (betterOf pay) b).cdist := by
    intro cs
    induction cs with
    | nil => exact fun _ _ _ clen cdist => ⟨clen, cdist⟩
    | cons c cs ih =>
      intro a b pos clen cdist
      rw [List.foldl_cons, List.foldl_cons, betterOf, betterOf, pos, clen, cdist]
      split_ifs
      · exact ih { a with pos := b.pos, clen := _, cdist := c } { b with clen := _, cdist := c } rfl rfl rfl
      · exact ih a b pos clen cdist
  exact fold cands { w with clen := 0, cdist := 0 } { u with clen := 0, cdist := 0 } pos rfl rfl

/-! ## The neighbours -/

/-- The neighbours are found from the entries alone. -/
theorem neighbors_congr {w u : Work} (entries : w.entries = u.entries) (pay : List Byte) (pos : Nat) :
    neighbors pay pos w = neighbors pay pos u := by
  have place : sufFind pay w pos = sufFind pay u pos := by rw [sufFind, sufFind, entries]
  simp only [neighbors, place, entries]

/-- The first position sorted after the cursor is the successor of its suffix. -/
theorem isSuccessor_iff {pay : List Byte} {pos q : Nat} {before after : List Nat}
    (sorted : SufSorted pay (before ++ pos :: after)) (window : ∀ r, InWindow pos r ↔ r ∈ before ∨ r ∈ after) :
    IsSuccessor pay pos q ↔ after.head? = some q := by
  obtain ⟨low, high, _⟩ := sufSorted_sides sorted
  have right : ∀ r, InWindow pos r → sufLess pay pos r = true → r ∈ after := fun r inside less =>
    ((window r).1 inside).resolve_left fun there => by simp [sufLess_asymm (low r there)] at less
  cases after with
  | nil =>
    refine ⟨fun ⟨inside, less, _⟩ => ?_, fun h => nomatch h⟩
    exact absurd (right q inside less) List.not_mem_nil
  | cons a after =>
    have first := (List.pairwise_cons.1 (List.pairwise_cons.1 (List.pairwise_append.1 sorted).2.1).2).1
    simp only [List.head?_cons, Option.some.injEq]
    constructor
    · rintro ⟨inside, less, next⟩
      have here := List.mem_cons_self (a := a) (l := after)
      rcases next a ((window a).2 (.inr here)) (high a here) with same | before
      · exact same
      · rcases List.mem_cons.1 (right q inside less) with same | there
        · exact same.symm
        · simp [sufLess_asymm (first q there)] at before
    · rintro rfl
      have here := List.mem_cons_self (a := a) (l := after)
      refine ⟨(window a).2 (.inr here), high a here, fun r inside less => ?_⟩
      exact (List.mem_cons.1 (right r inside less)).imp_right (first r)

/-- The last position sorted before the cursor is the predecessor of its suffix. -/
theorem isPredecessor_iff {pay : List Byte} {pos q : Nat} {before after : List Nat}
    (sorted : SufSorted pay (before ++ pos :: after)) (window : ∀ r, InWindow pos r ↔ r ∈ before ∨ r ∈ after) :
    IsPredecessor pay pos q ↔ before.getLast? = some q := by
  obtain ⟨low, high, _⟩ := sufSorted_sides sorted
  have left : ∀ r, InWindow pos r → sufLess pay r pos = true → r ∈ before := fun r inside less =>
    ((window r).1 inside).resolve_right fun there => by simp [sufLess_asymm (high r there)] at less
  obtain rfl | ⟨front, a, rfl⟩ := List.eq_nil_or_concat before
  · refine ⟨fun ⟨inside, less, _⟩ => ?_, fun h => nomatch h⟩
    exact absurd (left q inside less) List.not_mem_nil
  · rw [List.concat_eq_append] at *
    have last : ∀ r ∈ front, sufLess pay r a = true := fun r there =>
      (List.pairwise_append.1 (List.pairwise_append.1 sorted).1).2.2 r there a (List.mem_singleton.2 rfl)
    have here : a ∈ front ++ [a] := List.mem_append_right _ (List.mem_singleton.2 rfl)
    simp only [List.getLast?_append, List.getLast?_singleton, Option.some_or, Option.some.injEq]
    have others : ∀ r, r ∈ front ++ [a] → r = a ∨ r ∈ front := fun r there => by
      simpa [or_comm] using there
    constructor
    · rintro ⟨inside, less, next⟩
      rcases next a ((window a).2 (.inl here)) (low a here) with same | after
      · exact same
      · rcases others q (left q inside less) with same | there
        · exact same.symm
        · simp [sufLess_asymm (last q there)] at after
    · rintro rfl
      refine ⟨(window a).2 (.inl here), low a here, fun r inside less => ?_⟩
      exact (others r (left r inside less)).imp_right (last r)

/-- A position of the window is a valid distance. -/
theorem neighborDistance_of_inWindow {pos q : Nat} (inside : InWindow pos q) : neighborDistance pos (some q) = [pos - q] := by
  obtain ⟨low, high⟩ := inside
  exact if_pos (show 1 ≤ pos - q ∧ pos - q ≤ 8192 by omega)

/-- The candidates of `NEIGHBORS` are the distances of the lexicographic neighbours, once the index has come to the
cursor. -/
theorem mem_neighbors_iff {pay : List Byte} {pos : Nat} {w : Work} (holds : IndexHolds pay w (pos - 8191) (pos + 1))
    (d : Nat) : d ∈ neighbors pay pos w ↔ ∃ q, IsNeighbor pay pos q ∧ d = pos - q := by
  obtain ⟨before, after, split⟩ := List.append_of_mem ((holds.mem_iff pos).2 (by omega))
  have sorted := split ▸ holds.sorted
  obtain ⟨low, high, _⟩ := sufSorted_sides sorted
  have window : ∀ r, InWindow pos r ↔ r ∈ before ∨ r ∈ after := by
    intro r
    have mem := holds.mem_iff r
    rw [split, List.mem_append, List.mem_cons] at mem
    have notHere : ¬ (pos ∈ before ∨ pos ∈ after) := by
      rintro (there | there)
      · simpa [sufLess_irrefl] using low pos there
      · simpa [sufLess_irrefl] using high pos there
    rw [InWindow]
    constructor
    · rintro ⟨from_, below⟩
      rcases mem.2 (by omega) with h | h | h
      · exact .inl h
      · omega
      · exact .inr h
    · intro there
      have := mem.1 (there.imp_right .inr)
      have : r ≠ pos := fun same => notHere (same ▸ there)
      omega
  have place : sufFind pay w pos = before.length := by
    rw [sufFind, split]
    exact countP_sufLess low (List.forall_mem_cons.2 ⟨sufLess_irrefl pay pos, fun b there => sufLess_asymm (high b there)⟩)
  have successor : w.entries[before.length + 1]? = after.head? := by
    rw [split, List.getElem?_append_right (Nat.le_add_right _ _), Nat.add_sub_cancel_left, List.getElem?_cons_succ,
      List.head?_eq_getElem?]
  have predecessor : (if 1 ≤ before.length then w.entries[before.length - 1]? else none) = before.getLast? := by
    rw [List.getLast?_eq_getElem?]
    split_ifs with nonempty
    · rw [split, List.getElem?_append_left (by omega)]
    · rw [List.getElem?_eq_none (by omega)]
  have side : ∀ o : Option Nat, (∀ q, o = some q → InWindow pos q) →
      (d ∈ neighborDistance pos o ↔ ∃ q, o = some q ∧ d = pos - q) := by
    intro o inside
    cases o with
    | none => simp [neighborDistance]
    | some q => simp [neighborDistance_of_inWindow (inside q rfl)]
  simp only [neighbors, place, successor, predecessor, List.mem_append, IsNeighbor]
  rw [side _ fun q h => ((isSuccessor_iff sorted window).2 h).1, side _ fun q h => ((isPredecessor_iff sorted window).2 h).1]
  simp only [← isSuccessor_iff sorted window, ← isPredecessor_iff sorted window]
  constructor
  · rintro (⟨q, h, rfl⟩ | ⟨q, h, rfl⟩)
    · exact ⟨q, .inl h, rfl⟩
    · exact ⟨q, .inr h, rfl⟩
  · rintro ⟨q, h | h, rfl⟩
    · exact .inl ⟨q, h, rfl⟩
    · exact .inr ⟨q, h, rfl⟩

/-! ## `BEST_MATCH` -/

/-- `BEST_MATCH` writes the candidate registers and the registers of the index. -/
theorem bestMatch_eq (pay : List Byte) (w : Work) :
    bestMatch pay w = { w with
      clen := (bestMatch pay w).clen, cdist := (bestMatch pay w).cdist, suf := (bestMatch pay w).suf,
      sufcnt := (bestMatch pay w).sufcnt, next := (bestMatch pay w).next } := by
  rw [bestMatch, bestOf_eq, advanceTo, advanceTimes_eq]

/-- `BEST_MATCH` keeps the invariants of the index. -/
theorem indexInv_bestMatch {pay : List Byte} {w : Work} (inv : IndexInv pay w) (behind : w.next ≤ w.pos + 1)
    (inside : w.pos < pay.length) : IndexInv pay (bestMatch pay w) :=
  indexInv_congr (w := advanceTo pay w.pos w) (bestMatch_entries pay w) (bestOf_sufcnt pay _ _) (bestOf_next pay _ _)
    (indexInv_advanceTo inv behind inside)

/-- The candidates of `BEST_MATCH` are the distances of the lexicographic neighbours of the cursor's suffix. -/
theorem mem_neighbors_advanceTo {pay : List Byte} {w : Work} (inv : IndexInv pay w) (behind : w.next ≤ w.pos + 1)
    (inside : w.pos < pay.length) (d : Nat) :
    d ∈ neighbors pay w.pos (advanceTo pay w.pos w) ↔ ∃ q, IsNeighbor pay w.pos q ∧ d = w.pos - q :=
  mem_neighbors_iff (indexHolds_advanceTo inv behind inside) d

/-- A neighbour stands in the window of the cursor. -/
theorem inWindow_of_isNeighbor {pay : List Byte} {pos q : Nat} (h : IsNeighbor pay pos q) : InWindow pos q :=
  h.elim (·.1) (·.1)

/-- Settles O60: the neighbours are the candidates, of which `BEST_OF` takes the best. -/
theorem bestMatchTakesBetterNeighbor : Obligations.BestMatchTakesBetterNeighbor := by
  unfold Obligations.BestMatchTakesBetterNeighbor
  intro pay w inv behind inside
  have mem := mem_neighbors_advanceTo inv behind inside
  have valid : ∀ d ∈ neighbors pay w.pos (advanceTo pay w.pos w), d ≠ 0 :=
    fun d there => Nat.ne_of_gt (mem_neighbors there).1
  have best := bestOf_best (pay := pay) (w := advanceTo pay w.pos w) valid
  have outcome := bestOf_cases pay (advanceTo pay w.pos w) _ valid
  rw [← bestMatch_eq_bestOf, advanceTo_pos] at best outcome
  have next : (bestMatch pay w).next = w.pos + 1 := by rw [bestMatch_next]; omega
  have frame := bestMatch_eq pay w
  rw [next] at frame
  refine ⟨frame, indexInv_bestMatch inv behind inside, fun alone => ?none, fun ⟨q, neighbor⟩ => ?some⟩
  case none =>
    obtain ⟨_, len, dist⟩ | ⟨there, _⟩ := outcome
    · exact ⟨len, dist⟩
    · obtain ⟨q, neighbor, _⟩ := (mem _).1 there
      exact absurd neighbor (alone q)
  case some =>
    obtain ⟨empty, _⟩ | ⟨there, len, _⟩ := outcome
    · have there := (mem _).2 ⟨q, neighbor, rfl⟩
      rw [empty] at there
      cases there
    · obtain ⟨r, chosen, dist⟩ := (mem _).1 there
      have back : ∀ p, IsNeighbor pay w.pos p → w.pos - (w.pos - p) = p := fun p h => by
        have := (inWindow_of_isNeighbor h).2
        omega
      rw [dist, back r chosen] at len
      refine ⟨r, chosen, dist, len, fun p other => ?_⟩
      have better := best (w.pos - p) ((mem _).2 ⟨p, other, rfl⟩)
      rw [back p other, len, dist] at better
      have := (inWindow_of_isNeighbor chosen).2
      have := (inWindow_of_isNeighbor other).2
      exact better.imp_right fun h => ⟨h.1, by omega⟩

/-! ## The candidate at a position -/

/-- From an index that has not passed the cursor, `BEST_MATCH` leaves the candidate of the cursor's position. -/
theorem bestMatch_eq_indexCandidate {pay : List Byte} {w : Work} (inv : IndexInv pay w) (behind : w.next ≤ w.pos + 1)
    (inside : w.pos < pay.length) : ((bestMatch pay w).clen, (bestMatch pay w).cdist) = indexCandidate pay w.pos := by
  have fresh := indexHolds_advanceTo (w := sufInit { Work.reset with pos := w.pos }) (indexInv_sufInit pay _)
    (Nat.zero_le _) inside
  have entries := (indexHolds_advanceTo inv behind inside).entries_eq fresh
  simp only [indexCandidate, bestMatch_eq_bestOf, sufInit_pos]
  rw [neighbors_congr entries]
  exact Prod.ext_iff.2 (bestOf_congr (by simp) _)

/-- The candidate of levels 2 and 3 at a position is sound. -/
theorem soundCandidate_indexCandidate (pay : List Byte) (p : Nat) :
    SoundCandidate pay p (indexCandidate pay p).1 (indexCandidate pay p).2 :=
  soundCandidate_bestMatch pay (sufInit { Work.reset with pos := p })

/-- The candidate of level 1 at a position is sound. -/
theorem soundCandidate_nearestCandidate (pay : List Byte) (p : Nat) :
    SoundCandidate pay p (nearestCandidate pay p).1 (nearestCandidate pay p).2 :=
  soundCandidate_firstMatch pay { Work.reset with pos := p }

/-- The candidate of levels 2 and 3 is at most 8191 places back: the index holds no position farther away than that
(44_suffix_index.md R193). -/
theorem indexCandidate_dist_le {pay : List Byte} {p : Nat} (inside : p < pay.length) : (indexCandidate pay p).2 ≤ 8191 := by
  obtain ⟨_, _, alone, some⟩ := bestMatchTakesBetterNeighbor pay (sufInit { Work.reset with pos := p })
    (indexInv_sufInit pay _) (Nat.zero_le _) inside
  by_cases neighbor : ∃ q, IsNeighbor pay p q
  · obtain ⟨q, near, dist, _⟩ := some neighbor
    have near : p - 8191 ≤ q := (inWindow_of_isNeighbor near).1
    show (bestMatch pay (sufInit { Work.reset with pos := p })).cdist ≤ 8191
    rw [dist]
    show p - q ≤ 8191
    omega
  · exact (alone (not_exists.1 neighbor)).2.le.trans (Nat.zero_le _)

end Sys2Proof.Proofs
end

section
/-!
PROOF. Lists of blocks: their bytes read back, what they expand to, and the blocks that the emitters' calls give
(42_block_emitter.md R150 to R154).
-/

namespace Sys2Proof.Proofs

open Sys2Proof.Machine Sys2Proof.Safety

/-! ## A match record -/

/-- A match in range that the payload holds at a position. -/
structure MatchFits (pay : List Byte) (p len dist : Nat) : Prop where
  len_low : 3 ≤ len
  len_high : len ≤ 264
  dist_low : 1 ≤ dist
  dist_high : dist ≤ min p 8192
  inside : p + len ≤ pay.length
  agree : ∀ k, k < len → pay[p + k]? = pay[p - dist + k]?

/-- A match record is a well-formed block of its length and its distance. -/
theorem matchRecord_spec {len dist : Nat} (len3 : 3 ≤ len) (len264 : len ≤ 264) (d1 : 1 ≤ dist) (d : dist ≤ 8192) :
    spaceOf (matchRecord len dist) = .stream ∧ (matchRecord len dist).wf = true ∧ blockLength (matchRecord len dist) = len
      ∧ blockDistance (matchRecord len dist) = some dist
      ∧ ∀ content, expandBlock content (matchRecord len dist) = copyBack len dist content := by
  by_cases short : len ≤ 8
  · obtain ⟨l, h, e, record, wf, rfl, rfl⟩ := matchRecord_short len3 short d1 d
    rw [record]
    exact ⟨rfl, wf, rfl, rfl, fun _ => rfl⟩
  · obtain ⟨h, c, e, record, rfl, rfl⟩ := matchRecord_long (by omega) len264 d1 d
    rw [record]
    exact ⟨rfl, rfl, rfl, rfl, fun _ => rfl⟩

/-! ## Blocks that stand for the payload -/

/-- A block stands for the payload bytes at a position: a literal of them, or a match that repeats earlier ones. -/
inductive BlockFits (pay : List Byte) (p : Nat) : Instr → Prop where
  | literal {n : Nat} (low : 1 ≤ n) (high : n ≤ 32) (inside : p + n ≤ pay.length) : BlockFits pay p (.lit ((pay.drop p).take n))
  | matched {len dist : Nat} (fits : MatchFits pay p len dist) : BlockFits pay p (matchRecord len dist)

/-- The bytes of a piece inside the payload. -/
theorem length_piece {pay : List Byte} {p n : Nat} (inside : p + n ≤ pay.length) : ((pay.drop p).take n).length = n := by
  rw [List.length_take, List.length_drop]
  omega

/-- A match inside the payload repeats its bytes. -/
theorem copyBack_take {pay : List Byte} {p len dist : Nat} (one : 1 ≤ dist) (back : dist ≤ p) (inside : p + len ≤ pay.length)
    (agree : ∀ k, k < len → pay[p + k]? = pay[p - dist + k]?) :
    copyBack len dist (pay.take p) = some (pay.take (p + len)) := by
  induction len generalizing p with
  | zero => rfl
  | succ n ih =>
    have content : (pay.take p).length = p := List.length_take_of_le (by omega)
    have byte : (pay.take p)[p - dist]? = some pay[p] := by
      have first := agree 0 (Nat.succ_pos n)
      rw [Nat.add_zero, Nat.add_zero] at first
      rw [List.getElem?_take_of_lt (by omega), ← first, List.getElem?_eq_getElem]
    rw [copyBack, content, if_pos back, byte]
    show copyBack n dist (pay.take p ++ [pay[p]]) = _
    rw [List.take_append_getElem, show p + (n + 1) = p + 1 + n by omega]
    refine ih (by omega) (by omega) fun k below => ?_
    have next := agree (k + 1) (by omega)
    rwa [← Nat.add_assoc, Nat.add_right_comm, ← Nat.add_assoc, Nat.add_right_comm (p - dist),
      show p - dist + 1 = p + 1 - dist by omega] at next

section block

variable {pay : List Byte} {p : Nat} {i : Instr}

/-- A block that stands for payload bytes is a well-formed block of the stream. -/
theorem BlockFits.wf (fits : BlockFits pay p i) : spaceOf i = .stream ∧ i.wf = true := by
  cases fits with
  | literal low high inside => simpa [spaceOf, Instr.wf, length_piece inside] using ⟨low, high⟩
  | matched fits =>
    obtain ⟨space, wf, _⟩ := matchRecord_spec fits.len_low fits.len_high fits.dist_low (le_min_iff.1 fits.dist_high).2
    exact ⟨space, wf⟩

/-- It extends the content by those bytes. -/
theorem BlockFits.expand (fits : BlockFits pay p i) :
    p + blockLength i ≤ pay.length ∧ expandBlock (pay.take p) i = some (pay.take (p + blockLength i)) := by
  cases fits with
  | literal low high inside =>
    rw [blockLength, length_piece inside]
    exact ⟨inside, congrArg some List.take_add.symm⟩
  | matched fits =>
    have dist := le_min_iff.1 fits.dist_high
    obtain ⟨_, _, len, _, expand⟩ := matchRecord_spec fits.len_low fits.len_high fits.dist_low dist.2
    rw [len, expand]
    exact ⟨fits.inside, copyBack_take fits.dist_low dist.1 fits.inside fits.agree⟩

end block

/-! ## Lists of blocks -/

/-- The payload bytes that a list of blocks stands for. -/
def spanOf (blocks : List Instr) : Nat := (blocks.map blockLength).sum

/-- The bytes of a list of blocks. -/
def streamOf (blocks : List Instr) : List Byte := blocks.flatMap encode

@[simp] theorem spanOf_nil : spanOf [] = 0 := rfl
@[simp] theorem spanOf_cons (i : Instr) (blocks : List Instr) : spanOf (i :: blocks) = blockLength i + spanOf blocks := rfl
@[simp] theorem spanOf_append (xs ys : List Instr) : spanOf (xs ++ ys) = spanOf xs + spanOf ys := by
  simp [spanOf]

@[simp] theorem streamOf_nil : streamOf [] = [] := rfl
@[simp] theorem streamOf_cons (i : Instr) (blocks : List Instr) : streamOf (i :: blocks) = encode i ++ streamOf blocks := rfl
@[simp] theorem streamOf_append (xs ys : List Instr) : streamOf (xs ++ ys) = streamOf xs ++ streamOf ys := by
  simp [streamOf]

/-- Blocks after others start where those end. -/
theorem placed_append (p : Nat) (xs ys : List Instr) :
    placed p (xs ++ ys) = placed p xs ++ placed (p + spanOf xs) ys := by
  induction xs generalizing p with
  | nil => rfl
  | cons x xs ih => simp [placed, ih, Nat.add_assoc]

/-- Every block of a list stands somewhere. -/
theorem exists_mem_placed {blocks : List Instr} {i : Instr} (there : i ∈ blocks) (p : Nat) :
    ∃ q, (q, i) ∈ placed p blocks := by
  induction blocks generalizing p with
  | nil => cases there
  | cons j blocks ih =>
    rcases List.mem_cons.1 there with rfl | there
    · exact ⟨p, List.mem_cons_self⟩
    · obtain ⟨q, mem⟩ := ih there (p + blockLength j)
      exact ⟨q, List.mem_cons_of_mem _ mem⟩

/-- The encoding of a block of the stream is not empty. -/
theorem one_le_length_encode_block {i : Instr} (stream : spaceOf i = .stream) : 1 ≤ (encode i).length := by
  cases i with
  | lit | matchs | matchl => exact Nat.le_add_left _ _
  | _ => cases stream

/-- The blocks of a stream are read one by one. -/
theorem splitBlocks_succ {n : Nat} {bs rest : List Byte} {i : Instr} (block : decodeBlock bs = some (i, rest)) :
    splitBlocks (n + 1) bs = (splitBlocks n rest).map (i :: ·) := by
  cases bs with
  | nil => cases block
  | cons b bs => simp only [splitBlocks, block]

/-- The bytes of a list of well-formed blocks are read back as those blocks. -/
theorem splitBlocks_streamOf {blocks : List Instr} (wf : ∀ i ∈ blocks, spaceOf i = .stream ∧ i.wf = true) {n : Nat}
    (fuel : (streamOf blocks).length ≤ n) : splitBlocks n (streamOf blocks) = some blocks := by
  induction blocks generalizing n with
  | nil => cases n <;> rfl
  | cons i blocks ih =>
    obtain ⟨⟨stream, wfi⟩, others⟩ := List.forall_mem_cons.1 wf
    rw [streamOf_cons, List.length_append] at fuel
    have one := one_le_length_encode_block stream
    obtain ⟨m, rfl⟩ : ∃ m, n = m + 1 := ⟨n - 1, by omega⟩
    rw [streamOf_cons, splitBlocks_succ (decodeBlock_encode stream wfi _), ih others (by omega)]
    rfl

/-! ## Parses -/

/-- A list of blocks is a parse of the payload: each block stands for the payload bytes where it stands, and together they
stand for all of it. -/
structure IsParse (pay : List Byte) (blocks : List Instr) : Prop where
  fits : ∀ x ∈ placed 0 blocks, BlockFits pay x.1 x.2
  span : spanOf blocks = pay.length

/-- Blocks that stand for payload bytes from a position on extend the content by them. -/
theorem expandBlocks_take {pay : List Byte} {blocks : List Instr} {p : Nat}
    (fits : ∀ x ∈ placed p blocks, BlockFits pay x.1 x.2) :
    expandBlocks (pay.take p) blocks = some (pay.take (p + spanOf blocks)) := by
  induction blocks generalizing p with
  | nil => rfl
  | cons i blocks ih =>
    obtain ⟨first, others⟩ := List.forall_mem_cons.1 fits
    rw [expandBlocks, first.expand.2]
    show expandBlocks (pay.take (p + blockLength i)) blocks = _
    rw [ih others, spanOf_cons, Nat.add_assoc]

section parse

variable {pay : List Byte} {blocks : List Instr}

/-- The blocks of a parse are well-formed blocks of the stream. -/
theorem IsParse.wf (parse : IsParse pay blocks) : ∀ i ∈ blocks, spaceOf i = .stream ∧ i.wf = true := fun i there => by
  obtain ⟨q, mem⟩ := exists_mem_placed there 0
  exact (parse.fits _ mem).wf

/-- The bytes of a parse are read back as its blocks. -/
theorem IsParse.blocksOf (parse : IsParse pay blocks) : blocksOf (streamOf blocks) = some blocks :=
  splitBlocks_streamOf parse.wf (Nat.le_refl _)

/-- A parse expands to the payload. -/
theorem IsParse.expandBlocks (parse : IsParse pay blocks) : expandBlocks [] blocks = some pay := by
  have all := expandBlocks_take parse.fits
  rwa [parse.span, Nat.zero_add, List.take_length, List.take_zero] at all

/-- The stream of a parse stands for the payload (42_block_emitter.md R154). -/
theorem IsParse.expand (parse : IsParse pay blocks) : expand (streamOf blocks) = some pay := by
  rw [Safety.expand, parse.blocksOf]
  exact parse.expandBlocks

end parse

/-! ## The blocks that calls emit -/

/-- The pieces of a literal run (42_block_emitter.md R151); the first argument bounds them. -/
def litBlocks (pay : List Byte) : Nat → Nat → Nat → List Instr
  | 0, _, _ => []
  | n + 1, a, b =>
    if a < b then .lit ((pay.drop a).take (min 32 (b - a))) :: litBlocks pay n (a + min 32 (b - a)) b else []

/-- The blocks of one call. -/
def callBlocks (pay : List Byte) : EmitCall → List Instr
  | .litRun a b => litBlocks pay (b - a) a b
  | .matchAt len dist _ => [matchRecord len dist]

/-- The blocks of a list of calls. -/
def callsBlocks (pay : List Byte) (calls : List EmitCall) : List Instr := calls.flatMap (callBlocks pay)

/-- A call inside the payload with parameters in range. -/
def CallLegal (pay : List Byte) : EmitCall → Prop
  | .litRun _ b => b ≤ pay.length
  | .matchAt len dist _ => 3 ≤ len ∧ len ≤ 264 ∧ 1 ≤ dist ∧ dist ≤ 8192

/-- A run inside the payload emits its pieces. -/
theorem emitLitRun_eq {pay : List Byte} {a b : Nat} (inside : b ≤ pay.length) (n : Nat) :
    emitLitRun pay n a b = (streamOf (litBlocks pay n a b), none) := by
  induction n generalizing a with
  | zero => rfl
  | succ n ih =>
    by_cases more : a < b
    · rw [emitLitRun, litBlocks, if_pos more, if_pos more, Config.litMax,
        emitLitPiece_ok (by omega) (by omega) (by omega), ih, streamOf_cons, encode, length_piece (by omega)]
    · rw [emitLitRun, litBlocks, if_neg more, if_neg more, streamOf_nil]

/-- A legal call emits its blocks. -/
theorem emitCall_eq {pay : List Byte} {c : EmitCall} (legal : CallLegal pay c) :
    emitCall pay c = (streamOf (callBlocks pay c), none) := by
  cases c with
  | litRun a b => exact emitLitRun_eq legal (b - a)
  | matchAt len dist p =>
    obtain ⟨len3, len264, d1, d⟩ := legal
    obtain ⟨_, _, _, _, emitted⟩ | ⟨bad, _⟩ | ⟨_, _, bad, _⟩ := emitMatch_cases len dist p
    · simp [emitCall, emitted, callBlocks]
    · exact absurd ⟨d1, d⟩ bad
    · exact absurd ⟨len3, len264⟩ bad

/-- Legal calls emit their blocks in order, and raise nothing (42_block_emitter.md R155). -/
theorem emitCalls_eq {pay : List Byte} {calls : List EmitCall} (legal : ∀ c ∈ calls, CallLegal pay c) :
    emitCalls pay calls = (streamOf (callsBlocks pay calls), none) := by
  induction calls with
  | nil => rfl
  | cons c calls ih =>
    obtain ⟨first, others⟩ := List.forall_mem_cons.1 legal
    simp only [emitCalls, emitCall_eq first, ih others, callsBlocks, List.flatMap_cons, streamOf_append]

section run

variable {pay : List Byte} {n a b : Nat}

/-- The pieces of a run stand for it. -/
theorem spanOf_litBlocks (fuel : b - a ≤ n) (order : a ≤ b) (inside : b ≤ pay.length) :
    spanOf (litBlocks pay n a b) = b - a := by
  induction n generalizing a with
  | zero =>
    have : b - a = 0 := by omega
    rw [this]
    rfl
  | succ n ih =>
    by_cases more : a < b
    · rw [litBlocks, if_pos more, spanOf_cons, blockLength, length_piece (by omega), ih (by omega) (by omega)]
      omega
    · rw [litBlocks, if_neg more, spanOf_nil]
      omega

/-- A piece of a run: a literal of at most 32 bytes inside it. -/
theorem mem_placed_litBlocks {x : Nat × Instr} (inside : b ≤ pay.length) (there : x ∈ placed a (litBlocks pay n a b)) :
    ∃ k, 1 ≤ k ∧ k ≤ 32 ∧ a ≤ x.1 ∧ x.1 + k ≤ b ∧ x.2 = .lit ((pay.drop x.1).take k) := by
  induction n generalizing a with
  | zero => cases there
  | succ n ih =>
    by_cases more : a < b
    · rw [litBlocks, if_pos more, placed, blockLength, length_piece (by omega)] at there
      rcases List.mem_cons.1 there with rfl | there
      · exact ⟨min 32 (b - a), by omega, by omega, Nat.le_refl _, by dsimp only; omega, rfl⟩
      · obtain ⟨k, one, short, after, before, piece⟩ := ih there
        exact ⟨k, one, short, by omega, before, piece⟩
    · rw [litBlocks, if_neg more] at there
      cases there

/-- A short run that is not empty is one piece. -/
theorem litBlocks_of_short (more : a < b) (short : b - a ≤ 32) (fuel : b - a ≤ n) :
    litBlocks pay n a b = [.lit ((pay.drop a).take (b - a))] := by
  obtain ⟨m, rfl⟩ : ∃ m, n = m + 1 := ⟨n - 1, by omega⟩
  have rest : litBlocks pay m (a + (b - a)) b = [] := by
    cases m with
    | zero => rfl
    | succ m => exact if_neg (by omega)
  rw [litBlocks, if_pos more, show min 32 (b - a) = b - a by omega, rest]

/-- Of two pieces in a row the first has 32 bytes. -/
theorem isChain_litBlocks (inside : b ≤ pay.length) :
    (litBlocks pay n a b).IsChain fun x _ => blockLength x = 32 := by
  induction n generalizing a with
  | zero => exact List.IsChain.nil
  | succ n ih =>
    by_cases more : a < b
    · rw [litBlocks, if_pos more]
      by_cases last : b - a ≤ 32
      · have rest : litBlocks pay n (a + min 32 (b - a)) b = [] := by
          cases n with
          | zero => rfl
          | succ n => exact if_neg (by omega)
        rw [rest]
        exact List.IsChain.singleton _
      · refine List.isChain_cons.2 ⟨fun _ _ => ?_, ih⟩
        rw [blockLength, length_piece (by omega)]
        omega
    · rw [litBlocks, if_neg more]
      exact List.IsChain.nil

end run

end Sys2Proof.Proofs
end

section
/-!
PROOF. The greedy parse of levels 1 and 2 as a function of the candidates of its search (45_greedy_compress.md R207 to R209).
-/

namespace Sys2Proof.Proofs

open Sys2Proof.Machine Sys2Proof.Safety

/-! ## The loop over candidates -/

/-- The calls of `GREEDY` from a cursor and the start of the pending run, the candidate of every position given; the first
number bounds the iterations. -/
def greedyCalls (candidate : Nat → Nat × Nat) (n : Nat) : Nat → Nat → Nat → List EmitCall
  | 0, pos, bstart => [.litRun bstart pos]
  | fuel + 1, pos, bstart =>
    if pos < n then
      if (candidate pos).2 ≠ 0 ∧ 3 ≤ (candidate pos).1 then
        .litRun bstart pos :: .matchAt (candidate pos).1 (candidate pos).2 pos
          :: greedyCalls candidate n fuel (pos + (candidate pos).1) (pos + (candidate pos).1)
      else greedyCalls candidate n fuel (pos + 1) bstart
    else [.litRun bstart pos]

/-- A search leaves the candidate of the cursor's position, in every state that meets a condition, and the condition still
holds when the cursor has advanced. -/
structure Searches (search : Work → Work) (n : Nat) (holds : Work → Prop) (candidate : Nat → Nat × Nat) : Prop where
  finds : ∀ w, holds w → w.pos < n → ((search w).clen, (search w).cdist) = candidate w.pos
  pos : ∀ w, (search w).pos = w.pos
  bstart : ∀ w, (search w).bstart = w.bstart
  keeps : ∀ w p b, holds w → w.pos < n → w.pos < p → holds { search w with pos := p, bstart := b }

/-- The loop of `GREEDY` makes the calls that the candidates say. -/
theorem greedyLoop_eq {search : Work → Work} {n : Nat} {holds : Work → Prop} {candidate : Nat → Nat × Nat}
    (searches : Searches search n holds candidate) (fuel : Nat) {w : Work} (start : holds w) :
    greedyLoop search n fuel w = greedyCalls candidate n fuel w.pos w.bstart := by
  induction fuel generalizing w with
  | zero => rfl
  | succ fuel ih =>
    by_cases more : w.pos < n
    · have len : (candidate w.pos).1 = (search w).clen := congrArg Prod.fst (searches.finds w start more).symm
      have dist : (candidate w.pos).2 = (search w).cdist := congrArg Prod.snd (searches.finds w start more).symm
      rw [greedyLoop, greedyCalls, if_pos more, if_pos more, len, dist]
      by_cases good : (search w).cdist ≠ 0 ∧ 3 ≤ (search w).clen
      · have later : w.pos < (search w).pos + (search w).clen := by rw [searches.pos]; omega
        have next := ih (searches.keeps w _ ((search w).pos + (search w).clen) start more later)
        simp only [Config.lenMin, if_pos good, searches.pos, searches.bstart] at next ⊢
        rw [next]
      · have later : w.pos < (search w).pos + 1 := by rw [searches.pos]; omega
        have next := ih (searches.keeps w _ (search w).bstart start more later)
        simp only [Config.lenMin, if_neg good, searches.pos, searches.bstart] at next ⊢
        rw [next]
    · rw [greedyLoop, greedyCalls, if_neg more, if_neg more]

/-- `FIRST_MATCH` looks at the cursor only. -/
theorem searches_firstMatch (pay : List Byte) :
    Searches (firstMatch pay) pay.length (fun _ => True) (nearestCandidate pay) :=
  ⟨fun _ _ _ => rfl, firstMatch_pos pay, firstMatch_bstart pay, fun _ _ _ _ _ _ => trivial⟩

/-- `BEST_MATCH` leaves the candidate of the position while the index has not passed the cursor. -/
theorem searches_bestMatch (pay : List Byte) :
    Searches (bestMatch pay) pay.length (fun w => IndexInv pay w ∧ w.next ≤ w.pos + 1) (indexCandidate pay) := by
  refine ⟨fun w h inside => bestMatch_eq_indexCandidate h.1 h.2 inside, bestMatch_pos pay, bestMatch_bstart pay,
    fun w p b h inside later => ⟨?_, ?_⟩⟩
  · exact indexInv_congr rfl rfl rfl (indexInv_bestMatch h.1 h.2 inside)
  · have next := bestMatch_next pay w
    have behind := h.2
    show (bestMatch pay w).next ≤ p + 1
    omega

/-- Level 1 by its candidates. -/
theorem parseL1_eq (pay : List Byte) (w : Work) :
    parseL1 pay w = greedyCalls (nearestCandidate pay) pay.length pay.length 0 0 :=
  greedyLoop_eq (searches_firstMatch pay) pay.length trivial

/-- Level 2 by its candidates. -/
theorem parseL2_eq (pay : List Byte) (w : Work) :
    parseL2 pay w = greedyCalls (indexCandidate pay) pay.length pay.length 0 0 :=
  greedyLoop_eq (searches_bestMatch pay) pay.length
    (w := { sufInit w with pos := 0, bstart := 0 }) ⟨indexCongr_sufInit pay w, Nat.zero_le _⟩
where
  indexCongr_sufInit (pay : List Byte) (w : Work) : IndexInv pay { sufInit w with pos := 0, bstart := 0 } :=
    indexInv_congr rfl rfl rfl (indexInv_sufInit pay w)

/-! ## What a greedy parse is -/

/-- No position of a range has a candidate of length 3 or more. -/
def Quiet (candidate : Nat → Nat × Nat) (a b : Nat) : Prop := ∀ q, a ≤ q → q < b → (candidate q).1 < 3

/-- The blocks of a greedy parse from the start of a pending run: literal runs where no candidate is long enough, and
between them the candidates. -/
inductive GreedyBlocks (pay : List Byte) (candidate : Nat → Nat × Nat) : Nat → List Instr → Prop where
  | last {a : Nat} (order : a ≤ pay.length) (quiet : Quiet candidate a pay.length) :
      GreedyBlocks pay candidate a (litBlocks pay (pay.length - a) a pay.length)
  | more {a p len dist : Nat} {rest : List Instr} (order : a ≤ p) (quiet : Quiet candidate a p)
      (found : candidate p = (len, dist)) (fits : MatchFits pay p len dist)
      (next : GreedyBlocks pay candidate (p + len) rest) :
      GreedyBlocks pay candidate a (litBlocks pay (p - a) a p ++ matchRecord len dist :: rest)

/-- A sound candidate that is long enough is a match that the payload holds. -/
theorem SoundCandidate.matchFits {pay : List Byte} {p len dist : Nat} (sound : SoundCandidate pay p len dist)
    (inside : p < pay.length) (found : dist ≠ 0) (long : 3 ≤ len) : MatchFits pay p len dist := by
  obtain ⟨one, inRange, short, fits, agree, _⟩ := sound.guarantee inside found
  exact ⟨long, short, one, inRange, fits, agree⟩

/-- A sound candidate without a distance has no length. -/
theorem SoundCandidate.short {pay : List Byte} {p len dist : Nat} (sound : SoundCandidate pay p len dist)
    (notTaken : ¬ (dist ≠ 0 ∧ 3 ≤ len)) : len < 3 := by
  obtain ⟨none, _⟩ | ⟨one, _, _⟩ := sound
  · omega
  · exact Nat.not_le.1 fun long => notTaken ⟨by omega, long⟩

section loop

variable {pay : List Byte} {candidate : Nat → Nat × Nat}

/-- The blocks of the calls of the loop are a greedy parse, and the calls are legal. -/
theorem greedyBlocks_greedyCalls (sound : ∀ p, SoundCandidate pay p (candidate p).1 (candidate p).2) {fuel pos bstart : Nat}
    (enough : pay.length - pos ≤ fuel) (order : bstart ≤ pos) (inside : pos ≤ pay.length) (quiet : Quiet candidate bstart pos) :
    GreedyBlocks pay candidate bstart (callsBlocks pay (greedyCalls candidate pay.length fuel pos bstart))
      ∧ ∀ c ∈ greedyCalls candidate pay.length fuel pos bstart, CallLegal pay c := by
  have atEnd : pos = pay.length → GreedyBlocks pay candidate bstart (callsBlocks pay [.litRun bstart pos])
      ∧ ∀ c ∈ [EmitCall.litRun bstart pos], CallLegal pay c := by
    rintro rfl
    rw [callsBlocks, List.flatMap_singleton]
    exact ⟨.last order quiet, by simp [CallLegal]⟩
  induction fuel generalizing pos bstart with
  | zero => exact atEnd (by omega)
  | succ fuel ih =>
    rw [greedyCalls]
    split_ifs with more taken
    · have fits := (sound pos).matchFits more taken.1 taken.2
      have inside' := fits.inside
      have empty : Quiet candidate (pos + (candidate pos).1) (pos + (candidate pos).1) := fun q _ _ => by omega
      obtain ⟨next, legal⟩ := ih (by omega) (Nat.le_refl _) inside' empty fun same => by
        rw [callsBlocks, List.flatMap_singleton]
        exact ⟨same ▸ .last (Nat.le_refl _) fun q _ _ => by omega, by simpa [CallLegal] using inside'⟩
      refine ⟨.more order quiet rfl fits next, List.forall_mem_cons.2 ⟨inside, List.forall_mem_cons.2 ⟨?_, legal⟩⟩⟩
      exact ⟨fits.len_low, fits.len_high, fits.dist_low, (le_min_iff.1 fits.dist_high).2⟩
    · have longer : Quiet candidate bstart (pos + 1) := fun q from_ below => by
        by_cases here : q = pos
        · exact here ▸ (sound pos).short taken
        · exact quiet q from_ (by omega)
      exact ih (by omega) (by omega) (by omega) longer fun same => by
        rw [callsBlocks, List.flatMap_singleton, same]
        exact ⟨.last (by omega) (same ▸ longer), by simp [CallLegal]⟩
    · exact atEnd (by omega)

/-! ## What a greedy parse guarantees -/

variable {a : Nat} {blocks : List Instr}

/-- A greedy parse stands for the rest of the payload. -/
theorem GreedyBlocks.span (parse : GreedyBlocks pay candidate a blocks) : a + spanOf blocks = pay.length := by
  induction parse with
  | last order _ =>
    rw [spanOf_litBlocks (Nat.le_refl _) order (Nat.le_refl _)]
    omega
  | more order _ _ fits _ ih =>
    have dist := (le_min_iff.1 fits.dist_high).2
    have len := (matchRecord_spec fits.len_low fits.len_high fits.dist_low dist).2.2.1
    have inside := fits.inside
    rw [spanOf_append, spanOf_litBlocks (Nat.le_refl _) order (by omega), spanOf_cons, len]
    omega

/-- A block takes the candidate of its place: a match is the candidate, and a literal covers positions that have none. -/
def TakesCandidate (candidate : Nat → Nat × Nat) (x : Nat × Instr) : Prop :=
  (∀ d, blockDistance x.2 = some d → candidate x.1 = (blockLength x.2, d))
    ∧ (blockDistance x.2 = none → ∀ k, k < blockLength x.2 → (candidate (x.1 + k)).1 < 3)

/-- A list of blocks takes the candidates when each of its blocks does. -/
theorem takesCandidates_of_each (each : ∀ x ∈ placed 0 blocks, TakesCandidate candidate x) :
    TakesCandidates candidate blocks := by
  intro x there
  obtain ⟨matched, literal⟩ := each x there
  cases dist : blockDistance x.2 with
  | some d => exact matched d dist
  | none => exact literal dist

/-- A piece of a quiet run stands for its bytes, and takes the candidates. -/
theorem piece_fits {b n : Nat} (inside : b ≤ pay.length) (quiet : Quiet candidate a b) :
    ∀ x ∈ placed a (litBlocks pay n a b), BlockFits pay x.1 x.2 ∧ TakesCandidate candidate x := by
  rintro ⟨p, i⟩ there
  obtain ⟨k, one, short, after, before, piece⟩ := mem_placed_litBlocks inside there
  dsimp only at after before piece
  subst piece
  refine ⟨.literal one short (by omega), fun d matched => ?_, fun _ j below => ?_⟩
  · cases matched
  · have below : j < ((pay.drop p).take k).length := below
    rw [length_piece (by omega)] at below
    exact quiet (p + j) (by omega) (by omega)

/-- Each block of a greedy parse stands for its bytes, and takes the candidate of its place. -/
theorem GreedyBlocks.fits (parse : GreedyBlocks pay candidate a blocks) :
    ∀ x ∈ placed a blocks, BlockFits pay x.1 x.2 ∧ TakesCandidate candidate x := by
  induction parse with
  | last _ quiet => exact piece_fits (Nat.le_refl _) quiet
  | @more a p len dist rest order quiet found fits _ ih =>
    obtain ⟨_, _, length, distance, _⟩ :=
      matchRecord_spec fits.len_low fits.len_high fits.dist_low (le_min_iff.1 fits.dist_high).2
    have inside := fits.inside
    rw [placed_append, spanOf_litBlocks (Nat.le_refl _) order (by omega), show a + (p - a) = p by omega, placed, length]
    refine List.forall_mem_append.2 ⟨piece_fits (by omega) quiet, List.forall_mem_cons.2 ⟨⟨.matched fits, ?_, ?_⟩, ih⟩⟩
    · intro d matched
      cases distance.symm.trans matched
      rw [found, length]
    · intro literal
      cases distance.symm.trans literal

/-- In a greedy parse a literal block stands right before another only when it has 32 bytes. -/
theorem GreedyBlocks.isChain (parse : GreedyBlocks pay candidate a blocks) :
    blocks.IsChain fun x y => blockDistance x = none → blockDistance y = none → blockLength x = 32 := by
  induction parse with
  | last => exact (isChain_litBlocks (Nat.le_refl _)).imp fun _ _ full _ _ => full
  | @more a p len dist rest _ _ _ fits _ ih =>
    have inside := fits.inside
    have distance := (matchRecord_spec fits.len_low fits.len_high fits.dist_low (le_min_iff.1 fits.dist_high).2).2.2.2.1
    have isMatch : blockDistance (matchRecord len dist) ≠ none := by simp [distance]
    have pieces : (litBlocks pay (p - a) a p).IsChain fun x _ => blockLength x = 32 := isChain_litBlocks (by omega)
    refine List.isChain_append.2 ⟨pieces.imp fun _ _ full _ _ => full, List.isChain_cons.2
      ⟨fun y _ literal => absurd literal isMatch, ih⟩, fun x _ y first _ literal => ?_⟩
    obtain rfl : matchRecord len dist = y := by simpa using first
    exact absurd literal isMatch

/-- The bytes of a run: its own and a header for each 32 begun. -/
theorem length_streamOf_litBlocks {b : Nat} (order : a ≤ b) (inside : b ≤ pay.length) :
    (streamOf (litBlocks pay (b - a) a b)).length = (b - a) + (b - a + 31) / 32 := by
  have emitted := emitLitRun_eq (a := a) inside (b - a)
  rw [← (emitLitRun_ok (Nat.le_refl _) order inside).2, emitted]

/-- A greedy parse is at most as long as one literal run: a match saves what the header of the run before it costs
(45_greedy_compress.md R219). -/
theorem GreedyBlocks.length_le (parse : GreedyBlocks pay candidate a blocks) :
    (streamOf blocks).length ≤ (pay.length - a) + (pay.length - a + 31) / 32 := by
  induction parse with
  | last order _ => exact (length_streamOf_litBlocks order (Nat.le_refl _)).le
  | @more a p len dist rest order _ _ fits _ ih =>
    have inside := fits.inside
    have len3 := fits.len_low
    have cost : matchCost len < len := by
      rw [matchCost]
      split_ifs <;> omega
    rw [streamOf_append, streamOf_cons, List.length_append, List.length_append,
      length_streamOf_litBlocks order (by omega), encode_matchRecord_length len dist len3]
    omega

end loop

/-- Of two literal blocks in a row the first has 32 bytes. -/
theorem piecesFull_of_isChain {blocks : List Instr}
    (chain : blocks.IsChain fun x y => blockDistance x = none → blockDistance y = none → blockLength x = 32) :
    PiecesFull blocks := by
  intro i b c first second
  obtain ⟨_, rfl⟩ := List.getElem?_eq_some_iff.1 first
  obtain ⟨inside, rfl⟩ := List.getElem?_eq_some_iff.1 second
  exact List.isChain_iff_getElem.1 chain i inside

/-! ## Levels 1 and 2 -/

/-- The blocks of a greedy level. -/
def greedyBlocks (pay : List Byte) (candidate : Nat → Nat × Nat) : List Instr :=
  callsBlocks pay (greedyCalls candidate pay.length pay.length 0 0)

section level

variable {pay : List Byte} {candidate : Nat → Nat × Nat}
  (sound : ∀ p, SoundCandidate pay p (candidate p).1 (candidate p).2)

include sound

/-- They are a greedy parse of the whole payload. -/
theorem greedyBlocks_spec : GreedyBlocks pay candidate 0 (greedyBlocks pay candidate) :=
  (greedyBlocks_greedyCalls sound (Nat.sub_le _ _) (Nat.le_refl _) (Nat.zero_le _) fun _ _ h => absurd h (Nat.not_lt_zero _)).1

/-- They are what the calls emit. -/
theorem emitCalls_greedyCalls :
    emitCalls pay (greedyCalls candidate pay.length pay.length 0 0) = (streamOf (greedyBlocks pay candidate), none) :=
  emitCalls_eq (greedyBlocks_greedyCalls sound (Nat.sub_le _ _) (Nat.le_refl _) (Nat.zero_le _)
    fun _ _ h => absurd h (Nat.not_lt_zero _)).2

/-- They parse the payload. -/
theorem isParse_greedyBlocks : IsParse pay (greedyBlocks pay candidate) := by
  have parse := greedyBlocks_spec sound
  exact ⟨fun x there => (parse.fits x there).1, by rw [← parse.span, Nat.zero_add]⟩

/-- They take the candidates. -/
theorem takesCandidates_greedyBlocks : TakesCandidates candidate (greedyBlocks pay candidate) :=
  takesCandidates_of_each fun x there => ((greedyBlocks_spec sound).fits x there).2

end level

end Sys2Proof.Proofs
end

section
/-!
PROOF. The forward pass of the OptimalParser: every position is reached at least cost, by the first of the edges that attain it
(46_optimal_parser.md R226 to R228).
-/

namespace Sys2Proof.Proofs

open Sys2Proof.Machine Sys2Proof.Safety

/-! ## `RELAX` -/

/-- An offer that is not cheaper than the record that is there changes nothing. -/
theorem relax_of_not_cheaper {v : Work} {e : Edge} {here there : DpRec} (source : v.dpAt v.pos = some here)
    (target : v.dpAt (v.pos + e.len) = some there) (dear : there.cost ≤ here.cost + e.cost) : relax v e = v := by
  simp only [relax, source, target, if_neg (Nat.not_lt.2 dear)]

/-- An offer to an empty or a strictly dearer record takes its place, and every other record stays. -/
theorem relax_dpAt_of_cheaper {v : Work} {e : Edge} {here : DpRec} (source : v.dpAt v.pos = some here)
    (inside : v.pos + e.len < v.dp.length)
    (cheaper : ∀ there, v.dpAt (v.pos + e.len) = some there → here.cost + e.cost < there.cost) (q : Nat) :
    (relax v e).dpAt q =
      if q = v.pos + e.len then some { cost := here.cost + e.cost, len := e.len, dist := e.dist } else v.dpAt q := by
  rw [relax_dpAt, source]
  by_cases target : q = v.pos + e.len
  · subst target
    exact (if_pos ⟨rfl, inside, cheaper⟩).trans (if_pos rfl).symm
  · exact (if_neg fun h => target h.1.symm).trans (if_neg target).symm

/-- `RELAX` at a list of edges writes the table only. -/
theorem foldl_relax_eq (edges : List Edge) (w : Work) :
    edges.foldl relax w = { w with dp := (edges.foldl relax w).dp } := by
  induction edges generalizing w with
  | nil => rfl
  | cons e edges ih =>
    rw [List.foldl_cons, ih, relax_eq]

/-- It keeps the number of records. -/
theorem foldl_relax_dp_length (edges : List Edge) (w : Work) : (edges.foldl relax w).dp.length = w.dp.length := by
  induction edges generalizing w with
  | nil => rfl
  | cons e edges ih => rw [List.foldl_cons, ih, relax_dp_length]

/-- `RELAX` looks at the cursor and the table only. -/
theorem foldl_relax_dp_congr (edges : List Edge) {w u : Work} (pos : w.pos = u.pos) (dp : w.dp = u.dp) :
    (edges.foldl relax w).dp = (edges.foldl relax u).dp := by
  induction edges generalizing w u with
  | nil => exact dp
  | cons e edges ih =>
    rw [List.foldl_cons, List.foldl_cons]
    refine ih (by simpa using pos) ?_
    simp only [relax, Work.dpAt, pos, dp]
    split
    · exact dp
    · split
      · rfl
      · split
        · rfl
        · exact dp

/-! ## Tables -/

/-- A table after some offers: every position other than 0 is empty where no offer leads, and else holds the first of the
cheapest offers to it. An offer is an edge with the position it leaves. -/
structure TableOf (offers : Nat → Edge → Prop) (table : Nat → Option DpRec) : Prop where
  start : table 0 = some { cost := 0, len := 0, dist := 0 }
  sources : ∀ s e, offers s e → ∃ prev, table s = some prev
  empty : ∀ q, q ≠ 0 → table q = none → ∀ s e, offers s e → s + e.len ≠ q
  best : ∀ q r, q ≠ 0 → table q = some r →
    ∃ s e prev, offers s e ∧ s + e.len = q ∧ e.len = r.len ∧ e.dist = r.dist ∧ table s = some prev
      ∧ r.cost = prev.cost + e.cost
      ∧ ∀ s' e' other, offers s' e' → s' + e'.len = q → table s' = some other →
          r.cost ≤ other.cost + e'.cost ∧ (r.cost = other.cost + e'.cost → s ≤ s')

/-- The same offers in other words. -/
theorem TableOf.congr {offers offers' : Nat → Edge → Prop} {table : Nat → Option DpRec} (of : TableOf offers table)
    (same : ∀ s e, offers s e ↔ offers' s e) : TableOf offers' table := by
  obtain rfl : offers = offers' := funext fun s => funext fun e => propext (same s e)
  exact of

/-- One more offer, from a position that none of the offers before lies above: `RELAX` takes it when it is the first or
strictly cheaper. -/
theorem TableOf.relax {offers : Nat → Edge → Prop} {w : Work} {e : Edge} {here : DpRec} (of : TableOf offers w.dpAt)
    (behind : ∀ s f, offers s f → s ≤ w.pos) (source : w.dpAt w.pos = some here) (one : 1 ≤ e.len)
    (inside : w.pos + e.len < w.dp.length) :
    TableOf (fun s f => offers s f ∨ (s = w.pos ∧ f = e)) (relax w e).dpAt ∧ (Machine.relax w e).dpAt w.pos = some here := by
  have fromBehind : ∀ s f, (offers s f ∨ (s = w.pos ∧ f = e)) → s ≤ w.pos := by
    rintro s f (old | ⟨rfl, rfl⟩)
    · exact behind s f old
    · exact Nat.le_refl _
  have sources : ∀ s f, (offers s f ∨ (s = w.pos ∧ f = e)) → ∃ prev, w.dpAt s = some prev := by
    rintro s f (old | ⟨rfl, rfl⟩)
    · exact of.sources s f old
    · exact ⟨here, source⟩
  by_cases cheaper : ∀ there, w.dpAt (w.pos + e.len) = some there → here.cost + e.cost < there.cost
  · have after := relax_dpAt_of_cheaper source inside cheaper
    have unchanged : ∀ s, s ≤ w.pos → (Machine.relax w e).dpAt s = w.dpAt s := fun s low => by
      rw [after, if_neg (by omega)]
    refine ⟨⟨?start, fun s f h => ?sources, fun q nonzero none s f h => ?empty, fun q r nonzero some => ?best⟩,
      (unchanged _ (Nat.le_refl _)).trans source⟩
    case start => rw [unchanged 0 (Nat.zero_le _), of.start]
    case sources =>
      rw [unchanged s (fromBehind s f h)]
      exact sources s f h
    case empty =>
      rw [after] at none
      split_ifs at none with target
      rcases h with old | ⟨rfl, rfl⟩
      · exact of.empty q nonzero none s f old
      · exact fun there => target there.symm
    case best =>
      rw [after] at some
      split_ifs at some with target
      · cases some
        refine ⟨w.pos, e, here, .inr ⟨rfl, rfl⟩, target.symm, rfl, rfl, (unchanged _ (Nat.le_refl _)).trans source, rfl, ?_⟩
        rintro s' f other (old | ⟨rfl, rfl⟩) leads known
        · rw [unchanged s' (behind s' f old)] at known
          cases there : w.dpAt q with
          | none => exact absurd leads (of.empty q nonzero there s' f old)
          | some r =>
            obtain ⟨_, _, _, _, _, _, _, _, _, least⟩ := of.best q r nonzero there
            have := (least s' f other old leads known).1
            have := cheaper r (target ▸ there)
            exact ⟨by dsimp only; omega, fun same => by dsimp only at same; omega⟩
        · rw [unchanged w.pos (Nat.le_refl _), source] at known
          cases known
          exact ⟨Nat.le_refl _, fun _ => Nat.le_refl _⟩
      · obtain ⟨s, f, prev, old, leads, len, dist, known, cost, least⟩ := of.best q r nonzero some
        refine ⟨s, f, prev, .inl old, leads, len, dist, (unchanged s (behind s f old)).trans known, cost, ?_⟩
        rintro s' f' other (old' | ⟨rfl, rfl⟩) leads' known'
        · rw [unchanged s' (behind s' f' old')] at known'
          exact least s' f' other old' leads' known'
        · exact absurd leads'.symm target
  · simp only [not_forall, Nat.not_lt] at cheaper
    obtain ⟨there, target, dear⟩ := cheaper
    rw [relax_of_not_cheaper source target dear]
    refine ⟨⟨of.start, sources, fun q nonzero none s f h => ?_, fun q r nonzero some => ?_⟩, source⟩
    · rcases h with old | ⟨rfl, rfl⟩
      · exact of.empty q nonzero none s f old
      · rintro rfl
        rw [target] at none
        cases none
    · obtain ⟨s, f, prev, old, leads, len, dist, known, cost, least⟩ := of.best q r nonzero some
      refine ⟨s, f, prev, .inl old, leads, len, dist, known, cost, ?_⟩
      rintro s' f' other (old' | ⟨rfl, rfl⟩) leads' known'
      · exact least s' f' other old' leads' known'
      · subst leads'
        rw [source] at known'
        rw [target] at some
        cases known'
        cases some
        exact ⟨dear, fun _ => behind s f old⟩

/-- All the offers of a position, one after the other. -/
theorem TableOf.foldl_relax {edges : List Edge} {offers : Nat → Edge → Prop} {w : Work} {here : DpRec}
    (of : TableOf offers w.dpAt) (behind : ∀ s f, offers s f → s ≤ w.pos) (source : w.dpAt w.pos = some here)
    (edge : ∀ e ∈ edges, 1 ≤ e.len ∧ w.pos + e.len < w.dp.length) :
    TableOf (fun s f => offers s f ∨ (s = w.pos ∧ f ∈ edges)) (edges.foldl Machine.relax w).dpAt := by
  induction edges generalizing offers w with
  | nil => exact of.congr fun s f => by simp
  | cons e edges ih =>
    obtain ⟨⟨one, inside⟩, others⟩ := List.forall_mem_cons.1 edge
    obtain ⟨next, stays⟩ := of.relax behind source one inside
    have all := ih (w := Machine.relax w e) next (by
      rw [relax_pos]
      rintro s f (old | ⟨rfl, _⟩)
      · exact behind s f old
      · exact Nat.le_refl _) (by rwa [relax_pos]) (by simpa using others)
    rw [relax_pos] at all
    exact all.congr fun s f => by rw [List.mem_cons]; tauto

/-! ## The offers of a position -/

/-- The edges of the graph are inside the payload. -/
theorem IsEdge_inside {pay : List Byte} {q : Nat} {e : Edge} (edge : IsEdge pay q e) :
    1 ≤ e.len ∧ e.len ≤ 264 ∧ e.dist ≤ 8192 ∧ q + e.len ≤ pay.length := by
  obtain ⟨inside, ⟨_, one, short, _⟩ | ⟨matched, dist, three, short, _⟩⟩ := edge
  · omega
  · obtain ⟨_, inRange, limit, fits, _⟩ := (soundCandidate_indexCandidate pay q).guarantee inside (dist ▸ matched)
    omega

/-- The edges offered at a cursor with the candidate of its position are the edges of the graph that leave it. -/
theorem mem_edgesAt_iff {pay : List Byte} {v : Work} (inside : v.pos < pay.length)
    (candidate : (v.clen, v.cdist) = indexCandidate pay v.pos) (e : Edge) :
    e ∈ edgesAt pay.length v ↔ IsEdge pay v.pos e := by
  rw [mem_edgesAt, IsEdge, ← candidate]
  simp only [literalCost, matchCost]
  constructor
  · rintro (⟨matched, three, short, cost, dist⟩ | ⟨one, short, fits, cost, dist⟩)
    · exact ⟨inside, .inr ⟨dist ▸ matched, dist, three, short, cost⟩⟩
    · exact ⟨inside, .inl ⟨dist, one, le_min short fits, cost⟩⟩
  · rintro ⟨_, ⟨dist, one, short, cost⟩ | ⟨matched, dist, three, short, cost⟩⟩
    · exact .inr ⟨one, (le_min_iff.1 short).1, (le_min_iff.1 short).2, cost, dist⟩
    · exact .inl ⟨dist ▸ matched, three, short, cost, dist⟩

/-! ## The forward pass -/

/-- The forward pass over the positions below a bound. -/
def forwardTo (pay : List Byte) (w : Work) (p : Nat) : Work :=
  (List.range p).foldl (forwardAt pay)
    { w with dp := some { cost := 0, len := 0, dist := 0 } :: List.replicate pay.length none }

/-- The forward pass covers the payload. -/
theorem dpForward_eq_forwardTo (pay : List Byte) (w : Work) : dpForward pay w = forwardTo pay w pay.length := rfl

/-- It goes position by position. -/
theorem forwardTo_succ (pay : List Byte) (w : Work) (p : Nat) :
    forwardTo pay w (p + 1) = forwardAt pay (forwardTo pay w p) p := by
  rw [forwardTo, forwardTo, List.range_succ, List.foldl_append]
  rfl

/-- What holds before each position of the forward pass: the index has not passed it. -/
def ReadyAt (pay : List Byte) (w : Work) (p : Nat) : Prop := IndexInv pay w ∧ w.next ≤ p

section forward

variable {pay : List Byte} {w : Work} {p : Nat}

/-- The search at a position leaves its candidate. -/
theorem ReadyAt.candidate (ready : ReadyAt pay w p) (inside : p < pay.length) :
    ((bestMatch pay { w with pos := p }).clen, (bestMatch pay { w with pos := p }).cdist) = indexCandidate pay p :=
  bestMatch_eq_indexCandidate (w := { w with pos := p }) (indexInv_congr rfl rfl rfl ready.1)
    (Nat.le_succ_of_le ready.2) inside

/-- One position of the forward pass, and the next is ready. -/
theorem ReadyAt.forwardAt (ready : ReadyAt pay w p) (inside : p < pay.length) : ReadyAt pay (forwardAt pay w p) (p + 1) := by
  have searched := indexInv_bestMatch (w := { w with pos := p }) (indexInv_congr rfl rfl rfl ready.1)
    (Nat.le_succ_of_le ready.2) inside
  have next : (bestMatch pay { w with pos := p }).next = w.next + (p + 1 - w.next) := bestMatch_next pay _
  have behind := ready.2
  rw [Machine.forwardAt, foldl_relax_eq]
  refine ⟨indexInv_congr rfl rfl rfl searched, ?_⟩
  show (bestMatch pay { w with pos := p }).next ≤ p + 1
  omega

/-- The forward pass keeps the number of records. -/
theorem forwardAt_dp_length : (forwardAt pay w p).dp.length = w.dp.length := by
  rw [forwardAt, foldl_relax_dp_length, bestMatch_dp]

/-- From the same table a position of the forward pass leaves the same table: the candidate is the position's. -/
theorem forwardAt_dp_congr {u : Work} (readyW : ReadyAt pay w p) (readyU : ReadyAt pay u p) (inside : p < pay.length)
    (dp : w.dp = u.dp) : (forwardAt pay w p).dp = (forwardAt pay u p).dp := by
  have same := (readyW.candidate inside).trans (readyU.candidate inside).symm
  have edges : edgesAt pay.length (bestMatch pay { w with pos := p }) = edgesAt pay.length (bestMatch pay { u with pos := p }) := by
    obtain ⟨len, dist⟩ := Prod.ext_iff.1 same
    simp only [edgesAt, bestMatch_pos]
    rw [show (bestMatch pay { w with pos := p }).clen = _ from len, show (bestMatch pay { w with pos := p }).cdist = _ from dist]
  rw [forwardAt, forwardAt, edges]
  exact foldl_relax_dp_congr _ (by rw [bestMatch_pos, bestMatch_pos]) (by rw [bestMatch_dp, bestMatch_dp]; exact dp)

/-- Before each position the index has not passed it. -/
theorem readyAt_forwardTo (w : Work) (inside : p ≤ pay.length) : ReadyAt pay (forwardTo pay (sufInit w) p) p := by
  induction p with
  | zero => exact ⟨indexInv_congr (w := sufInit w) rfl rfl rfl (indexInv_sufInit pay w), Nat.le_refl 0⟩
  | succ p ih =>
    rw [forwardTo_succ]
    exact (ih (Nat.le_of_succ_le inside)).forwardAt inside

/-- The table does not depend on what an earlier command left. -/
theorem forwardTo_dp_congr (w u : Work) (inside : p ≤ pay.length) :
    (forwardTo pay (sufInit w) p).dp = (forwardTo pay (sufInit u) p).dp := by
  induction p with
  | zero => rfl
  | succ p ih =>
    have below := Nat.le_of_succ_le inside
    rw [forwardTo_succ, forwardTo_succ]
    exact forwardAt_dp_congr (readyAt_forwardTo w below) (readyAt_forwardTo u below) inside (ih below)

/-- The table has a record for each position and for the end. -/
theorem forwardTo_dp_length (w : Work) : (forwardTo pay w p).dp.length = pay.length + 1 := by
  induction p with
  | zero => simp [forwardTo]
  | succ p ih => rw [forwardTo_succ, forwardAt_dp_length, ih]

/-- A literal of one byte. -/
theorem isEdge_one (inside : p < pay.length) : IsEdge pay p { cost := 2, len := 1, dist := 0 } :=
  ⟨inside, .inl ⟨rfl, Nat.le_refl 1, by dsimp only; omega, rfl⟩⟩

/-- After the positions below a bound, the table holds the first of the cheapest edges from them. -/
theorem tableOf_forwardTo (w : Work) (inside : p ≤ pay.length) :
    TableOf (fun s e => s < p ∧ IsEdge pay s e) (forwardTo pay (sufInit w) p).dpAt := by
  induction p with
  | zero =>
    have emptyAt : ∀ q, q ≠ 0 → (forwardTo pay (sufInit w) 0).dpAt q = none := fun q nonzero => by
      obtain ⟨k, rfl⟩ := Nat.exists_eq_succ_of_ne_zero nonzero
      simp only [forwardTo, Work.dpAt, List.range_zero, List.foldl_nil, List.getD_eq_getElem?_getD,
        List.getElem?_cons_succ, List.getElem?_replicate]
      split_ifs <;> rfl
    refine ⟨rfl, fun s e h => absurd h.1 (Nat.not_lt_zero s), fun _ _ _ s e h => absurd h.1 (Nat.not_lt_zero s),
      fun q r nonzero some => ?_⟩
    rw [emptyAt q nonzero] at some
    cases some
  | succ p ih =>
    have of := ih (Nat.le_of_succ_le inside)
    have ready := readyAt_forwardTo w (Nat.le_of_succ_le inside)
    have length := forwardTo_dp_length (pay := pay) (p := p) (sufInit w)
    rw [forwardTo_succ]
    generalize forwardTo pay (sufInit w) p = u at of ready length
    obtain ⟨here, source⟩ : ∃ here, u.dpAt p = some here := by
      rcases Nat.eq_zero_or_pos p with rfl | positive
      · exact ⟨_, of.start⟩
      · by_contra none
        have before := isEdge_one (pay := pay) (p := p - 1) (by omega)
        exact of.empty p (by omega) (Option.eq_none_iff_forall_ne_some.2 fun r h => none ⟨r, h⟩) (p - 1) _
          ⟨by omega, before⟩ (by dsimp only; omega)
    have pos : (bestMatch pay { u with pos := p }).pos = p := bestMatch_pos pay _
    have dp : (bestMatch pay { u with pos := p }).dp = u.dp := bestMatch_dp pay _
    have table : (bestMatch pay { u with pos := p }).dpAt = u.dpAt := by
      funext q
      rw [Work.dpAt, dp, Work.dpAt]
    have edges := mem_edgesAt_iff (v := bestMatch pay { u with pos := p }) (by rwa [pos])
      (by rw [pos]; exact ready.candidate inside)
    rw [pos] at edges
    have all := TableOf.foldl_relax (edges := edgesAt pay.length (bestMatch pay { u with pos := p }))
      (w := bestMatch pay { u with pos := p }) (here := here) (table ▸ of)
      (by rw [pos]; exact fun s f h => h.1.le) (by rw [pos, table, source]) (fun e there => by
        obtain ⟨one, _, _, fits⟩ := IsEdge_inside ((edges e).1 there)
        rw [pos, dp, length]
        omega)
    refine all.congr fun s f => ?_
    rw [pos, edges f]
    constructor
    · rintro (⟨below, edge⟩ | ⟨rfl, edge⟩)
      · exact ⟨Nat.lt_succ_of_lt below, edge⟩
      · exact ⟨Nat.lt_succ_self _, edge⟩
    · rintro ⟨below, edge⟩
      rcases Nat.lt_succ_iff_lt_or_eq.1 below with lower | rfl
      · exact .inl ⟨lower, edge⟩
      · exact .inr ⟨rfl, edge⟩

/-- After the forward pass the table holds the first of the cheapest edges of the graph. -/
theorem tableOf_dpForward (pay : List Byte) (w : Work) : TableOf (IsEdge pay) (dpForward pay (sufInit w)).dpAt := by
  rw [dpForward_eq_forwardTo]
  exact (tableOf_forwardTo w (Nat.le_refl _)).congr fun s e => ⟨And.right, fun edge => ⟨edge.1, edge⟩⟩

end forward

/-! ## Least costs -/

section table

variable {pay : List Byte} {table : Nat → Option DpRec}

/-- Every position of the payload and its end have a record. -/
theorem TableOf.reached (of : TableOf (IsEdge pay) table) {p : Nat} (inside : p ≤ pay.length) : ∃ r, table p = some r := by
  rcases Nat.eq_zero_or_pos p with rfl | positive
  · exact ⟨_, of.start⟩
  · by_contra none
    have before := isEdge_one (pay := pay) (p := p - 1) (by omega)
    exact of.empty p (by omega) (Option.eq_none_iff_forall_ne_some.2 fun r h => none ⟨r, h⟩) (p - 1) _ before
      (by dsimp only; omega)

/-- A record's cost is that of a path. -/
theorem TableOf.pathTo (of : TableOf (IsEdge pay) table) {p : Nat} {r : DpRec} (record : table p = some r) :
    PathTo pay p r.cost := by
  induction p using Nat.strongRecOn generalizing r with
  | ind p ih =>
    rcases Nat.eq_zero_or_pos p with rfl | positive
    · cases of.start.symm.trans record
      exact .start
    · obtain ⟨s, e, prev, edge, rfl, _, _, known, cost, _⟩ := of.best p r (by omega) record
      rw [cost]
      exact .step e (ih s (by have := (IsEdge_inside edge).1; omega) known) edge

/-- No path is cheaper than a record. -/
theorem TableOf.cost_le (of : TableOf (IsEdge pay) table) {p c : Nat} (path : PathTo pay p c) {r : DpRec}
    (record : table p = some r) : r.cost ≤ c := by
  induction path generalizing r with
  | start =>
    cases of.start.symm.trans record
    exact Nat.le_refl 0
  | @step q c e _ edge ih =>
    obtain ⟨prev, known⟩ := of.sources q e edge
    obtain ⟨_, _, _, _, _, _, _, _, _, least⟩ := of.best (q + e.len) r (by have := (IsEdge_inside edge).1; omega) record
    exact (least q e prev edge rfl known).1.trans (Nat.add_le_add_right (ih known) _)

/-- A record's cost is the least of all paths. -/
theorem TableOf.leastCost (of : TableOf (IsEdge pay) table) {p : Nat} {r : DpRec} (record : table p = some r) :
    LeastCost pay p r.cost :=
  ⟨of.pathTo record, fun _ path => of.cost_le path record⟩

end table

end Sys2Proof.Proofs
end

section
/-!
PROOF. The path back of the OptimalParser and the blocks it emits: level 3 is as long as the cheapest path costs
(46_optimal_parser.md R229, R230, R233).
-/

namespace Sys2Proof.Proofs

open Sys2Proof.Machine Sys2Proof.Safety

/-! ## The path back -/

/-- The records that `DP_BACK` pushes from a position on; the first number bounds them. -/
def backRecords (table : Nat → Option DpRec) : Nat → Nat → List PathRec
  | 0, _ => []
  | fuel + 1, q =>
    if 0 < q then
      match table q with
      | none => []
      | some r => { pos := q - r.len, len := r.len, dist := r.dist } :: backRecords table fuel (q - r.len)
    else []

/-- The path ends at position 0. -/
theorem backRecords_zero (table : Nat → Option DpRec) (fuel : Nat) : backRecords table fuel 0 = [] := by
  cases fuel <;> rfl

/-- The path goes on with the record of its position. -/
theorem backRecords_succ {table : Nat → Option DpRec} {q : Nat} {r : DpRec} (positive : 0 < q) (record : table q = some r)
    (fuel : Nat) :
    backRecords table (fuel + 1) q
      = { pos := q - r.len, len := r.len, dist := r.dist } :: backRecords table fuel (q - r.len) := by
  rw [backRecords, if_pos positive, record]

/-- The loop of `DP_BACK` pushes those records. -/
theorem backLoop_path (fuel : Nat) {w : Work} (stored : w.pathcnt ≤ w.path.length) :
    (backLoop fuel w).path.take (backLoop fuel w).pathcnt = w.path.take w.pathcnt ++ backRecords w.dpAt fuel w.pos := by
  induction fuel generalizing w with
  | zero => exact (List.append_nil _).symm
  | succ fuel ih =>
    by_cases positive : 0 < w.pos
    · cases record : w.dpAt w.pos with
      | none => simp only [backLoop, backRecords, if_pos positive, record, List.append_nil]
      | some r =>
        let pushed := w.path.take w.pathcnt ++ [({ pos := w.pos - r.len, len := r.len, dist := r.dist } : PathRec)]
        have count : pushed.length = w.pathcnt + 1 := by
          simp [pushed, Nat.min_eq_left stored]
        have next := ih (w := { w with pos := w.pos - r.len, path := pushed, pathcnt := w.pathcnt + 1 }) count.ge
        rw [backRecords_succ positive record, backLoop, if_pos positive, record]
        refine next.trans ?_
        rw [← count, List.take_length, List.append_assoc]
        rfl
    · rw [backLoop, backRecords, if_neg positive, if_neg positive, List.append_nil]

/-- Level 3 makes the calls of the path back through the table, in payload order. -/
theorem parseL3_eq (pay : List Byte) (w : Work) :
    parseL3 pay w
      = (backRecords (dpForward pay (sufInit w)).dpAt pay.length pay.length).reverse.map edgeCall := by
  rw [parseL3, dpEmit, dpBack, backLoop_path _ (Nat.zero_le _)]
  rfl

/-- The table does not depend on what an earlier command left. -/
theorem dpForward_dpAt_congr (pay : List Byte) (w u : Work) :
    (dpForward pay (sufInit w)).dpAt = (dpForward pay (sufInit u)).dpAt := by
  funext q
  rw [Work.dpAt, Work.dpAt, dpForward_eq_forwardTo, dpForward_eq_forwardTo, forwardTo_dp_congr w u (Nat.le_refl _)]

/-! ## Blocks as edges -/

/-- A block as an edge of the graph: its bytes are its cost. -/
def blockEdge (i : Instr) : Edge :=
  { cost := (encode i).length, len := blockLength i, dist := (blockDistance i).getD 0 }

/-- A match record as an edge. -/
theorem blockEdge_matchRecord {len dist : Nat} (len3 : 3 ≤ len) (len264 : len ≤ 264) (d1 : 1 ≤ dist) (d : dist ≤ 8192) :
    blockEdge (matchRecord len dist) = { cost := matchCost len, len := len, dist := dist } := by
  obtain ⟨_, _, length, distance, _⟩ := matchRecord_spec len3 len264 d1 d
  rw [blockEdge, encode_matchRecord_length len dist len3, length, distance]
  rfl

/-- A literal as an edge. -/
theorem blockEdge_lit (data : List Byte) :
    blockEdge (.lit data) = { cost := literalCost data.length, len := data.length, dist := 0 } := by
  rw [blockEdge, encode, literalCost, List.length_cons, Nat.add_comm]
  rfl

section edges

variable {pay : List Byte} {p : Nat} {i : Instr}

/-- A block that stands for payload bytes is an edge of the graph when, being a match, it is the candidate of its place. -/
theorem BlockFits.isEdge (fits : BlockFits pay p i)
    (taken : ∀ d, blockDistance i = some d → indexCandidate pay p = (blockLength i, d)) : IsEdge pay p (blockEdge i) := by
  cases fits with
  | @literal n low high inside =>
    rw [blockEdge_lit, length_piece inside]
    exact ⟨by omega, .inl ⟨rfl, low, by dsimp only; omega, rfl⟩⟩
  | @matched len dist fits =>
    have limit := (le_min_iff.1 fits.dist_high).2
    obtain ⟨_, _, length, distance, _⟩ := matchRecord_spec fits.len_low fits.len_high fits.dist_low limit
    have candidate := taken dist distance
    rw [length] at candidate
    have inside := fits.inside
    have three := fits.len_low
    have one := fits.dist_low
    rw [blockEdge_matchRecord three fits.len_high one limit]
    refine ⟨by omega, .inr ⟨Nat.ne_of_gt one, ?_, three, ?_, rfl⟩⟩
    · exact (congrArg Prod.snd candidate).symm
    · exact (congrArg Prod.fst candidate).ge

/-- An edge of the graph is emitted as one block: the edge itself. -/
theorem exists_block_of_isEdge {e : Edge} (edge : IsEdge pay p e) :
    ∃ i, callBlocks pay (edgeCall { pos := p, len := e.len, dist := e.dist }) = [i] ∧ BlockFits pay p i ∧ blockEdge i = e
      ∧ CallLegal pay (edgeCall { pos := p, len := e.len, dist := e.dist }) := by
  obtain ⟨inside, ⟨literal, one, short, cost⟩ | ⟨matched, dist, three, short, cost⟩⟩ := edge
  · have fits : p + e.len ≤ pay.length := by omega
    refine ⟨.lit ((pay.drop p).take e.len), ?_, .literal one (by omega) fits, ?_, ?_⟩
    · have piece := litBlocks_of_short (pay := pay) (a := p) (b := p + e.len) (n := p + e.len - p) (by omega) (by omega)
        (Nat.le_refl _)
      rw [edgeCall, if_pos literal, callBlocks, piece, Nat.add_sub_cancel_left]
    · rw [blockEdge_lit, length_piece fits, literalCost, ← cost, ← literal]
    · rw [edgeCall, if_pos literal]
      exact fits
  · obtain ⟨one, inRange, limit, whole, agree, _⟩ :=
      (soundCandidate_indexCandidate pay p).guarantee inside (dist ▸ matched)
    rw [← dist] at one inRange agree
    have fits : MatchFits pay p e.len e.dist :=
      ⟨three, short.trans limit, one, inRange, by omega, fun k below => agree k (Nat.lt_of_lt_of_le below short)⟩
    have window := (le_min_iff.1 inRange).2
    refine ⟨matchRecord e.len e.dist, ?_, .matched fits, ?_, ?_⟩
    · rw [edgeCall, if_neg matched, callBlocks]
    · rw [blockEdge_matchRecord three fits.len_high one window, matchCost, ← cost]
    · rw [edgeCall, if_neg matched]
      exact ⟨three, fits.len_high, one, window⟩

end edges

/-- Blocks that are edges of the graph extend a path, and their bytes its cost. -/
theorem pathTo_of_blocks {pay : List Byte} {blocks : List Instr} {p c : Nat} (path : PathTo pay p c)
    (edges : ∀ x ∈ placed p blocks, IsEdge pay x.1 (blockEdge x.2)) :
    PathTo pay (p + spanOf blocks) (c + (streamOf blocks).length) := by
  induction blocks generalizing p c with
  | nil => exact path
  | cons i blocks ih =>
    obtain ⟨first, others⟩ := List.forall_mem_cons.1 edges
    have next := ih (.step (blockEdge i) path first) others
    rwa [spanOf_cons, streamOf_cons, List.length_append, ← Nat.add_assoc, ← Nat.add_assoc]

/-! ## The blocks of level 3 -/

/-- A block is the recorded edge into the position it ends at. -/
def IsRecorded (table : Nat → Option DpRec) (x : Nat × Instr) : Prop :=
  ∃ r, table (x.1 + blockLength x.2) = some r ∧ r.len = blockLength x.2 ∧ r.dist = (blockDistance x.2).getD 0

/-- Calls that emit the path back from a position: legal, up to the position, at its cost, and each block the recorded edge
into its end. -/
structure EmitsPath (pay : List Byte) (table : Nat → Option DpRec) (q cost : Nat) (calls : List EmitCall) : Prop where
  legal : ∀ c ∈ calls, CallLegal pay c
  span : spanOf (callsBlocks pay calls) = q
  cost : (streamOf (callsBlocks pay calls)).length = cost
  each : ∀ x ∈ placed 0 (callsBlocks pay calls),
    BlockFits pay x.1 x.2 ∧ IsEdge pay x.1 (blockEdge x.2) ∧ IsRecorded table x

/-- The path back from a position, emitted. -/
theorem emitsPath_backRecords {pay : List Byte} {table : Nat → Option DpRec} (of : TableOf (IsEdge pay) table)
    {fuel q : Nat} {r : DpRec} (enough : q ≤ fuel) (record : table q = some r) :
    EmitsPath pay table q r.cost ((backRecords table fuel q).reverse.map edgeCall) := by
  induction fuel generalizing q r with
  | zero =>
    obtain rfl : q = 0 := Nat.le_zero.1 enough
    cases of.start.symm.trans record
    exact ⟨nofun, rfl, rfl, nofun⟩
  | succ fuel ih =>
    rcases Nat.eq_zero_or_pos q with rfl | positive
    · cases of.start.symm.trans record
      rw [backRecords_zero]
      exact ⟨nofun, rfl, rfl, nofun⟩
    · obtain ⟨s, e, prev, edge, ends, len, dist, known, cost, _⟩ := of.best q r (Nat.ne_of_gt positive) record
      have one := (IsEdge_inside edge).1
      have start : q - r.len = s := by omega
      obtain ⟨i, block, fits, isEdge, legal⟩ := exists_block_of_isEdge edge
      have before := ih (q := s) (by omega) known
      have last : blockLength i = e.len := congrArg Edge.len isEdge
      rw [backRecords_succ positive record, List.reverse_cons, List.map_append, start, ← len, ← dist]
      refine ⟨List.forall_mem_append.2 ⟨before.legal, List.forall_mem_singleton.2 legal⟩, ?_, ?_, ?_⟩ <;>
        rw [callsBlocks, List.flatMap_append, ← callsBlocks, List.map_singleton, List.flatMap_singleton, block]
      · rw [spanOf_append, before.span, spanOf_cons, spanOf_nil, last]
        omega
      · have bytes : (encode i).length = e.cost := congrArg Edge.cost isEdge
        rw [streamOf_append, List.length_append, before.cost, streamOf_cons, streamOf_nil, List.append_nil, bytes, cost]
      · rw [placed_append, before.span, Nat.zero_add]
        refine List.forall_mem_append.2 ⟨before.each, List.forall_mem_singleton.2 ⟨fits, isEdge ▸ edge, r, ?_, ?_, ?_⟩⟩
        · rw [last, ends, record]
        · rw [last, len]
        · exact dist.symm.trans (congrArg Edge.dist isEdge).symm

/-- The blocks of level 3. -/
def optimalBlocks (pay : List Byte) : List Instr := callsBlocks pay (parseL3 pay Work.reset)

section level

variable (pay : List Byte)

/-- Level 3 does not depend on what an earlier command left. -/
theorem parseL3_congr (w u : Work) : parseL3 pay w = parseL3 pay u := by
  rw [parseL3_eq, parseL3_eq, dpForward_dpAt_congr pay w u]

/-- Its calls emit the path back from the end of the payload. -/
theorem emitsPath_parseL3 (w : Work) :
    ∃ r, (dpForward pay (sufInit w)).dpAt pay.length = some r
      ∧ EmitsPath pay (dpForward pay (sufInit w)).dpAt pay.length r.cost (parseL3 pay w) := by
  have of := tableOf_dpForward pay w
  obtain ⟨r, record⟩ := of.reached (Nat.le_refl pay.length)
  exact ⟨r, record, parseL3_eq pay w ▸ emitsPath_backRecords of (Nat.le_refl _) record⟩

/-- The calls of level 3 emit its blocks. -/
theorem emitCalls_parseL3 (w : Work) : emitCalls pay (parseL3 pay w) = (streamOf (optimalBlocks pay), none) := by
  obtain ⟨_, _, path⟩ := emitsPath_parseL3 pay Work.reset
  rw [parseL3_congr pay w Work.reset]
  exact emitCalls_eq path.legal

/-- They parse the payload. -/
theorem isParse_optimalBlocks : IsParse pay (optimalBlocks pay) := by
  obtain ⟨_, _, path⟩ := emitsPath_parseL3 pay Work.reset
  exact ⟨fun x there => (path.each x there).1, path.span⟩

/-- Each of them is an edge of the graph. -/
theorem isEdge_optimalBlocks : ∀ x ∈ placed 0 (optimalBlocks pay), IsEdge pay x.1 (blockEdge x.2) := by
  obtain ⟨_, _, path⟩ := emitsPath_parseL3 pay Work.reset
  exact fun x there => (path.each x there).2.1

/-- Each of them is the recorded edge into the position it ends at. -/
theorem isRecorded_optimalBlocks (w : Work) :
    ∀ x ∈ placed 0 (optimalBlocks pay), IsRecorded (dpForward pay (sufInit w)).dpAt x := by
  obtain ⟨_, _, path⟩ := emitsPath_parseL3 pay w
  rw [optimalBlocks, parseL3_congr pay Work.reset w]
  exact fun x there => (path.each x there).2.2

/-- Their bytes are as many as the cheapest path to the end costs (46_optimal_parser.md R233). -/
theorem leastCost_optimalBlocks : LeastCost pay pay.length (streamOf (optimalBlocks pay)).length := by
  obtain ⟨r, record, path⟩ := emitsPath_parseL3 pay Work.reset
  rw [optimalBlocks, path.cost]
  exact (tableOf_dpForward pay Work.reset).leastCost record

end level

/-- No parse by edges of the graph is shorter than level 3. -/
theorem length_optimalBlocks_le {pay : List Byte} {blocks : List Instr} (span : spanOf blocks = pay.length)
    (edges : ∀ x ∈ placed 0 blocks, IsEdge pay x.1 (blockEdge x.2)) :
    (streamOf (optimalBlocks pay)).length ≤ (streamOf blocks).length := by
  have path := pathTo_of_blocks .start edges
  rw [span, Nat.zero_add, Nat.zero_add] at path
  exact (leastCost_optimalBlocks pay).2 _ path

/-- Each block of level 2 is an edge of the graph. -/
theorem isEdge_greedyBlocks (pay : List Byte) :
    ∀ x ∈ placed 0 (greedyBlocks pay (indexCandidate pay)), IsEdge pay x.1 (blockEdge x.2) := fun x there => by
  obtain ⟨fits, taken, _⟩ := (greedyBlocks_spec fun p => soundCandidate_indexCandidate pay p).fits x there
  exact fits.isEdge taken

/-- Level 3 is not longer than level 2: the greedy parse is a path of the graph (46_optimal_parser.md R233). -/
theorem length_optimalBlocks_le_greedyBlocks (pay : List Byte) :
    (streamOf (optimalBlocks pay)).length ≤ (streamOf (greedyBlocks pay (indexCandidate pay))).length :=
  length_optimalBlocks_le (isParse_greedyBlocks fun p => soundCandidate_indexCandidate pay p).span (isEdge_greedyBlocks pay)

/-- The blocks of level 0. -/
def literalBlocks (pay : List Byte) : List Instr := litBlocks pay pay.length 0 pay.length

section literal

variable (pay : List Byte)

/-- A block of level 0 is a literal that stands for its bytes. -/
theorem fits_literalBlocks :
    ∀ x ∈ placed 0 (literalBlocks pay), BlockFits pay x.1 x.2 ∧ blockDistance x.2 = none := by
  rintro ⟨p, i⟩ there
  obtain ⟨k, one, short, _, before, piece⟩ := mem_placed_litBlocks (Nat.le_refl _) there
  dsimp only at before piece
  subst piece
  exact ⟨.literal one short before, rfl⟩

/-- Level 0 parses the payload. -/
theorem isParse_literalBlocks : IsParse pay (literalBlocks pay) :=
  ⟨fun x there => (fits_literalBlocks pay x there).1, spanOf_litBlocks (Nat.sub_le _ 0) (Nat.zero_le _) (Nat.le_refl _)⟩

/-- The calls of level 0 emit its blocks. -/
theorem emitCalls_parseL0_eq (w : Work) : emitCalls pay (parseL0 pay w) = (streamOf (literalBlocks pay), none) := by
  have run := emitLitRun_eq (Nat.le_refl pay.length) pay.length (a := 0)
  rw [emitCalls_parseL0, level0Stream, run, literalBlocks]

/-- Level 0 takes a header for each 32 bytes begun. -/
theorem length_literalBlocks : (streamOf (literalBlocks pay)).length = pay.length + (pay.length + 31) / 32 :=
  length_streamOf_litBlocks (a := 0) (Nat.zero_le _) (Nat.le_refl pay.length)

/-- Level 3 is not longer than level 0: literals are edges of the graph. -/
theorem length_optimalBlocks_le_literalBlocks :
    (streamOf (optimalBlocks pay)).length ≤ (streamOf (literalBlocks pay)).length := by
  refine length_optimalBlocks_le (isParse_literalBlocks pay).span fun x there => ?_
  obtain ⟨fits, literal⟩ := fits_literalBlocks pay x there
  exact fits.isEdge fun d matched => by cases literal.symm.trans matched

end literal

end Sys2Proof.Proofs
end

section
/-!
PROOF. `COMPRESS` at every level: each level is a parse of the payload whose bytes its calls emit, whatever an earlier command
left (45_greedy_compress.md R205 to R219, 46_optimal_parser.md R225 to R233).
-/

namespace Sys2Proof.Proofs

open Sys2Proof.Machine Sys2Proof.Safety

/-! ## The levels -/

/-- The parse of a level emits certain blocks of every payload: a parse of it, no longer than level 0. -/
structure Emits (parse : List Byte → Work → List EmitCall) (blocks : List Byte → List Instr) : Prop where
  emitted : ∀ pay w, emitCalls pay (parse pay w) = (streamOf (blocks pay), none)
  isParse : ∀ pay, IsParse pay (blocks pay)
  length_le : ∀ pay : List Byte, (streamOf (blocks pay)).length ≤ pay.length + (pay.length + 31) / 32

/-- Level 0. -/
theorem emits_parseL0 : Emits parseL0 literalBlocks :=
  ⟨emitCalls_parseL0_eq, isParse_literalBlocks, fun pay => (length_literalBlocks pay).le⟩

/-- The greedy levels, 1 and 2. -/
theorem emits_greedy {parse : List Byte → Work → List EmitCall} {candidate : List Byte → Nat → Nat × Nat}
    (sound : ∀ pay p, SoundCandidate pay p (candidate pay p).1 (candidate pay p).2)
    (calls : ∀ pay w, parse pay w = greedyCalls (candidate pay) pay.length pay.length 0 0) :
    Emits parse fun pay => greedyBlocks pay (candidate pay) :=
  ⟨fun pay w => by rw [calls, emitCalls_greedyCalls (sound pay)], fun pay => isParse_greedyBlocks (sound pay),
    fun pay => (greedyBlocks_spec (sound pay)).length_le⟩

/-- Level 1. -/
theorem emits_parseL1 : Emits parseL1 fun pay => greedyBlocks pay (nearestCandidate pay) :=
  emits_greedy soundCandidate_nearestCandidate parseL1_eq

/-- Level 2. -/
theorem emits_parseL2 : Emits parseL2 fun pay => greedyBlocks pay (indexCandidate pay) :=
  emits_greedy soundCandidate_indexCandidate parseL2_eq

/-- Level 3. -/
theorem emits_parseL3 : Emits parseL3 optimalBlocks :=
  ⟨emitCalls_parseL3, isParse_optimalBlocks,
    fun pay => (length_optimalBlocks_le_literalBlocks pay).trans (length_literalBlocks pay).le⟩

/-- The two commands of each level. -/
def levelCommands : List (Instr × Instr) :=
  [(.convertL0, .compressL0), (.convertL1, .compressL1), (.convertL2, .compressL2), (.convertL3, .compressL3)]

/-- The dispatch of both commands of a level, with what its parse emits. -/
theorem exec_level {p : Instr × Instr} (h : p ∈ levelCommands) :
    ∃ v parse blocks, Emits parse blocks ∧ (∀ s, exec p.1 s = runCommand .convert (convertCommand v parse) s)
      ∧ ∀ s, exec p.2 s = runCommand .compress (compressCommand v parse) s := by
  simp only [levelCommands, List.mem_cons, List.not_mem_nil, or_false] at h
  obtain rfl | rfl | rfl | rfl := h
  · exact ⟨0, parseL0, _, emits_parseL0, fun _ => rfl, fun _ => rfl⟩
  · exact ⟨1, parseL1, _, emits_parseL1, fun _ => rfl, fun _ => rfl⟩
  · exact ⟨2, parseL2, _, emits_parseL2, fun _ => rfl, fun _ => rfl⟩
  · exact ⟨3, parseL3, _, emits_parseL3, fun _ => rfl, fun _ => rfl⟩

/-- The dispatch of `COMPRESS`, of any level. -/
theorem exec_compress_level {i : Instr} (h : i ∈ [Instr.compressL0, .compressL1, .compressL2, .compressL3]) :
    ∃ v parse blocks, Emits parse blocks ∧ ∀ s, exec i s = runCommand .compress (compressCommand v parse) s := by
  obtain ⟨p, level, rfl⟩ := List.mem_map.1 (show i ∈ levelCommands.map Prod.snd from h)
  obtain ⟨v, parse, blocks, emits, _, dispatch⟩ := exec_level level
  exact ⟨v, parse, blocks, emits, dispatch⟩

/-- The dispatch of `CONVERT`, of any level. -/
theorem exec_convert_level {i : Instr} (h : i ∈ [Instr.convertL0, .convertL1, .convertL2, .convertL3]) :
    ∃ v parse blocks, Emits parse blocks ∧ ∀ s, exec i s = runCommand .convert (convertCommand v parse) s := by
  obtain ⟨p, level, rfl⟩ := List.mem_map.1 (show i ∈ levelCommands.map Prod.fst from h)
  obtain ⟨v, parse, blocks, emits, dispatch, _⟩ := exec_level level
  exact ⟨v, parse, blocks, emits, dispatch⟩

/-! ## The command -/

section command

variable {v : BitVec 2} {parse : List Byte → Work → List EmitCall} {blocks : List Byte → List Instr} {s t : State}
  {pay : List Byte}

/-- The stream of a payload that fits `PAY` fits `OUT`. -/
theorem Emits.room (emits : Emits parse blocks) (fits : pay.length ≤ Config.nmax) :
    (streamOf (blocks pay)).length ≤ Config.outCap :=
  (emits.length_le pay).trans (level0_fits fits)

/-- `COMPRESS` outside `FAULT`, its length in range and its input written, completes with the blocks of its level. -/
theorem Emits.runCommand_compress (emits : Emits parse blocks) (ready : s.inFault = false)
    (fits : s.paylen.toNat ≤ Config.nmax) (input : PayIs s pay) :
    runCommand .compress (compressCommand v parse) s = .next (compressDone s (streamOf (blocks pay))) :=
  runCommand_compress_eq_next ready fits input (emits.emitted pay _)

/-- Then `OUT` holds their bytes. -/
theorem Emits.outIs (emits : Emits parse blocks) (fits : s.paylen.toNat ≤ Config.nmax) (input : PayIs s pay) :
    OutIs (compressDone s (streamOf (blocks pay))) (streamOf (blocks pay)) := by
  have length : pay.length = s.paylen.toNat := cellsRead_length input
  rw [OutIs, toNat_outlen_compressDone (emits.room (length ▸ fits))]
  exact cellsRead_cellsWrite _ _ _

/-- Everything `COMPRESS` can do outside `FAULT` when it has a next state: the fault of a length out of range, or the blocks
of its level. -/
theorem Emits.compress_cases (emits : Emits parse blocks) (ready : s.inFault = false)
    (run : runCommand .compress (compressCommand v parse) s = .next t) :
    (Config.nmax < s.paylen.toNat ∧ t.outlen = 0)
    ∨ (s.paylen.toNat ≤ Config.nmax ∧ ∃ pay, PayIs s pay ∧ t = compressDone s (streamOf (blocks pay))) := by
  rcases Nat.lt_or_ge Config.nmax s.paylen.toNat with tooLong | fits
  · obtain ⟨u, faulted, seen⟩ := runCommand_overlong ready .compress (compressCommand v parse) tooLong
    cases run.symm.trans faulted
    exact .inl ⟨tooLong, congrArg HostView.outlen seen⟩
  · refine .inr ⟨fits, ?_⟩
    cases read : cellsRead s.mem.pay 0 s.paylen.toNat with
    | error i =>
      have stopped : compressCommand v parse (s.setState stBusy) = .unwritten .pay i := by
        simp only [compressCommand, State.setState_mem, State.setState_paylen, read]
      rw [runCommand_unwritten ready (checkLen_compress_of_le fits) stopped] at run
      cases run
    | ok pay =>
      rw [emits.runCommand_compress ready fits read] at run
      cases run
      exact ⟨pay, read, rfl⟩

/-- Then `OUTLEN` counts the bytes of the blocks. -/
theorem Emits.toNat_outlen (emits : Emits parse blocks) (fits : s.paylen.toNat ≤ Config.nmax) (input : PayIs s pay) :
    (compressDone s (streamOf (blocks pay))).outlen.toNat = (streamOf (blocks pay)).length := by
  have length : pay.length = s.paylen.toNat := cellsRead_length input
  exact toNat_outlen_compressDone (emits.room (length ▸ fits)) s

end command

/-- Over a clear `STATUS`, `COMPRESS` changes only `OUT`, `OUTLEN` and what every call leaves unspecified. -/
theorem compressDone_frame {s : State} (clear : s.status = 0) (out : List Byte) :
    compressDone s out
      = { s with
          mem := { s.mem with out := (compressDone s out).mem.out }
          outlen := (compressDone s out).outlen
          work := (compressDone s out).work
          freeCtr := (compressDone s out).freeCtr
          outDraw := (compressDone s out).outDraw } := by
  have status : withStatusState s.status stReady = s.status := by rw [clear, withStatusState_zero_ready]
  exact State.eq_of_fields status rfl rfl rfl rfl rfl rfl rfl rfl rfl rfl rfl

/-! ## The statements -/

/-- Settles O43: the blocks of the level are a parse of the payload, and a parse expands to it. -/
theorem compressCoversPayload : Obligations.CompressCoversPayload := by
  unfold Obligations.CompressCoversPayload
  intro s pay clear fits input i level
  obtain ⟨v, parse, blocks, emits, dispatch⟩ := exec_compress_level level
  have counted := emits.toNat_outlen fits input
  refine ⟨_, _, (dispatch s).trans (emits.runCommand_compress (State.inFault_of_status_zero clear) fits input),
    emits.outIs fits input, (emits.isParse pay).expand, fun j above => ?_, compressDone_frame clear _⟩
  exact cellRead_cellsWrite_outside (.inr (by omega))

/-- Settles O45: no level's blocks are longer than level 0's, and a fault leaves `OUTLEN` 0. -/
theorem levelsNeverExceedLevel0 : Obligations.LevelsNeverExceedLevel0 := by
  unfold Obligations.LevelsNeverExceedLevel0
  intro s t clear i level run
  obtain ⟨v, parse, blocks, emits, dispatch⟩ := exec_compress_level level
  rw [dispatch] at run
  obtain ⟨_, none⟩ | ⟨fits, pay, input, rfl⟩ := emits.compress_cases (State.inFault_of_status_zero clear) run
  · rw [none]
    exact Nat.zero_le _
  · have length : pay.length = s.paylen.toNat := cellsRead_length input
    rw [emits.toNat_outlen fits input, ← length]
    exact emits.length_le pay

/-- The dispatch of `COMPRESS.L2` and `COMPRESS.L3`. -/
theorem exec_compressL2 (s : State) : exec .compressL2 s = runCommand .compress (compressCommand 2 parseL2) s := rfl
theorem exec_compressL3 (s : State) : exec .compressL3 s = runCommand .compress (compressCommand 3 parseL3) s := rfl

/-- Settles O46: level 2's blocks are a path of the graph, and level 3's cost the least of all. -/
theorem level3NotLongerThanLevel2 : Obligations.Level3NotLongerThanLevel2 := by
  unfold Obligations.Level3NotLongerThanLevel2
  intro s a b clear run2 run3
  have ready := State.inFault_of_status_zero clear
  obtain ⟨_, none⟩ | ⟨fits, pay, input, rfl⟩ := emits_parseL3.compress_cases ready (exec_compressL3 s ▸ run3)
  · rw [none]
    exact Nat.zero_le _
  · rw [exec_compressL2, emits_parseL2.runCommand_compress ready fits input] at run2
    cases run2
    rw [emits_parseL3.toNat_outlen fits input, emits_parseL2.toNat_outlen fits input]
    exact length_optimalBlocks_le_greedyBlocks pay

/-! ## Small payloads -/

/-- In a payload of at most three bytes no match fits: the first byte has nothing before it. -/
theorem BlockFits.literal_of_short {pay : List Byte} (short : pay.length ≤ 3) {p : Nat} {i : Instr}
    (fits : BlockFits pay p i) : ∃ n, 1 ≤ n ∧ p + n ≤ pay.length ∧ i = .lit ((pay.drop p).take n) := by
  cases fits with
  | @literal n low high inside => exact ⟨n, low, inside, rfl⟩
  | @matched len dist fits =>
    have := fits.len_low
    have := fits.dist_low
    have := fits.dist_high
    have := fits.inside
    omega

/-- A parse of at most three bytes takes a header for each of its blocks. -/
theorem length_streamOf_of_short {pay : List Byte} (short : pay.length ≤ 3) {blocks : List Instr} {p : Nat}
    (fits : ∀ x ∈ placed p blocks, BlockFits pay x.1 x.2) :
    (streamOf blocks).length = spanOf blocks + blocks.length := by
  induction blocks generalizing p with
  | nil => rfl
  | cons i blocks ih =>
    obtain ⟨first, others⟩ := List.forall_mem_cons.1 fits
    have first : BlockFits pay p i := first
    obtain ⟨n, _, _, rfl⟩ := first.literal_of_short short
    rw [streamOf_cons, List.length_append, ih others, spanOf_cons, List.length_cons]
    simp only [encode, blockLength, List.length_cons]
    omega

/-- A parse of at most three bytes that is no longer than level 0 is one literal, or nothing of the empty payload. -/
theorem IsParse.streamOf_of_short {pay : List Byte} {blocks : List Instr} (parse : IsParse pay blocks)
    (short : pay.length ≤ 3) (shortest : (streamOf blocks).length ≤ pay.length + (pay.length + 31) / 32) :
    streamOf blocks = if pay = [] then [] else BitVec.ofNat 8 (pay.length - 1) :: pay := by
  have bytes := length_streamOf_of_short short parse.fits
  have span := parse.span
  have fits := parse.fits
  match blocks with
  | [] =>
    rw [spanOf_nil] at span
    rw [if_pos (List.eq_nil_of_length_eq_zero span.symm)]
    rfl
  | [i] =>
    have first : BlockFits pay 0 i := fits (0, i) List.mem_cons_self
    obtain ⟨n, one, inside, rfl⟩ := first.literal_of_short short
    rw [spanOf_cons, spanOf_nil, blockLength, length_piece inside] at span
    obtain rfl : n = pay.length := span
    rw [if_neg (List.ne_nil_of_length_pos one), List.drop_zero, List.take_length]
    simp [encode]
  | _ :: _ :: _ =>
    simp only [List.length_cons] at bytes
    omega

/-- Settles O47: no match fits, and one block is all that level 0's length leaves room for. -/
theorem smallestPayloads : Obligations.SmallestPayloads := by
  unfold Obligations.SmallestPayloads
  intro s pay clear input short i level
  obtain ⟨v, parse, blocks, emits, dispatch⟩ := exec_compress_level level
  have length : pay.length = s.paylen.toNat := cellsRead_length input
  have range := nmax_range
  have fits : s.paylen.toNat ≤ Config.nmax := by omega
  have out := emits.outIs fits input
  refine ⟨_, (dispatch s).trans (emits.runCommand_compress (State.inFault_of_status_zero clear) fits input), ?_⟩
  rwa [(emits.isParse pay).streamOf_of_short short (emits.length_le pay)] at out ⊢

/-! ## Levels 1 to 3 -/

/-- Settles O59: the blocks of both levels are the greedy parse of their candidates. -/
theorem greedyLevelsTakeCandidates : Obligations.GreedyLevelsTakeCandidates := by
  unfold Obligations.GreedyLevelsTakeCandidates
  intro s pay clear fits input x level
  have ready := State.inFault_of_status_zero clear
  simp only [List.mem_cons, List.not_mem_nil, or_false] at level
  have claim : ∀ {v parse} {candidate : List Byte → Nat → Nat × Nat},
      (∀ pay p, SoundCandidate pay p (candidate pay p).1 (candidate pay p).2) →
      Emits parse (fun pay => greedyBlocks pay (candidate pay)) →
      ∃ t out blocks, runCommand .compress (compressCommand v parse) s = .next t ∧ OutIs t out
        ∧ blocksOf out = some blocks ∧ expandBlocks [] blocks = some pay ∧ TakesCandidates (candidate pay) blocks
        ∧ PiecesFull blocks := fun sound emits =>
    ⟨_, _, _, emits.runCommand_compress ready fits input, emits.outIs fits input, (emits.isParse pay).blocksOf,
      (emits.isParse pay).expandBlocks, takesCandidates_greedyBlocks (sound pay),
      piecesFull_of_isChain (greedyBlocks_spec (sound pay)).isChain⟩
  obtain rfl | rfl := level
  · exact claim soundCandidate_nearestCandidate emits_parseL1
  · exact claim soundCandidate_indexCandidate emits_parseL2

/-- A block that is an edge of the graph has a distance below the window (44_suffix_index.md R193). -/
theorem dist_le_of_isEdge {pay : List Byte} {p d : Nat} {i : Instr} (edge : IsEdge pay p (blockEdge i))
    (matched : blockDistance i = some d) : d ≤ 8191 := by
  have dist : (blockEdge i).dist = d := by rw [blockEdge, matched]; rfl
  obtain ⟨inside, ⟨literal, _⟩ | ⟨_, candidate, _⟩⟩ := edge
  · omega
  · have := indexCandidate_dist_le inside
    omega

/-- Settles O52: the blocks of levels 2 and 3 are edges of the graph. -/
theorem indexLevelsStayBelowWindow : Obligations.IndexLevelsStayBelowWindow := by
  unfold Obligations.IndexLevelsStayBelowWindow
  intro s t clear fits i level run
  have ready := State.inFault_of_status_zero clear
  have claim : ∀ {v parse} {blocks : List Byte → List Instr}, Emits parse blocks →
      (∀ pay, ∀ x ∈ placed 0 (blocks pay), IsEdge pay x.1 (blockEdge x.2)) →
      runCommand .compress (compressCommand v parse) s = .next t →
      ∃ out blocks, OutIs t out ∧ blocksOf out = some blocks
        ∧ ∀ b ∈ blocks, ∀ d, blockDistance b = some d → d ≤ 8191 := by
    intro v parse blocks emits edges run
    obtain ⟨tooLong, _⟩ | ⟨_, pay, input, rfl⟩ := emits.compress_cases ready run
    · omega
    · refine ⟨_, _, emits.outIs fits input, (emits.isParse pay).blocksOf, fun b there d matched => ?_⟩
      obtain ⟨q, stands⟩ := exists_mem_placed there 0
      exact dist_le_of_isEdge (edges pay _ stands) matched
  simp only [List.mem_cons, List.not_mem_nil, or_false] at level
  obtain rfl | rfl := level
  · exact claim emits_parseL2 isEdge_greedyBlocks run
  · exact claim emits_parseL3 isEdge_optimalBlocks run

/-- The record of a position after the forward pass: on a cheapest path, by the first of the edges that attain the cost. -/
theorem record_of_table {pay : List Byte} {table : Nat → Option DpRec} (of : TableOf (IsEdge pay) table) {p : Nat}
    (positive : 1 ≤ p) (inside : p ≤ pay.length) :
    ∃ r prev e, table p = some r ∧ 1 ≤ r.len ∧ r.len ≤ p ∧ r.len ≤ 264 ∧ r.dist ≤ 8192 ∧ LeastCost pay p r.cost
      ∧ table (p - r.len) = some prev ∧ IsEdge pay (p - r.len) e ∧ e.len = r.len ∧ e.dist = r.dist
      ∧ r.cost = prev.cost + e.cost
      ∧ ∀ q f other, IsEdge pay q f → q + f.len = p → table q = some other → r.cost = other.cost + f.cost →
          p - r.len ≤ q := by
  obtain ⟨r, record⟩ := of.reached inside
  obtain ⟨s, e, prev, edge, ends, len, dist, known, cost, least⟩ := of.best p r (by omega) record
  obtain ⟨one, short, near, _⟩ := IsEdge_inside edge
  obtain rfl : s = p - r.len := by omega
  exact ⟨r, prev, e, record, by omega, by omega, by omega, by omega, of.leastCost record, known, edge, len, dist, cost,
    fun q f other edge' ends' known' same => (least q f other edge' ends' known').2 same⟩

/-- Settles O53: `RELAX` by its two branches; the table after the forward pass; the path back through it, whose blocks level 3
emits. -/
theorem forwardPassReachesAndCosts : Obligations.ForwardPassReachesAndCosts := by
  unfold Obligations.ForwardPassReachesAndCosts
  refine ⟨fun v e here source inside => ⟨fun there target dear => relax_of_not_cheaper source target dear,
    fun cheaper => ⟨relax_eq v e, relax_dpAt_of_cheaper source inside cheaper⟩⟩, fun pay w => ?_⟩
  have of := tableOf_dpForward pay w
  obtain ⟨r, record, path⟩ := emitsPath_parseL3 pay w
  have emitted := emitCalls_eq path.legal
  refine ⟨of.start, fun p positive inside => record_of_table of positive inside,
    ⟨r, record, by rw [emitted, path.cost], by rw [emitted]⟩, fun s clear fits input => ?_⟩
  have counted := emits_parseL3.toNat_outlen fits input
  refine ⟨_, _, _, emits_parseL3.runCommand_compress (State.inFault_of_status_zero clear) fits input,
    emits_parseL3.outIs fits input, (isParse_optimalBlocks pay).blocksOf, ?_, isRecorded_optimalBlocks pay w⟩
  rw [counted]
  exact leastCost_optimalBlocks pay

end Sys2Proof.Proofs
end

section
/-!
PROOF. `CONVERT`: its four stages in one body, and the four commands in a row (47_commands.md R247).
-/

namespace Sys2Proof.Proofs

open Sys2Proof.Machine Sys2Proof.Safety

/-! ## The body -/

/-- No sentinel is left to `PACK` after `FILTER`. -/
theorem sentinel_not_mem_keepDurations (durs : List Half) : 65535 ∉ keepDurations durs := fun there =>
  (mem_keepDurations.1 there).2 rfl

/-- What a fault-free `CONVERT` writes: the durations decoded, over them those that are kept, their bytes, and the stream. -/
def convertMem (m : Memory) (durs : List Half) (out : List Byte) : Memory :=
  { m with
    dur := cellsWrite (cellsWrite m.dur 0 durs) 0 (keepDurations durs)
    pay := cellsWrite m.pay 0 (payBytes (keepDurations durs))
    out := cellsWrite m.out 0 out }

section body

variable {ovf : Config.DurOvf} {v : BitVec 2} {parse : List Byte → Work → List EmitCall}
  {blocks : List Byte → List Instr} {hex : List Byte} {s : State} {durs : List Half}

/-- The body of `CONVERT` on a string that raises. -/
theorem convertBody_of_raised {r : Raise} (outcome : decodeOutcome ovf hex s.hexlen.toNat = (durs, some r)) :
    convertBody ovf v parse hex s
      = .raised r { s with
          mem := { s.mem with dur := cellsWrite s.mem.dur 0 durs }
          durlen := 0
          paylen := 0
          outlen := 0
          work := { s.work with level := v } } := by
  have decoded := decodeBody_of_raised
    (s := { s with durlen := 0, paylen := 0, outlen := 0, work := { s.work with level := v } }) outcome
  simp only [convertBody, decoded, thenStage_of_raised]

/-- The body of `CONVERT` on a string that raises nothing: `PACK` and `COMPRESS` then raise nothing either. -/
theorem Emits.convertBody_of_done (emits : Emits parse blocks)
    (outcome : decodeOutcome ovf hex s.hexlen.toNat = (durs, none)) :
    convertBody ovf v parse hex s
      = .done () { s with
          mem := convertMem s.mem durs (streamOf (blocks (payBytes (keepDurations durs))))
          durlen := lenWord (keepDurations durs).length
          paylen := lenWord (2 * (keepDurations durs).length)
          outlen := lenWord (streamOf (blocks (payBytes (keepDurations durs)))).length
          work := { s.work with level := v } } := by
  have decoded := decodeBody_of_done
    (s := { s with durlen := 0, paylen := 0, outlen := 0, work := { s.work with level := v } }) outcome
  simp only [convertBody, decoded, thenStage_of_done, filterBody,
    packBody_of_no_sentinel (sentinel_not_mem_keepDurations durs), compressBody, emits.emitted]
  exact congrArg (Body.done ()) (State.eq_of_fields rfl rfl rfl rfl rfl (BitVec.zero_add _) rfl rfl rfl rfl rfl rfl)

end body

/-! ## The command -/

/-- The state in which a `CONVERT` launched in `s` leaves the machine when it decodes `durs` and its parse emits `out`. -/
def convertDone (s : State) (durs : List Half) (out : List Byte) : State :=
  { s with
    status := withStatusState s.status stReady
    mem := convertMem s.mem durs out
    durlen := lenWord (keepDurations durs).length
    paylen := lenWord (2 * (keepDurations durs).length)
    outlen := lenWord out.length
    work := leftover s.freeCtr
    freeCtr := s.freeCtr + 1
    outDraw := s.freeCtr + 1 }

section command

variable {v : BitVec 2} {parse : List Byte → Work → List EmitCall} {blocks : List Byte → List Instr} {s t : State}
  {hex : List Byte} {durs : List Half}

/-- With its input written, `CONVERT` runs its body over the whole of it. -/
theorem convertCommand_of_hexIs (input : HexIs s hex) :
    convertCommand v parse s = convertBody Config.durOvf v parse hex s := by
  rw [HexIs] at input
  simp only [convertCommand, input]

/-- `CONVERT` outside `FAULT`, its length in range and its input written, on a string that raises nothing. -/
theorem Emits.runCommand_convert (emits : Emits parse blocks) (ready : s.inFault = false)
    (fits : s.hexlen.toNat ≤ 131078) (input : HexIs s hex)
    (outcome : decodeOutcome Config.durOvf hex s.hexlen.toNat = (durs, none)) :
    runCommand .convert (convertCommand v parse) s
      = .next (convertDone s durs (streamOf (blocks (payBytes (keepDurations durs))))) := by
  have body := (convertCommand_of_hexIs (s := s.setState stBusy) (v := v) input).trans (emits.convertBody_of_done outcome)
  rw [runCommand_done ready (checkLen_of_le (c := .convert) fits) body]
  exact congrArg _ (State.eq_of_fields (withStatusState_idem s.status stBusy stReady) rfl rfl rfl rfl rfl rfl rfl rfl rfl
    rfl rfl)

/-- A `CONVERT` that ends with a clear `STATUS` has its input written and decodes it without a `raise`. -/
theorem convert_completed (clear : s.status = 0) (run : runCommand .convert (convertCommand v parse) s = .next t)
    (done : t.status = 0) :
    s.hexlen.toNat ≤ 131078
      ∧ ∃ hex durs, HexIs s hex ∧ decodeOutcome Config.durOvf hex s.hexlen.toNat = (durs, none) := by
  obtain ⟨fits, a, u, body, _⟩ := runCommand_completed clear run done
  refine ⟨fits, ?_⟩
  cases read : cellsRead s.mem.hex 0 s.hexlen.toNat with
  | error i =>
    simp only [convertCommand, State.setState_mem, State.setState_hexlen, read] at body
    cases body
  | ok hex =>
    rw [convertCommand_of_hexIs (s := s.setState stBusy) read] at body
    rcases outcome : decodeOutcome Config.durOvf hex s.hexlen.toNat with ⟨durs, _ | r⟩
    · exact ⟨hex, durs, read, outcome⟩
    · rw [convertBody_of_raised (s := s.setState stBusy) outcome] at body
      cases body

end command

/-! ## The four commands in a row -/

section sequence

variable {s : State} {hex : List Byte} {durs : List Half}

/-- After `DECODE` the duration sequence is what it produced. -/
theorem durIs_decodeDone (bound : durs.length ≤ 65535) : DurIs (decodeDone s durs) durs := by
  have durlen : (decodeDone s durs).durlen.toNat = durs.length := toNat_lenWord (Nat.lt_of_le_of_lt bound (by decide))
  rw [DurIs, durlen]
  exact cellsRead_cellsWrite _ _ _

/-- After `PACK` the payload is the bytes of its input. -/
theorem payIs_packDone (bound : durs.length ≤ 65535) : PayIs (packDone s durs) (payBytes durs) := by
  rw [PayIs, toNat_paylen_packDone bound, ← payBytes_length]
  exact cellsRead_cellsWrite _ _ _

/-- The payload of the durations of a capture fits `PAY`. -/
theorem payBytes_fits (bound : durs.length ≤ 65535) : (payBytes durs).length ≤ Config.nmax := by
  have := nmax_range
  rw [payBytes_length]
  omega

end sequence

/-- Settles O55: each command runs over what the one before left, which is what the stage before it hands on. -/
theorem convertEqualsSequence : Obligations.ConvertEqualsSequence := by
  unfold Obligations.ConvertEqualsSequence
  intro s t clear p level run done
  obtain ⟨v, parse, blocks, emits, convert, compress⟩ := exec_level level
  rw [convert] at run
  have ready := State.inFault_of_status_zero clear
  obtain ⟨fits, hex, durs, input, outcome⟩ := convert_completed clear run done
  rw [emits.runCommand_convert ready fits input outcome] at run
  cases run
  have bound := decodeOutcome_length_le outcome
  have fewer : (keepDurations durs).length ≤ 65535 := (keepDurations_length_le durs).trans bound
  have status : ∀ {w}, w = (0 : Word) → withStatusState w stReady = 0 := fun h => by rw [h, withStatusState_zero_ready]
  have aDur : DurIs (decodeDone s durs) durs := durIs_decodeDone bound
  have aStatus : (decodeDone s durs).status = 0 := status clear
  have aLen : (decodeDone s durs).durlen.toNat ≤ 65535 := (cellsRead_length aDur).symm.le.trans bound
  have bStatus : (filterDone (decodeDone s durs) durs).status = 0 := status aStatus
  have bDur := durIs_filterDone aDur
  have bLen : (filterDone (decodeDone s durs) durs).durlen.toNat ≤ 65535 := (cellsRead_length bDur).symm.le.trans fewer
  have cStatus : (packDone (filterDone (decodeDone s durs) durs) (keepDurations durs)).status = 0 := status bStatus
  have cPay := payIs_packDone (s := filterDone (decodeDone s durs) durs) fewer
  have cLen := (cellsRead_length cPay).symm.le.trans (payBytes_fits fewer)
  refine ⟨_, _, _, _, exec_decode_eq_done ready fits input outcome,
    exec_filter_eq_next (State.inFault_of_status_zero aStatus) aLen aDur,
    exec_pack_eq_done (State.inFault_of_status_zero bStatus) bLen bDur (sentinel_not_mem_keepDurations durs),
    (compress _).trans (emits.runCommand_compress (State.inFault_of_status_zero cStatus) cLen cPay), ?_⟩
  simp only [view, compressDone, packDone, filterDone, decodeDone, convertDone, convertMem, withStatusState_idem]

/-! ## `CONVERT` of a capture -/

/-- Over a clear `STATUS`, `CONVERT` changes only the three buffers it writes, their lengths and what every call leaves
unspecified. -/
theorem convertDone_frame {s : State} (clear : s.status = 0) (durs : List Half) (out : List Byte) :
    convertDone s durs out
      = { s with
          mem := { (convertDone s durs out).mem with hex := s.mem.hex }
          durlen := (convertDone s durs out).durlen
          paylen := (convertDone s durs out).paylen
          outlen := (convertDone s durs out).outlen
          work := (convertDone s durs out).work
          freeCtr := (convertDone s durs out).freeCtr
          outDraw := (convertDone s durs out).outDraw } := by
  have status : withStatusState s.status stReady = s.status := by rw [clear, withStatusState_zero_ready]
  exact State.eq_of_fields status rfl rfl rfl rfl rfl rfl rfl rfl rfl rfl rfl

/-- Settles O56: the Durations of a capture hold no sentinel, so all of them are kept, packed and compressed. -/
theorem convertOfCapture : Obligations.ConvertOfCapture := by
  unfold Obligations.ConvertOfCapture
  intro s hex units ticks clear fits input capture ticked fit i level
  obtain ⟨v, parse, blocks, emits, dispatch⟩ := exec_convert_level level
  have length : hex.length = s.hexlen.toNat := cellsRead_length input
  have outcome := decodeOutcome_of_units (regionStarts_of_isCapture capture) ticked (converts_of_le fit Config.durOvf)
  have bound := decodeOutcome_length_le outcome
  rw [length] at outcome
  have kept : keepDurations (ticks.map durationOf) = ticks.map durationOf := by
    refine List.filter_eq_self.2 fun v there => ?_
    obtain ⟨t, mem, rfl⟩ := List.mem_map.1 there
    exact bne_iff_ne.2 (durationOf_ne_sentinel (fit t mem))
  have run := emits.runCommand_convert (v := v) (State.inFault_of_status_zero clear) fits input outcome
  rw [kept] at run
  generalize ticks.map durationOf = durs at outcome bound kept run ⊢
  have payFit := payBytes_fits bound
  have durlen : (lenWord durs.length).toNat = durs.length := toNat_lenWord (by omega)
  have paylen : (lenWord (2 * durs.length)).toNat = (payBytes durs).length := by
    rw [payBytes_length]
    exact toNat_lenWord (by omega)
  have outlen : (lenWord (streamOf (blocks (payBytes durs))).length).toNat = (streamOf (blocks (payBytes durs))).length :=
    toNat_lenWord (Nat.lt_of_le_of_lt (emits.room payFit) outCap_lt)
  refine ⟨_, payBytes durs, _, (dispatch s).trans run, ?status, rfl, ?durIs, ?payIs, rfl, ?outIs,
    (emits.isParse _).expand, ?dur, ?pay, ?out, convertDone_frame clear _ _⟩ <;>
    simp only [DurIs, PayIs, OutIs, convertDone, convertMem, kept, durlen, paylen, outlen]
  case status => rw [clear, withStatusState_zero_ready]
  case durIs | payIs | outIs => exact cellsRead_cellsWrite _ _ _
  case dur =>
    intro j above
    rw [cellRead_cellsWrite_outside (.inr (by omega)), cellRead_cellsWrite_outside (.inr (by omega))]
  case pay | out => exact fun j above => cellRead_cellsWrite_outside (.inr (by omega))

end Sys2Proof.Proofs
end

section
/-!
PROOF. What the body of every command can do, said once: which cells it may write, what it leaves alone, what it may raise, and
that it looks at nothing but what the host sees (47_commands.md R248, 10_state.md R40, 42_block_emitter.md R155).
-/

namespace Sys2Proof.Proofs

open Sys2Proof.Machine Sys2Proof.Safety

/-! ## Cells written within a capacity -/

/-- A buffer rewritten within a capacity: in canonical form and with no cell past the capacity, if it was so before. -/
structure Rewritten {w : Nat} (cap : Nat) (b b' : Cells w) : Prop where
  wf : cellsWf b → cellsWf b'
  below : (∀ c ∈ b, c.1 < cap) → ∀ c ∈ b', c.1 < cap

section rewritten

variable {w cap : Nat}

/-- A buffer left alone. -/
theorem Rewritten.refl (b : Cells w) : Rewritten cap b b := ⟨id, id⟩

/-- A buffer rewritten twice. -/
theorem Rewritten.trans {a b c : Cells w} (first : Rewritten cap a b) (second : Rewritten cap b c) : Rewritten cap a c :=
  ⟨second.wf ∘ first.wf, second.below ∘ first.below⟩

/-- A block written within the capacity. -/
theorem rewritten_cellsWrite (b : Cells w) {i : Nat} {vs : List (BitVec w)} (inside : i + vs.length ≤ cap) :
    Rewritten cap b (cellsWrite b i vs) := by
  refine ⟨fun wf => cellsWrite_wf wf i vs, fun below c there => ?_⟩
  rcases mem_cellsWrite there with ⟨_, new⟩ | old
  · exact Nat.lt_of_lt_of_le new inside
  · exact below c old

/-- One cell written within the capacity. -/
theorem rewritten_cellWrite (b : Cells w) {i : Nat} (inside : i < cap) (v : BitVec w) : Rewritten cap b (cellWrite b i v) :=
  rewritten_cellsWrite b (vs := [v]) inside

end rewritten

/-- The memory rewritten within the capacities of its buffers. -/
structure MemoryKept (m m' : Memory) : Prop where
  hex : Rewritten Config.hexCap m.hex m'.hex
  dur : Rewritten Config.durCap m.dur m'.dur
  pay : Rewritten Config.nmax m.pay m'.pay
  out : Rewritten Config.outCap m.out m'.out

/-- The memory left alone. -/
theorem MemoryKept.refl (m : Memory) : MemoryKept m m := ⟨.refl _, .refl _, .refl _, .refl _⟩

/-- The memory stays canonical. -/
theorem MemoryKept.wf {m m' : Memory} (kept : MemoryKept m m') (wf : m.wf) : m'.wf := by
  obtain ⟨hex, dur, pay, out⟩ := wf
  exact ⟨kept.hex.wf hex, kept.dur.wf dur, kept.pay.wf pay, kept.out.wf out⟩

/-- Every cell stays below its buffer's capacity. -/
theorem MemoryKept.inBounds {s t : State} (kept : MemoryKept s.mem t.mem) (bounds : InBounds s) : InBounds t := by
  obtain ⟨hex, dur, pay, out⟩ := bounds
  exact ⟨kept.hex.below hex, kept.dur.below dur, kept.pay.below pay, kept.out.below out⟩

/-- The engine writes the memory within its capacities, and not the record of a fault. -/
structure EngineWrites (s u : State) : Prop where
  status : u.status = s.status
  erroff : u.erroff = s.erroff
  memory : MemoryKept s.mem u.mem

/-- The engine writes nothing. -/
theorem EngineWrites.refl (s : State) : EngineWrites s s := ⟨rfl, rfl, .refl _⟩

/-! ## What a command leaves alone -/

/-- A state with all that a command may change taken from another (47_commands.md R248). -/
def leftBy : Running → State → State → State
  | .decode, s, t | .filter, s, t =>
    { s with
      status := t.status, erroff := t.erroff, mem := { s.mem with dur := t.mem.dur }, durlen := t.durlen,
      work := t.work, freeCtr := t.freeCtr }
  | .pack, s, t =>
    { s with
      status := t.status, erroff := t.erroff, mem := { s.mem with pay := t.mem.pay }, paylen := t.paylen,
      work := t.work, freeCtr := t.freeCtr }
  | .compress, s, t =>
    { s with
      status := t.status, erroff := t.erroff, mem := { s.mem with out := t.mem.out }, outlen := t.outlen,
      work := t.work, freeCtr := t.freeCtr, outDraw := t.outDraw }
  | .convert, s, t =>
    { s with
      status := t.status, erroff := t.erroff, mem := { t.mem with hex := s.mem.hex }, durlen := t.durlen,
      paylen := t.paylen, outlen := t.outlen, work := t.work, freeCtr := t.freeCtr, outDraw := t.outDraw }

section leftBy

variable {c : Running} {s u : State}

/-- `STATUS` is among what a command may change. -/
theorem leftBy_setState (v : BitVec 2) : leftBy c (s.setState v) u = leftBy c s u := by cases c <;> rfl

/-- The end of a command that completes changes nothing more. -/
theorem endCall_eq_leftBy (frame : u = leftBy c s u) (v : BitVec 2) :
    (u.setState v).endCall c = leftBy c s ((u.setState v).endCall c) := by
  conv_lhs => rw [frame]
  cases c <;> rfl

/-- Nor does the end of a command that raises. -/
theorem endCall_faultEntry_eq_leftBy (frame : u = leftBy c s u) (r : Raise) :
    (faultEntry (some c) r u).endCall c = leftBy c s ((faultEntry (some c) r u).endCall c) := by
  conv_lhs => rw [frame]
  cases c <;> rfl

/-- Changing nothing is leaving everything alone. -/
theorem eq_leftBy_self (c : Running) (s : State) : s = leftBy c s s := by cases c <;> rfl

end leftBy

/-! ## The launch premise -/

/-- The input of a command stops being written at an index (20_memory.md R71). -/
def UnwrittenAt : Running → State → Nat → Prop
  | .decode, s, i | .convert, s, i => cellsRead s.mem.hex 0 s.hexlen.toNat = .error i
  | .filter, s, i | .pack, s, i => cellsRead s.mem.dur 0 s.durlen.toNat = .error i
  | .compress, s, i => cellsRead s.mem.pay 0 s.paylen.toNat = .error i

/-- The buffer of a command's input. -/
def inputBuffer : Running → Buffer
  | .decode | .convert => .hex
  | .filter | .pack => .dur
  | .compress => .pay

/-- A block read stops at one index. -/
theorem UnwrittenAt.unique {c : Running} {s : State} {i j : Nat} (first : UnwrittenAt c s i) (second : UnwrittenAt c s j) :
    i = j := by
  cases c <;> exact Except.error.inj (first.symm.trans second)

/-- `BUSY` does not change the input. -/
theorem unwrittenAt_setState {c : Running} {s : State} {v : BitVec 2} {i : Nat} :
    UnwrittenAt c (s.setState v) i ↔ UnwrittenAt c s i := by
  cases c <;> rfl

/-- The first cell that nothing has written is where a block read stops. -/
theorem cellsRead_of_firstUnwritten {w : Nat} {cells : Cells w} {n i : Nat} (first : FirstUnwritten cells n i) :
    cellsRead cells 0 n = .error i := by
  obtain ⟨below, unwritten, before⟩ := first
  cases read : cellsRead cells 0 n with
  | error j =>
    obtain ⟨_, _, stops, written⟩ := cellsRead_error read
    obtain lt | rfl | gt := Nat.lt_trichotomy i j
    · exact absurd unwritten (written i (Nat.zero_le _) lt)
    · rfl
    · exact absurd stops (before j gt)
  | ok vs =>
    have none := cellRead_of_cellsRead read below
    rw [Nat.zero_add, unwritten] at none
    have := List.getElem?_eq_none_iff.1 none.symm
    have := cellsRead_length read
    omega

/-! ## Bodies -/

/-- What the body of a command launched with its length in range comes to: refused for the cell of its input that nothing has
written; or, its input written, done or raised with what it leaves alone left alone, and never an `InvariantViolation`. -/
inductive Launched {α : Type} (c : Running) (s : State) : Body α → Prop where
  | unwritten {i : Nat} (stops : UnwrittenAt c s i) : Launched c s (.unwritten (inputBuffer c) i)
  | done {a : α} {u : State} (written : ∀ i, ¬ UnwrittenAt c s i) (writes : EngineWrites s u) (frame : u = leftBy c s u) :
      Launched c s (.done a u)
  | raised {r : Raise} {u : State} (written : ∀ i, ¬ UnwrittenAt c s i) (writes : EngineWrites s u)
      (frame : u = leftBy c s u) (kind : causeKind r.cause ≠ .invariantViolation) : Launched c s (.raised r u)

/-- A body as the host sees it: where it stops, or what it raises and the host's part of the state. -/
def viewBody {α : Type} : Body α → Except (Buffer × Nat) (Option Raise × HostView)
  | .done _ u => .ok (none, view u)
  | .raised r u => .ok (some r, view u)
  | .unwritten buf i => .error (buf, i)

/-- What is said of the body of every command. -/
structure CommandBody {α : Type} (c : Running) (body : State → Body α) : Prop where
  launched : ∀ s, checkLen c s = none → Launched c s (body s)
  congr : ∀ s t, view s = view t → viewBody (body s) = viewBody (body t)

/-- States that the host cannot tell apart differ in what it does not see. -/
theorem exists_eq_of_view_eq {s t : State} (same : view s = view t) :
    ∃ work inbox hostRead freeCtr outDraw,
      t = { s with work := work, inbox := inbox, hostRead := hostRead, freeCtr := freeCtr, outDraw := outDraw } := by
  simp only [view, HostView.mk.injEq] at same
  obtain ⟨status, erroff, hexlen, durlen, paylen, outlen, mem⟩ := same
  exact ⟨t.work, t.inbox, t.hostRead, t.freeCtr, t.outDraw, State.eq_of_fields status.symm erroff.symm hexlen.symm
    durlen.symm paylen.symm outlen.symm mem.symm rfl rfl rfl rfl rfl⟩

/-- What `DECODE` raises is a `DecodeError`. -/
theorem decodeOutcome_raise {ovf : Config.DurOvf} {hex : List Byte} {hexlen : Nat} {durs : List Half} {r : Raise}
    (outcome : decodeOutcome ovf hex hexlen = (durs, some r)) : causeKind r.cause = .decodeError := by
  have raised : (decodeOutcome ovf hex hexlen).2 = some r := congrArg Prod.snd outcome
  unfold decodeOutcome at raised
  split at raised <;> rename_i head
  · cases raised
    exact decHeader_error head
  · exact decLoop_raise raised

/-- The body of `DECODE`. -/
theorem commandBody_decode : CommandBody .decode decodeCommand := by
  refine ⟨fun s _ => ?_, fun s t same => ?_⟩
  · cases read : cellsRead s.mem.hex 0 s.hexlen.toNat with
    | error i =>
      have stops : decodeCommand s = .unwritten .hex i := by simp only [decodeCommand, read]
      exact stops ▸ .unwritten (c := .decode) read
    | ok hex =>
      have written : ∀ i, ¬ UnwrittenAt .decode s i := fun i stops => by cases read.symm.trans stops
      rcases outcome : decodeOutcome Config.durOvf hex s.hexlen.toNat with ⟨durs, _ | r⟩
      · have bound := decodeOutcome_length_le outcome
        rw [decodeCommand_of_hexIs read, decodeBody_of_done outcome]
        exact .done written ⟨rfl, rfl, .refl _, rewritten_cellsWrite _ ((Nat.zero_add _).trans_le bound), .refl _, .refl _⟩ rfl
      · have bound := decodeOutcome_length_le outcome
        rw [decodeCommand_of_hexIs read, decodeBody_of_raised outcome]
        exact .raised written ⟨rfl, rfl, .refl _, rewritten_cellsWrite _ ((Nat.zero_add _).trans_le bound), .refl _, .refl _⟩ rfl
          (by rw [decodeOutcome_raise outcome]; decide)
  · obtain ⟨work, inbox, hostRead, freeCtr, outDraw, rfl⟩ := exists_eq_of_view_eq same
    cases read : cellsRead s.mem.hex 0 s.hexlen.toNat with
    | error i => simp only [decodeCommand, read, viewBody]
    | ok hex =>
      rcases outcome : decodeOutcome Config.durOvf hex s.hexlen.toNat with ⟨durs, _ | r⟩
      · simp only [decodeCommand, read, decodeBody_of_done outcome]
        rw [decodeBody_of_done (by exact outcome)]
        rfl
      · simp only [decodeCommand, read, decodeBody_of_raised outcome]
        rw [decodeBody_of_raised (by exact outcome)]
        rfl

/-- The body of `FILTER`. -/
theorem commandBody_filter : CommandBody .filter filterCommand := by
  refine ⟨fun s len => ?_, fun s t same => ?_⟩
  · cases read : cellsRead s.mem.dur 0 s.durlen.toNat with
    | error i =>
      have stops : filterCommand s = .unwritten .dur i := by simp only [filterCommand, read]
      exact stops ▸ .unwritten (c := .filter) read
    | ok durs =>
      have written : ∀ i, ¬ UnwrittenAt .filter s i := fun i stops => by cases read.symm.trans stops
      have bound : 0 + (keepDurations durs).length ≤ Config.durCap := by
        rw [Nat.zero_add]
        exact (keepDurations_length_le durs).trans ((cellsRead_length read).le.trans (checkLen_eq_none_iff.1 len))
      rw [filterCommand_of_durIs read]
      exact .done written ⟨rfl, rfl, .refl _, rewritten_cellsWrite _ bound, .refl _, .refl _⟩ rfl
  · obtain ⟨work, inbox, hostRead, freeCtr, outDraw, rfl⟩ := exists_eq_of_view_eq same
    cases read : cellsRead s.mem.dur 0 s.durlen.toNat with
    | error i => simp only [filterCommand, read, viewBody]
    | ok durs =>
      simp only [filterCommand, read]
      rfl

/-- The body of `PACK`. -/
theorem commandBody_pack : CommandBody .pack packCommand := by
  refine ⟨fun s len => ?_, fun s t same => ?_⟩
  · cases read : cellsRead s.mem.dur 0 s.durlen.toNat with
    | error i =>
      have stops : packCommand s = .unwritten .dur i := by simp only [packCommand, read]
      exact stops ▸ .unwritten (c := .pack) read
    | ok durs =>
      have written : ∀ i, ¬ UnwrittenAt .pack s i := fun i stops => by cases read.symm.trans stops
      have few : durs.length ≤ 65535 := (cellsRead_length read).le.trans (checkLen_eq_none_iff.1 len)
      have bound : 0 + (packLoop 0 durs).1.length ≤ Config.nmax := by
        have := packLoop_length_le 0 durs
        have := nmax_range
        omega
      rw [packCommand_of_durIs read]
      obtain ⟨bytes, r, loop, raised⟩ | ⟨bytes, loop, done⟩ := packBody_cases durs s
      · rw [raised]
        rw [loop] at bound
        exact .raised written ⟨rfl, rfl, .refl _, .refl _, rewritten_cellsWrite _ bound, .refl _⟩ rfl
          (by rw [packLoop_raise (congrArg Prod.snd loop)]; decide)
      · rw [done]
        rw [loop] at bound
        exact .done written ⟨rfl, rfl, .refl _, .refl _, rewritten_cellsWrite _ bound, .refl _⟩ rfl
  · obtain ⟨work, inbox, hostRead, freeCtr, outDraw, rfl⟩ := exists_eq_of_view_eq same
    cases read : cellsRead s.mem.dur 0 s.durlen.toNat with
    | error i => simp only [packCommand, read, viewBody]
    | ok durs =>
      rcases loop : packLoop 0 durs with ⟨bytes, _ | r⟩ <;>
        simp only [packCommand, read, packBody, loop] <;> rfl

section level

variable {parse : List Byte → Work → List EmitCall} {blocks : List Byte → List Instr}

/-- The body of `COMPRESS`, of any level. -/
theorem Emits.commandBody_compress (emits : Emits parse blocks) (v : BitVec 2) :
    CommandBody .compress (compressCommand v parse) := by
  refine ⟨fun s len => ?_, fun s t same => ?_⟩
  · cases read : cellsRead s.mem.pay 0 s.paylen.toNat with
    | error i =>
      have stops : compressCommand v parse s = .unwritten .pay i := by simp only [compressCommand, read]
      exact stops ▸ .unwritten (c := .compress) read
    | ok pay =>
      have written : ∀ i, ¬ UnwrittenAt .compress s i := fun i stops => by cases read.symm.trans stops
      have fits : pay.length ≤ Config.nmax := (cellsRead_length read).le.trans (checkLen_eq_none_iff.1 len)
      have bound : 0 + (streamOf (blocks pay)).length ≤ Config.outCap := by
        rw [Nat.zero_add]
        exact emits.room fits
      rw [compressCommand_of_payIs read (emits.emitted pay _)]
      exact .done written ⟨rfl, rfl, .refl _, .refl _, .refl _, rewritten_cellsWrite _ bound⟩ rfl
  · obtain ⟨work, inbox, hostRead, freeCtr, outDraw, rfl⟩ := exists_eq_of_view_eq same
    cases read : cellsRead s.mem.pay 0 s.paylen.toNat with
    | error i => simp only [compressCommand, read, viewBody]
    | ok pay =>
      simp only [compressCommand, read, compressBody, emits.emitted]
      rfl

/-- The body of `CONVERT`, of any level. -/
theorem Emits.commandBody_convert (emits : Emits parse blocks) (v : BitVec 2) :
    CommandBody .convert (convertCommand v parse) := by
  refine ⟨fun s _ => ?_, fun s t same => ?_⟩
  · cases read : cellsRead s.mem.hex 0 s.hexlen.toNat with
    | error i =>
      have stops : convertCommand v parse s = .unwritten .hex i := by simp only [convertCommand, read]
      exact stops ▸ .unwritten (c := .convert) read
    | ok hex =>
      have written : ∀ i, ¬ UnwrittenAt .convert s i := fun i stops => by cases read.symm.trans stops
      rcases outcome : decodeOutcome Config.durOvf hex s.hexlen.toNat with ⟨durs, _ | r⟩
      · have bound := decodeOutcome_length_le outcome
        have fewer := (keepDurations_length_le durs).trans bound
        have payFit := payBytes_fits fewer
        rw [convertCommand_of_hexIs read, emits.convertBody_of_done outcome]
        exact .done written ⟨rfl, rfl, .refl _,
          (rewritten_cellsWrite _ ((Nat.zero_add _).trans_le bound)).trans
            (rewritten_cellsWrite _ ((Nat.zero_add _).trans_le fewer)),
          rewritten_cellsWrite _ ((Nat.zero_add _).trans_le payFit),
          rewritten_cellsWrite _ ((Nat.zero_add _).trans_le (emits.room payFit))⟩ rfl
      · have bound := decodeOutcome_length_le outcome
        rw [convertCommand_of_hexIs read, convertBody_of_raised outcome]
        exact .raised written ⟨rfl, rfl, .refl _, rewritten_cellsWrite _ ((Nat.zero_add _).trans_le bound), .refl _, .refl _⟩ rfl
          (by rw [decodeOutcome_raise outcome]; decide)
  · obtain ⟨work, inbox, hostRead, freeCtr, outDraw, rfl⟩ := exists_eq_of_view_eq same
    cases read : cellsRead s.mem.hex 0 s.hexlen.toNat with
    | error i => simp only [convertCommand, read, viewBody]
    | ok hex =>
      rcases outcome : decodeOutcome Config.durOvf hex s.hexlen.toNat with ⟨durs, _ | r⟩
      · simp only [convertCommand, read, emits.convertBody_of_done outcome]
        rw [emits.convertBody_of_done (by exact outcome)]
        rfl
      · simp only [convertCommand, read, convertBody_of_raised outcome]
        rw [convertBody_of_raised (by exact outcome)]
        rfl

end level

/-! ## Instructions -/

/-- An instruction that runs the body of a command, its launch premise that the input is written. -/
def RunsBody (i : Instr) : Prop :=
  ∃ (α : Type) (c : Running) (body : State → Body α), CommandBody c body ∧ (∀ s, exec i s = runCommand c body s)
    ∧ ∀ s, Launchable s i → ∀ j, ¬ UnwrittenAt c s j

/-- `DECODE`. -/
theorem runsBody_decode : RunsBody .decode :=
  ⟨_, _, _, commandBody_decode, exec_decode, fun _ ⟨_, read⟩ _ stops => by cases read.symm.trans stops⟩

/-- `FILTER`. -/
theorem runsBody_filter : RunsBody .filter :=
  ⟨_, _, _, commandBody_filter, exec_filter, fun _ ⟨_, read⟩ _ stops => by cases read.symm.trans stops⟩

/-- `PACK`. -/
theorem runsBody_pack : RunsBody .pack :=
  ⟨_, _, _, commandBody_pack, exec_pack, fun _ ⟨_, read⟩ _ stops => by cases read.symm.trans stops⟩

/-- `COMPRESS`, of any level. -/
theorem runsBody_compress {i : Instr} (level : i ∈ [Instr.compressL0, .compressL1, .compressL2, .compressL3])
    (input : ∀ s, Launchable s i → ∃ pay, PayIs s pay) : RunsBody i := by
  obtain ⟨v, parse, blocks, emits, dispatch⟩ := exec_compress_level level
  refine ⟨_, _, _, emits.commandBody_compress v, dispatch, fun s launchable j stops => ?_⟩
  obtain ⟨pay, read⟩ := input s launchable
  cases read.symm.trans stops

/-- `CONVERT`, of any level. -/
theorem runsBody_convert {i : Instr} (level : i ∈ [Instr.convertL0, .convertL1, .convertL2, .convertL3])
    (input : ∀ s, Launchable s i → ∃ hex, HexIs s hex) : RunsBody i := by
  obtain ⟨v, parse, blocks, emits, dispatch⟩ := exec_convert_level level
  refine ⟨_, _, _, emits.commandBody_convert v, dispatch, fun s launchable j stops => ?_⟩
  obtain ⟨hex, read⟩ := input s launchable
  cases read.symm.trans stops

/-- A command is `CLEAR`, a reserved word, or runs a body. -/
theorem command_cases {i : Instr} (command : spaceOf i = .cmd) : i = .clear ∨ (∃ w, i = .cmdReserved w) ∨ RunsBody i := by
  cases i with
  | clear => exact .inl rfl
  | cmdReserved w => exact .inr (.inl ⟨w, rfl⟩)
  | decode => exact .inr (.inr runsBody_decode)
  | filter => exact .inr (.inr runsBody_filter)
  | pack => exact .inr (.inr runsBody_pack)
  | compressL0 | compressL1 | compressL2 | compressL3 => exact .inr (.inr (runsBody_compress (by simp) fun _ => id))
  | convertL0 | convertL1 | convertL2 | convertL3 => exact .inr (.inr (runsBody_convert (by simp) fun _ => id))
  | frameHdr | tick1 | tick3 | paydur | lit | matchs | matchl => cases command

end Sys2Proof.Proofs
end

section
/-!
PROOF. Whole commands: what they leave alone, what they record, how they end, and what they depend on (47_commands.md R245 to
R249, 70_reset_and_hazards.md R298).
-/

namespace Sys2Proof.Proofs

open Sys2Proof.Machine Sys2Proof.Safety

/-! ## What a command that has a next state did -/

section command

variable {α : Type} {c : Running} {body : State → Body α} {s t : State}

/-- Everything a command can do outside `FAULT` when it has a next state: complete, or record a fault other than an
`InvariantViolation`; either way with what it leaves alone left alone. -/
theorem CommandBody.cases (command : CommandBody c body) (ready : s.inFault = false) (run : runCommand c body s = .next t) :
    (∃ u, EngineWrites (s.setState stBusy) u ∧ u = leftBy c s u ∧ t = (u.setState stReady).endCall c)
    ∨ ∃ r u, EngineWrites (s.setState stBusy) u ∧ u = leftBy c s u ∧ causeKind r.cause ≠ .invariantViolation
        ∧ t = (faultEntry (some c) r u).endCall c := by
  obtain ⟨fault, _⟩ | ⟨_, r, len, rfl⟩ | ⟨_, len, rest⟩ := runCommand_cases run
  · rw [ready] at fault
    cases fault
  · refine .inr ⟨r, s.setState stBusy, .refl _, ?_, by rw [checkLen_cause len]; decide, rfl⟩
    exact (eq_leftBy_self c _).trans (leftBy_setState stBusy)
  · have launched := command.launched (s.setState stBusy) (by rw [checkLen_setState, len])
    obtain ⟨a, u, ends, rfl⟩ | ⟨r, u, ends, rfl⟩ := rest
    · rw [ends] at launched
      cases launched with
      | done written writes frame => exact .inl ⟨u, writes, frame.trans (leftBy_setState stBusy), rfl⟩
    · rw [ends] at launched
      cases launched with
      | raised written writes frame kind => exact .inr ⟨r, u, writes, frame.trans (leftBy_setState stBusy), kind, rfl⟩

/-- In every case a command leaves alone what it may not change. -/
theorem CommandBody.eq_leftBy (command : CommandBody c body) (run : runCommand c body s = .next t) : t = leftBy c s t := by
  cases fault : s.inFault with
  | true =>
    rw [runCommand_inFault fault] at run
    cases run
    exact eq_leftBy_self c s
  | false =>
    obtain ⟨u, _, frame, rfl⟩ | ⟨r, u, _, frame, _, rfl⟩ := command.cases fault run
    · exact endCall_eq_leftBy frame stReady
    · exact endCall_faultEntry_eq_leftBy frame r

/-- A command launched with its length in range and an unwritten cell in its input is refused for it. -/
theorem CommandBody.refused (command : CommandBody c body) {i : Nat} (ready : s.inFault = false)
    (len : checkLen c s = none) (stops : UnwrittenAt c s i) :
    runCommand c body s = .refused (.unwrittenCell (inputBuffer c) i) := by
  have stopsBusy := unwrittenAt_setState (v := stBusy).2 stops
  have launched := command.launched (s.setState stBusy) (by rw [checkLen_setState, len])
  cases run : body (s.setState stBusy) <;> rw [run] at launched <;> cases launched
  case done written _ _ => exact absurd stopsBusy (written i)
  case raised written _ _ _ => exact absurd stopsBusy (written i)
  case unwritten stops' =>
    rw [stopsBusy.unique stops']
    exact runCommand_unwritten ready len run

/-- A command outside `FAULT` with its input written has a next state. -/
theorem CommandBody.next (command : CommandBody c body) (ready : s.inFault = false)
    (written : ∀ i, ¬ UnwrittenAt c s i) : ∃ t, runCommand c body s = .next t := by
  cases len : checkLen c s with
  | some r => exact ⟨_, runCommand_len ready len⟩
  | none =>
    have launched := command.launched (s.setState stBusy) (by rw [checkLen_setState, len])
    cases run : body (s.setState stBusy) with
    | done a u => exact ⟨_, runCommand_done ready len run⟩
    | raised r u => exact ⟨_, runCommand_raised ready len run⟩
    | unwritten buf i =>
      rw [run] at launched
      cases launched with
      | unwritten stops => exact absurd (unwrittenAt_setState.1 stops) (written i)

end command

/-! ## What is left alone -/

/-- Settles O58: the frame of each command's body, kept by the end of the call. -/
theorem commandsLeaveAlone : Obligations.CommandsLeaveAlone := by
  unfold Obligations.CommandsLeaveAlone
  refine fun s t => ⟨?dur, commandBody_pack.eq_leftBy, fun i level run => ?compress, fun i level run => ?convert⟩
  case dur =>
    rintro (run | run)
    · exact commandBody_decode.eq_leftBy run
    · exact commandBody_filter.eq_leftBy run
  case compress =>
    obtain ⟨v, parse, blocks, emits, dispatch⟩ := exec_compress_level level
    exact (emits.commandBody_compress v).eq_leftBy (dispatch s ▸ run)
  case convert =>
    obtain ⟨v, parse, blocks, emits, dispatch⟩ := exec_convert_level level
    exact (emits.commandBody_convert v).eq_leftBy (dispatch s ▸ run)

/-- A command that completes over a clear `STATUS` leaves it clear. -/
theorem status_completed {c : Running} {s u : State} (clear : s.status = 0) (writes : EngineWrites (s.setState stBusy) u) :
    ((u.setState stReady).endCall c).status = 0 := by
  rw [State.endCall_status, State.setState_status, writes.status, State.setState_status, withStatusState_idem, clear,
    withStatusState_zero_ready]

/-- Settles O57: fault entry of `CONVERT` clears the three lengths, and `HEX` is left alone. -/
theorem convertFaultZeroesLengths : Obligations.ConvertFaultZeroesLengths := by
  unfold Obligations.ConvertFaultZeroesLengths
  intro s t clear i level run faulted
  obtain ⟨v, parse, blocks, emits, dispatch⟩ := exec_convert_level level
  rw [dispatch] at run
  have frame := (emits.commandBody_convert v).eq_leftBy run
  obtain ⟨u, writes, _, rfl⟩ | ⟨r, u, _, _, _, rfl⟩ :=
    (emits.commandBody_convert v).cases (State.inFault_of_status_zero clear) run
  · exact absurd (status_completed clear writes) faulted
  · exact ⟨rfl, rfl, rfl, (congrArg State.hexlen frame :), (congrArg (fun t : State => t.mem.hex) frame :)⟩

/-! ## What is recorded -/

/-- The number of `InvariantViolation` is that of no other kind. -/
theorem kindNumber_ne_two {k : ErrKind} (other : k ≠ .invariantViolation) : kindNumber k ≠ 2 := by
  cases k with
  | invariantViolation => exact absurd rfl other
  | decodeError | validationError | cmdError => decide

/-- Settles O25: no body of a command raises an `InvariantViolation`: the calls of every parse are legal. -/
theorem noCommandRecordsInvariantViolation : Obligations.NoCommandRecordsInvariantViolation := by
  unfold Obligations.NoCommandRecordsInvariantViolation
  intro i s t space clear run
  have ready := State.inFault_of_status_zero clear
  have zero : statusErr 0 ≠ 2 := by decide
  obtain rfl | ⟨w, rfl⟩ | ⟨_, c, body, command, dispatch, _⟩ := command_cases space
  · rw [exec_clear] at run
    cases run
    exact zero
  · rw [exec_cmdReserved, execCmdReserved_of_not_inFault ready] at run
    cases run
    exact (by decide : statusErr 0x113 ≠ 2)
  · rw [dispatch] at run
    obtain ⟨u, writes, _, rfl⟩ | ⟨r, u, _, _, kind, rfl⟩ := command.cases ready run
    · rw [status_completed clear writes]
      exact zero
    · rw [State.endCall_status, faultEntry_status, statusErr_faultStatus]
      exact kindNumber_ne_two kind

/-! ## How commands end -/

/-- Every cause is one of the eleven. -/
theorem mem_allCauses (c : Cause) : c ∈ allCauses := by cases c <;> decide

/-- The record of a fault is a legal `STATUS`. -/
theorem legalStatus_faultStatus (c : Cause) : legalStatus (faultStatus c) := .inr ⟨c, mem_allCauses c, rfl⟩

/-- The record of a fault puts the block in `FAULT`. -/
theorem inFault_of_status_eq_faultStatus {s : State} {c : Cause} (status : s.status = faultStatus c) :
    s.inFault = true := by
  rw [State.inFault, status, statusState_faultStatus, beq_self_eq_true]

/-- Settles O23: a body whose input is written completes or raises. -/
theorem launchedCommandsEnd : Obligations.LaunchedCommandsEnd := by
  unfold Obligations.LaunchedCommandsEnd
  intro i s space clear noOffset launchable
  have ready := State.inFault_of_status_zero clear
  have faulted : ∀ {t : State} {c : Cause}, t.status = faultStatus c →
      t.status = 0 ∧ t.erroff = 0 ∨ t.inFault = true ∧ legalStatus t.status := fun status =>
    .inr ⟨inFault_of_status_eq_faultStatus status, status ▸ legalStatus_faultStatus _⟩
  obtain rfl | ⟨w, rfl⟩ | ⟨_, c, body, command, dispatch, input⟩ := command_cases space
  · exact ⟨_, exec_clear s, .inl ⟨rfl, rfl⟩⟩
  · rw [exec_cmdReserved, execCmdReserved_of_not_inFault ready]
    exact ⟨_, rfl, faulted faultStatus_illegalCmd.symm⟩
  · obtain ⟨t, run⟩ := command.next ready (input s launchable)
    refine ⟨t, (dispatch s).trans run, ?_⟩
    obtain ⟨u, writes, _, rfl⟩ | ⟨r, u, _, _, _, rfl⟩ := command.cases ready run
    · exact .inl ⟨status_completed clear writes, writes.erroff.trans noOffset⟩
    · exact faulted (faultEntry_status _ r u)

/-- Settles O24: a block read of the input stops at the first cell that nothing has written. -/
theorem unwrittenInputIsRefused : Obligations.UnwrittenInputIsRefused := by
  unfold Obligations.UnwrittenInputIsRefused
  intro s i clear
  have ready := State.inFault_of_status_zero clear
  refine ⟨fun fits first c there => ?hex, fun fits first c there => ?dur, fun fits first c level => ?pay⟩ <;>
    have stops := cellsRead_of_firstUnwritten first
  case hex =>
    obtain rfl | level := List.mem_cons.1 there
    · exact commandBody_decode.refused ready (checkLen_of_le fits) stops
    · obtain ⟨v, parse, blocks, emits, dispatch⟩ := exec_convert_level level
      exact (dispatch s).trans ((emits.commandBody_convert v).refused ready (checkLen_of_le fits) stops)
  case dur =>
    simp only [List.mem_cons, List.not_mem_nil, or_false] at there
    obtain rfl | rfl := there
    · exact commandBody_filter.refused ready (checkLen_of_le fits) stops
    · exact commandBody_pack.refused ready (checkLen_of_le fits) stops
  case pay =>
    obtain ⟨v, parse, blocks, emits, dispatch⟩ := exec_compress_level level
    exact (dispatch s).trans ((emits.commandBody_compress v).refused ready (checkLen_of_le fits) stops)

/-! ## What a command depends on -/

section congr

variable {u u' : State}

/-- The end of a command that completes, as the host sees it, depends on what the host sees. -/
theorem view_completed_congr (same : view u = view u') (c : Running) :
    view ((u.setState stReady).endCall c) = view ((u'.setState stReady).endCall c) := by
  obtain ⟨work, inbox, hostRead, freeCtr, outDraw, rfl⟩ := exists_eq_of_view_eq same
  rfl

/-- So does fault entry. -/
theorem view_faulted_congr (same : view u = view u') (c : Running) (r : Raise) :
    view ((faultEntry (some c) r u).endCall c) = view ((faultEntry (some c) r u').endCall c) := by
  obtain ⟨work, inbox, hostRead, freeCtr, outDraw, rfl⟩ := exists_eq_of_view_eq same
  cases c <;> rfl

end congr

/-- A command whose body looks at what the host sees only. -/
theorem CommandBody.view_congr {α : Type} {c : Running} {body : State → Body α} (command : CommandBody c body)
    {s t : State} (same : view s = view t) : viewOutcome (runCommand c body s) = viewOutcome (runCommand c body t) := by
  have status : s.status = t.status := congrArg HostView.status same
  have busy : view (s.setState stBusy) = view (t.setState stBusy) := by
    obtain ⟨work, inbox, hostRead, freeCtr, outDraw, rfl⟩ := exists_eq_of_view_eq same
    rfl
  have lengths : checkLen c s = checkLen c t := by
    obtain ⟨work, inbox, hostRead, freeCtr, outDraw, rfl⟩ := exists_eq_of_view_eq same
    cases c <;> rfl
  cases fault : s.inFault with
  | true =>
    have faultT : t.inFault = true := by rwa [State.inFault, ← status]
    rw [runCommand_inFault fault, runCommand_inFault faultT]
    exact congrArg Host.Outcome.next same
  | false =>
    have faultT : t.inFault = false := by rwa [State.inFault, ← status]
    cases len : checkLen c s with
    | some r =>
      rw [runCommand_len fault len, runCommand_len faultT (lengths ▸ len)]
      exact congrArg Host.Outcome.next (view_faulted_congr busy c r)
    | none =>
      have bodies := command.congr _ _ busy
      cases run : body (s.setState stBusy) <;> cases runT : body (t.setState stBusy) <;>
        simp only [run, runT, viewBody, Except.ok.injEq, Except.error.injEq, Prod.mk.injEq, reduceCtorEq, false_and,
          Option.some.injEq, true_and] at bodies
      case done.done =>
        rw [runCommand_done fault len run, runCommand_done faultT (lengths ▸ len) runT]
        exact congrArg Host.Outcome.next (view_completed_congr bodies c)
      case raised.raised =>
        obtain ⟨rfl, sameEnd⟩ := bodies
        rw [runCommand_raised fault len run, runCommand_raised faultT (lengths ▸ len) runT]
        exact congrArg Host.Outcome.next (view_faulted_congr sameEnd c _)
      case unwritten.unwritten =>
        obtain ⟨rfl, rfl⟩ := bodies
        rw [runCommand_unwritten fault len run, runCommand_unwritten faultT (lengths ▸ len) runT]

/-- Settles O54: every parse gives the same blocks whatever an earlier command left, and nothing else of it is looked at. -/
theorem commandsDependOnlyOnHostView : Obligations.CommandsDependOnlyOnHostView := by
  unfold Obligations.CommandsDependOnlyOnHostView
  intro i s t space same
  obtain rfl | ⟨w, rfl⟩ | ⟨_, c, body, command, dispatch, _⟩ := command_cases space
  · obtain ⟨work, inbox, hostRead, freeCtr, outDraw, rfl⟩ := exists_eq_of_view_eq same
    rfl
  · obtain ⟨work, inbox, hostRead, freeCtr, outDraw, rfl⟩ := exists_eq_of_view_eq same
    rw [exec_cmdReserved, exec_cmdReserved, execCmdReserved, execCmdReserved]
    show viewOutcome (if s.inFault then _ else _) = viewOutcome (if s.inFault then _ else _)
    split_ifs <;> rfl
  · rw [dispatch, dispatch]
    exact command.view_congr same

end Sys2Proof.Proofs
end

section
/-!
PROOF. What every step keeps: the memory's canonical form and its bounds, and a legal record of a fault (10_state.md R24,
20_memory.md R70, 60_exceptions.md R265).
-/

namespace Sys2Proof.Proofs

open Sys2Proof.Machine Sys2Proof.Safety

/-! ## What a step may do to the memory and to the record of a fault -/

/-- A step leaves the record of a fault alone, clears it, completes a command outside `FAULT`, or records a cause. -/
inductive RecordKept (s t : State) : Prop where
  | alone (status : t.status = s.status) (erroff : t.erroff = s.erroff)
  | cleared (status : t.status = 0) (erroff : t.erroff = 0)
  | completed (ready : s.inFault = false) (status : t.status = withStatusState s.status stReady) (erroff : t.erroff = s.erroff)
  | recorded {c : Cause} (status : t.status = faultStatus c)

/-- A step keeps the memory and the record of a fault. -/
structure Keeps (s t : State) : Prop where
  memory : MemoryKept s.mem t.mem
  record : RecordKept s t

/-- Nothing changed. -/
theorem Keeps.refl (s : State) : Keeps s s := ⟨.refl _, .alone rfl rfl⟩

/-- Outside `FAULT` a legal `STATUS` is clear. -/
theorem status_eq_zero_of_legal {s : State} (legal : legalStatus s.status) (ready : s.inFault = false) : s.status = 0 := by
  obtain zero | ⟨c, _, faulted⟩ := legal
  · exact zero
  · rw [inFault_of_status_eq_faultStatus faulted] at ready
    cases ready

/-- So it keeps the invariant. -/
theorem Keeps.inv {s t : State} (keeps : Keeps s t) (inv : Inv s) : Inv t := by
  obtain ⟨wf, legal, offset⟩ := inv
  refine ⟨keeps.memory.wf wf, ?_⟩
  cases keeps.record with
  | alone status erroff => exact ⟨status ▸ legal, fun ready => erroff.trans (offset (by rwa [State.inFault, ← status]))⟩
  | cleared status erroff => exact ⟨.inl status, fun _ => erroff⟩
  | completed ready status erroff =>
    have clear := status_eq_zero_of_legal legal ready
    rw [clear, withStatusState_zero_ready] at status
    exact ⟨.inl status, fun _ => erroff.trans (offset ready)⟩
  | recorded status =>
    exact ⟨status ▸ legalStatus_faultStatus _, fun ready => by cases (inFault_of_status_eq_faultStatus status).symm.trans ready⟩

/-! ## Records handed alone -/

/-- A unit handed alone writes one cell of `DUR`. -/
theorem engineWrites_of_placeUnit {ovf : Config.DurOvf} {t used : Nat} {s u : State}
    (done : placeUnit ovf t used s = .done u) : EngineWrites s u := by
  simp only [placeUnit] at done
  split at done
  · cases done
  · split at done <;> cases done
    rename_i v _ room
    exact ⟨rfl, rfl, .refl _, rewritten_cellWrite _ ((inCapacity_iff .dur _).1 room) v, .refl _, .refl _⟩

/-- A block handed alone is appended within the capacity of `OUT`. -/
theorem engineWrites_of_appendBlock {bytes : Except Raise (List Byte)} {s u : State}
    (done : appendBlock bytes s = .done u) : EngineWrites s u := by
  simp only [appendBlock] at done
  split at done
  · cases done
  · split at done <;> cases done
    rename_i room
    exact ⟨rfl, rfl, .refl _, .refl _, .refl _, rewritten_cellsWrite _ ((outFits_iff _).1 room)⟩

/-- A record handed alone keeps what its operation keeps; fault entry leaves the memory alone. -/
theorem keeps_of_runRecord {c : Running} {op : State → RecordStep} {s t : State}
    (writes : ∀ u, op s = .done u → EngineWrites s u) (run : runRecord c op s = .next t) : Keeps s t := by
  obtain ⟨_, rfl⟩ | ⟨_, done⟩ | ⟨_, r, _, rfl⟩ := runRecord_cases run
  · exact .refl _
  · exact ⟨(writes t done).memory, .alone (writes t done).status (writes t done).erroff⟩
  · refine ⟨?_, .recorded (faultEntry_status _ r s)⟩
    rw [State.endCall_mem, faultEntry_mem]
    exact .refl _

/-- A header handed alone writes `DECLEN` only. -/
theorem keeps_of_frameHdr {l h : Byte} {s t : State} (run : exec (.frameHdr l h) s = .next t) : Keeps s t := by
  refine keeps_of_runRecord (fun u done => ?_) ((exec_frameHdr l h s).symm.trans run)
  split at done
  · cases done
  · split at done <;> cases done
    exact ⟨rfl, rfl, .refl _⟩

/-- An escaped unit handed alone is placed where its region holds it. -/
theorem keeps_of_tick3 {h l : Byte} {s t : State} (run : exec (.tick3 h l) s = .next t) : Keeps s t := by
  refine keeps_of_runRecord (fun u done => ?_) ((exec_tick3 h l s).symm.trans run)
  split at done
  · cases done
  · exact engineWrites_of_placeUnit done

/-- A payload element handed alone writes two cells of `PAY`. -/
theorem keeps_of_paydur {l h : Byte} {s t : State} (run : exec (.paydur l h) s = .next t) : Keeps s t := by
  refine keeps_of_runRecord (fun u done => ?_) ((exec_paydur l h s).symm.trans run)
  split at done
  · cases done
  · rename_i bs bytes
    split at done <;> cases done
    rename_i room
    have inside : 2 * s.work.packIdx + 1 < Config.nmax := (inCapacity_iff .pay _).1 room
    have two : bs.length = 2 := by
      rw [packDuration_eq] at bytes
      split at bytes <;> cases bytes
      rfl
    exact ⟨rfl, rfl, .refl _, .refl _, rewritten_cellsWrite _ (by omega), .refl _⟩

/-! ## Instructions -/

/-- A command keeps the memory and the record of a fault. -/
theorem keeps_of_command {i : Instr} (space : spaceOf i = .cmd) {s t : State} (run : exec i s = .next t) : Keeps s t := by
  obtain rfl | ⟨w, rfl⟩ | ⟨_, c, body, command, dispatch, _⟩ := command_cases space
  · rw [exec_clear] at run
    cases run
    exact ⟨.refl _, .cleared rfl rfl⟩
  · cases fault : s.inFault with
    | true =>
      rw [exec_of_inFault (i := .cmdReserved w) fault nofun] at run
      cases run
      exact .refl s
    | false =>
      rw [exec_cmdReserved, execCmdReserved_of_not_inFault fault] at run
      cases run
      exact ⟨.refl _, .recorded faultStatus_illegalCmd.symm⟩
  · rw [dispatch] at run
    cases fault : s.inFault with
    | true =>
      rw [runCommand_inFault fault] at run
      cases run
      exact .refl s
    | false =>
      obtain ⟨u, writes, _, rfl⟩ | ⟨r, u, writes, _, _, rfl⟩ := command.cases fault run
      · refine ⟨writes.memory, .completed fault ?_ writes.erroff⟩
        rw [State.endCall_status, State.setState_status, writes.status, State.setState_status, withStatusState_idem]
      · refine ⟨?_, .recorded (faultEntry_status _ r u)⟩
        rw [State.endCall_mem, faultEntry_mem]
        exact writes.memory

/-- So does every instruction. -/
theorem keeps_of_exec {i : Instr} {s t : State} (run : exec i s = .next t) : Keeps s t := by
  cases i with
  | frameHdr => exact keeps_of_frameHdr run
  | tick1 => exact keeps_of_runRecord (fun _ => engineWrites_of_placeUnit) run
  | tick3 => exact keeps_of_tick3 run
  | paydur => exact keeps_of_paydur run
  | lit | matchs | matchl => exact keeps_of_runRecord (fun _ => engineWrites_of_appendBlock) run
  | clear | decode | filter | pack | compressL0 | compressL1 | compressL2 | compressL3 | convertL0 | convertL1 | convertL2
  | convertL3 | cmdReserved => exact keeps_of_command rfl run

/-- So do the bytes of a record. -/
theorem keeps_of_runRecordBytes {sp : Space} {bytes : List Byte} {s t : State}
    (run : runRecordBytes sp bytes s = .next t) : Keeps s t := by
  unfold runRecordBytes at run
  split at run
  · cases run
  · split at run
    · exact keeps_of_exec run
    · cases run

/-! ## Steps -/

/-- So does every access of the host. -/
theorem keeps_of_access {a : Access} {s t : State} (run : access a s = .next t) : Keeps s t := by
  cases a with
  | writeReg n v =>
    rw [access] at run
    split at run
    · exact keeps_of_exec run
    · cases run
      refine ⟨?_, .alone (State.writeReg_status s n v) (State.writeReg_erroff s n v)⟩
      rw [State.writeReg_mem]
      exact .refl _
  | readReg n =>
    cases run
    exact ⟨.refl _, .alone rfl rfl⟩
  | writeHex i c =>
    obtain ⟨inside, rfl⟩ := hostWrite_cases run
    exact ⟨⟨rewritten_cellWrite _ inside c, .refl _, .refl _, .refl _⟩, .alone rfl rfl⟩
  | writeDur i v =>
    obtain ⟨inside, rfl⟩ := hostWrite_cases run
    exact ⟨⟨.refl _, rewritten_cellWrite _ inside v, .refl _, .refl _⟩, .alone rfl rfl⟩
  | writePay i b =>
    obtain ⟨inside, rfl⟩ := hostWrite_cases run
    exact ⟨⟨.refl _, .refl _, rewritten_cellWrite _ inside b, .refl _⟩, .alone rfl rfl⟩
  | writeOut i b =>
    cases run
    exact .refl s
  | readCell buf i =>
    obtain ⟨_, ⟨_, _, rfl⟩ | ⟨_, _, _, rfl⟩⟩ := hostReadCell_cases run <;> exact ⟨.refl _, .alone rfl rfl⟩
  | reset =>
    cases run
    have empty : ∀ {w cap} {b : Cells w}, Rewritten cap b [] := ⟨fun _ => List.Pairwise.nil, fun _ => nofun⟩
    exact ⟨⟨empty, empty, empty, empty⟩, .cleared rfl rfl⟩
  | record sp bytes => exact keeps_of_runRecordBytes run

/-- So does every step. -/
theorem keeps_of_step {s t : State} (run : step s = .next t) : Keeps s t := by
  cases pending : s.inbox with
  | nil =>
    rw [step_idle pending] at run
    cases run
    exact .refl s
  | cons a rest =>
    rw [step_access pending] at run
    obtain ⟨memory, record⟩ := keeps_of_access run
    refine ⟨memory, ?_⟩
    cases record with
    | alone status erroff => exact .alone status erroff
    | cleared status erroff => exact .cleared status erroff
    | completed ready status erroff => exact .completed ready status erroff
    | recorded status => exact .recorded status

/-- Settles O9: a step keeps the canonical form, and of a legal record makes a legal one. -/
theorem stepKeepsInvariant : Obligations.StepKeepsInvariant := by
  unfold Obligations.StepKeepsInvariant
  exact fun s t inv run => (keeps_of_step run).inv inv

/-- Settles O10: every write of a step is below its buffer's capacity. -/
theorem stepKeepsCellsInBounds : Obligations.StepKeepsCellsInBounds := by
  unfold Obligations.StepKeepsCellsInBounds
  exact fun s t bounds run => (keeps_of_step run).memory.inBounds bounds

end Sys2Proof.Proofs
end
